-- ==== Sys2Proof/Word.lean ====
section
/-! DEFINITION. The words, levels and numbers of the block, and the names of its lines and channels (R8, R20, R28, R56). -/

namespace Sys2Proof

/-- A line level, or one transmitted bit: `0` is low, `1` is high (R8). -/
abbrev Level := Bool

/-- Level `0`. -/
abbrev low : Level := false

/-- Level `1`. -/
abbrev high : Level := true

/-- `NUM`: every rule computes with exact rationals (R28, D5). -/
abbrev Value := Rat

/-- The command word, one fixed length (R80). -/
abbrev CmdWord := BitVec 48

/-- A Q16.16 word of the transport (R28, R83). -/
abbrev NumWord := BitVec 32

/-- The four output lines, each with its one-bit line register (R20). -/
inductive Line where
  | clock
  | data
  | cs1
  | cs2
deriving DecidableEq, Repr

/-- The three output channels: the channels a channel operand resolves to, and the cache slots (R24, R56). -/
inductive Channel where
  | ch1
  | ch2
  | ch3
deriving DecidableEq, Repr

/-- `RANGE`: the pair `(minVal, maxVal)` fixed at construction (R26). -/
structure Range where
  minVal : Value
  maxVal : Value
deriving DecidableEq, Repr

/-- The invariant of the Range, `minVal < maxVal` (R27). -/
abbrev Range.Ok (r : Range) : Prop := r.minVal < r.maxVal

end Sys2Proof
end

