-- ==== Sys2Proof/Config.lean ====
section
/-! DEFINITION. The one configuration record of R6 and R7: the constants the spec fixes, the parameters it leaves to the
implementation with their defaults, and the free values of power-on. -/

namespace Sys2Proof

/-- The named constants of R6 and the parameters `INIT_ORDER` and `WIRING` of R7, in one record, so that a later audit changes one value (U18). -/
structure Config.Constants where
  /-- `N_OUT`: the number of output channels. -/
  nOut : Nat
  /-- `DEFAULT_CH`: what a channel number outside 1 to 3 resolves to. -/
  defaultCh : Channel
  /-- `CODE_BITS`. -/
  codeBits : Nat
  /-- `CODE_MAX`: scale factor and largest code. -/
  codeMax : Nat
  /-- `DELAY_US`: length of every wait, in microseconds. -/
  delayUs : Nat
  /-- `CMD_BITS`, first transmitted leftmost. -/
  cmdBits : BitVec 6
  /-- `FRAME_OCTET_BITS`: frame bits not counting the framing bits. -/
  frameOctetBits : Nat
  /-- `FRAME_LEN`: the number of `writeBit` operations in one frame. -/
  frameLen : Nat
  /-- `ADDR(ch)`: the sub-address bit of a resolved channel. -/
  addr : Channel → Level
  /-- `CSLEVEL(ch)`: the levels of `CS1` and `CS2` for a resolved channel. -/
  csLevel : Channel → Level × Level
  /-- `RANGE_DEFAULT`: the constructor's default Range. -/
  rangeDefault : Range
  /-- `INIT_ORDER`: the channel numbers construction writes, in order (D13). -/
  initOrder : List Int
  /-- `WIRING`: the bit of `OUT` each line is, a placeholder no rule depends on (R22, D17). -/
  wiring : Line → Fin 4

/-- The values of R6 and the defaults of R7 (C1, C3, D7, D8, D13, D17). -/
@[reducible] def Config.constants : Config.Constants where
  nOut := 3
  defaultCh := .ch1
  codeBits := 12
  codeMax := 4095
  delayUs := 5
  cmdBits := 0b110000#6
  frameOctetBits := 24
  frameLen := 27
  addr := fun
    | .ch1 => high
    | .ch2 => high
    | .ch3 => low
  csLevel := fun
    | .ch1 => (high, low)
    | .ch2 => (low, high)
    | .ch3 => (high, high)
  rangeDefault := { minVal := 0, maxVal := 1 }
  initOrder := [1, 2, 3]
  wiring := fun
    | .clock => 0
    | .data => 1
    | .cs1 => 2
    | .cs2 => 3

/-- What R6 says of its constants together: the codes are the numbers of `CODE_BITS` bits; a frame is groups of eight bits, each followed
by one framing bit (R53, R70, C1); `INIT_ORDER` writes every output channel once (R202, D13). -/
def Config.Constants.Consistent (c : Config.Constants) : Prop :=
  c.codeMax + 1 = 2 ^ c.codeBits ∧ c.frameLen = c.frameOctetBits + c.frameOctetBits / 8 ∧
  c.initOrder.length = c.nOut ∧ ∀ n < c.nOut, ((n : Int) + 1) ∈ c.initOrder

/-- The code sent to the DAC, `CODE_BITS` wide (R6, R75). -/
abbrev Code := BitVec Config.constants.codeBits

/-- The bits of a frame, `FRAME_LEN` of them; the most significant is sent first (R6, R70, R71, C1). -/
abbrev Frame := BitVec Config.constants.frameLen

/-- `POWERON_LINES`: the line levels before the first write, a free draw at each power-on, one bit a line (R39, R40, U3).
DESIGN CHOICE (`notes/assumptions/4.md`), safe: no value is given, so nothing can be proved of it. -/
opaque Config.powerOnLines : Nat → BitVec 4

/-- `DIR` before construction, unspecified (R23, R39): a free draw at each power-on.
DESIGN CHOICE (`notes/assumptions/4.md`), safe: no value is given. -/
opaque Config.powerOnDir : Nat → BitVec 4

end Sys2Proof
end

