-- ==== Sys2Proof/Syntax.lean ====
section
/-! DEFINITION. The commands of the block, one constructor for each row of the opcode table (R81), with the operands the
rules are written over: a level, an integer channel number, a rational value, an integer (R83, R88, R140). -/

namespace Sys2Proof

/-- A command offered by the host: the block's instruction (R12, R81). -/
inductive Instr where
  /-- The reserved encoding `op = 0x0`: accepted, does nothing (R85). -/
  | reserved
  /-- `clockLow()` (R101). -/
  | clkl
  /-- `clockHigh()` (R102). -/
  | clkh
  /-- `dataLow()` (R103). -/
  | datl
  /-- `dataHigh()` (R104). -/
  | dath
  /-- `dataSet(bit)` (R105). -/
  | dats (bit : Level)
  /-- `chipSelect1Low()` (R106). -/
  | cs1l
  /-- `chipSelect1High()` (R107). -/
  | cs1h
  /-- `chipSelect2Low()` (R108). -/
  | cs2l
  /-- `chipSelect2High()` (R109). -/
  | cs2h
  /-- `startCondition()` (R122). -/
  | start
  /-- `writeBit(bit)` (R123). -/
  | wbit (bit : Level)
  /-- `stopCondition()` (R124). -/
  | stop
  /-- `writeChannel(channel, value)` (R146). -/
  | wrch (ch : Int) (v : Value)
  /-- `analogWrite(output, value)` (R150). -/
  | awr (ch : Int) (v : Value)
  /-- `digitalWrite(output, value)`, the value tested against zero (R151). -/
  | dwr (ch : Int) (d : Int)
deriving DecidableEq, Repr

end Sys2Proof
end

