-- ==== Sys2Proof/WellFormed.lean ====
section
/-! DEFINITION. Which commands the command word can carry: the operand widths of R7, R80 and R83. The meanings take every
integer channel and every rational value (R140); these checks are about transport only. -/

namespace Sys2Proof

/-- `CHAN_W`: the channel operand fits eight bits, two's complement (R80, D26). -/
abbrev ChanFits (ch : Int) : Prop := -128 ≤ ch ∧ ch ≤ 127

/-- An integer operand fits the 32-bit value field, two's complement (R80, R83). -/
abbrev IntFits (n : Int) : Prop := -2147483648 ≤ n ∧ n ≤ 2147483647

/-- A value in units of 1/65536: the integer `v * 65536` where the denominator divides 65536 (R28). -/
def q16Units (v : Value) : Int := v.num * (65536 / v.den : Nat)

/-- A value is a signed Q16.16 number: a whole number of 1/65536 that fits 32 bits (R28, R83). -/
abbrev NumFits (v : Value) : Prop := v.den ∣ 65536 ∧ IntFits (q16Units v)

/-- The command word can carry the command. -/
def Instr.wellFormed : Instr → Bool
  | .wrch ch v => decide (ChanFits ch) && decide (NumFits v)
  | .awr ch v => decide (ChanFits ch) && decide (NumFits v)
  | .dwr ch d => decide (ChanFits ch) && decide (IntFits d)
  | .reserved => true
  | .clkl => true
  | .clkh => true
  | .datl => true
  | .dath => true
  | .dats _ => true
  | .cs1l => true
  | .cs1h => true
  | .cs2l => true
  | .cs2h => true
  | .start => true
  | .wbit _ => true
  | .stop => true

/-- `Instr.wellFormed` as a proposition. -/
abbrev Instr.WellFormed (i : Instr) : Prop := i.wellFormed = true

end Sys2Proof
end

