-- ==== Sys2Proof/Decode.lean ====
section
/-! DEFINITION. The command word (R80 to R87): its fields, the decoder, and the encoder written from the same layout. -/

namespace Sys2Proof

/-- Field `op`, bits 47:44 (R80). -/
def CmdWord.op (w : CmdWord) : BitVec 4 := w.extractLsb' 44 4

/-- Field `rsv`, bits 43:41: ignored by every operation (R80). -/
def CmdWord.rsv (w : CmdWord) : BitVec 3 := w.extractLsb' 41 3

/-- Field `bit`, bit 40, a level (R80, R83). -/
def CmdWord.bit (w : CmdWord) : Level := w.getLsbD 40

/-- Field `chan`, bits 39:32 (R80). -/
def CmdWord.chan (w : CmdWord) : BitVec 8 := w.extractLsb' 32 8

/-- Field `value`, bits 31:0 (R80). -/
def CmdWord.value (w : CmdWord) : NumWord := w.extractLsb' 0 32

/-- A Q16.16 word read as a rational, `sint(bits) / 65536` (R28, R83). -/
def q16 (w : NumWord) : Value := mkRat w.toInt 65536

/-- A Range presented as two Q16.16 words (R28, R202 step 1). -/
def q16Range (lo hi : NumWord) : Range := { minVal := q16 lo, maxVal := q16 hi }

/-- The decoder: total, every one of the 16 values of `op` names an operation, and each operation reads only the fields of
its format (R81 to R86). The last arm is `op = 0xF`, the only value left of a 4-bit field. -/
def decode (w : CmdWord) : Instr :=
  match w.op.toNat with
  | 0x0 => .reserved
  | 0x1 => .clkl
  | 0x2 => .clkh
  | 0x3 => .datl
  | 0x4 => .dath
  | 0x5 => .dats w.bit
  | 0x6 => .cs1l
  | 0x7 => .cs1h
  | 0x8 => .cs2l
  | 0x9 => .cs2h
  | 0xA => .start
  | 0xB => .wbit w.bit
  | 0xC => .stop
  | 0xD => .wrch w.chan.toInt (q16 w.value)
  | 0xE => .awr w.chan.toInt (q16 w.value)
  | _ => .dwr w.chan.toInt w.value.toInt

/-- Why a bit pattern is no command word: the only way is not to be 48 bits long (R80, R86, R87). -/
inductive DecodeError where
  /-- The pattern is declared longer than the 48 bits of a command word. -/
  | longerThanCommandWord
  /-- The number given does not fit the number of bits declared. -/
  | wiresOutsideDeclaredBits
deriving DecidableEq, Repr

/-- Read `nbits` bits with the number `w`, the bits above them zero, as one command word, or say why not. -/
def decodeBits (nbits w : Nat) : Except DecodeError Instr :=
  if 48 < nbits then .error .longerThanCommandWord
  else if 2 ^ nbits ≤ w then .error .wiresOutsideDeclaredBits
  else .ok (decode (BitVec.ofNat 48 w))

/-- The instruction of a row of the opcode table: one 48-bit unit presented in parallel, never split into bytes (R52, R80). -/
def decodeTableWord (nbits w : Nat) : Option Instr :=
  match decodeBits nbits w with
  | .ok i => some i
  | .error _ => none

/-- The layout of R80 with `rsv` zero. -/
def assemble (op : BitVec 4) (bit : Level) (chan : BitVec 8) (value : NumWord) : CmdWord :=
  op ++ (0#3 : BitVec 3) ++ BitVec.ofBool bit ++ chan ++ value

/-- The Q16.16 word of a value (R28, R83). -/
def encodeNum (v : Value) : NumWord := BitVec.ofInt 32 (q16Units v)

/-- The opcode of a command (R81). -/
def Instr.op : Instr → BitVec 4
  | .reserved => 0x0#4
  | .clkl => 0x1#4
  | .clkh => 0x2#4
  | .datl => 0x3#4
  | .dath => 0x4#4
  | .dats _ => 0x5#4
  | .cs1l => 0x6#4
  | .cs1h => 0x7#4
  | .cs2l => 0x8#4
  | .cs2h => 0x9#4
  | .start => 0xA#4
  | .wbit _ => 0xB#4
  | .stop => 0xC#4
  | .wrch _ _ => 0xD#4
  | .awr _ _ => 0xE#4
  | .dwr _ _ => 0xF#4

/-- The encoder: the command word of a well-formed command, ignored fields zero (R80 to R83). -/
def encode (i : Instr) : CmdWord :=
  match i with
  | .reserved => assemble i.op low 0 0
  | .clkl => assemble i.op low 0 0
  | .clkh => assemble i.op low 0 0
  | .datl => assemble i.op low 0 0
  | .dath => assemble i.op low 0 0
  | .dats bit => assemble i.op bit 0 0
  | .cs1l => assemble i.op low 0 0
  | .cs1h => assemble i.op low 0 0
  | .cs2l => assemble i.op low 0 0
  | .cs2h => assemble i.op low 0 0
  | .start => assemble i.op low 0 0
  | .wbit bit => assemble i.op bit 0 0
  | .stop => assemble i.op low 0 0
  | .wrch ch v => assemble i.op low (BitVec.ofInt 8 ch) (encodeNum v)
  | .awr ch v => assemble i.op low (BitVec.ofInt 8 ch) (encodeNum v)
  | .dwr ch d => assemble i.op low (BitVec.ofInt 8 ch) (BitVec.ofInt 32 d)

/-- The bits an operation reads, by opcode: format Z reads `op`, format B also `bit`, format CV `op`, `chan` and `value` (R82). -/
def usedBits (op : BitVec 4) : CmdWord :=
  if op = 0x5#4 ∨ op = 0xB#4 then 0xF10000000000#48
  else if op = 0xD#4 ∨ op = 0xE#4 ∨ op = 0xF#4 then 0xF0FFFFFFFFFF#48
  else 0xF00000000000#48

end Sys2Proof
end

