-- ==== Sys2Proof/Machine/Operands.lean ====
section
/-! DEFINITION. Steps 1 to 3 of `writeChannel` and the DAC frame: everything a command computes from its operands and the Range
at acceptance, before any line activity (R32, R56, R70 to R77, R141 to R146). Nothing here reads the machine's state. -/

namespace Sys2Proof.Machine

open Sys2Proof (Level Value NumWord Code Frame Line Channel Range)

/-- The output channel of a number in `1 .. N_OUT` (R6, R24). -/
def channelOfNumber (ch : Int) : Channel :=
  if ch = 3 then .ch3
  else if ch = 2 then .ch2
  else .ch1

/-- Step 3, the channel a channel number resolves to: `1 .. N_OUT` name themselves, every other integer the default channel
(R25, R56, R144). -/
def resolve (ch : Int) : Channel :=
  if 1 ≤ ch ∧ ch ≤ Config.constants.nOut then channelOfNumber ch else Config.constants.defaultCh

/-- Step 1, clamp a value into the Range (R141). -/
def clamp (v : Value) (r : Range) : Value :=
  if v < r.minVal then r.minVal
  else if r.maxVal < v then r.maxVal
  else v

/-- Step 2, scale a clamped value: `floor(CODE_MAX * (c - minVal) / (maxVal - minVal))`, exact but for the one `floor` (R142). -/
def scale (c : Value) (r : Range) : Int :=
  ((Config.constants.codeMax : Value) * (c - r.minVal) / (r.maxVal - r.minVal)).floor

/-- The code of a value: clamp, then scale (R141, R142, R152). -/
def codeOf (v : Value) (r : Range) : Int := scale (clamp v r) r

/-- The code as the `CODE_BITS` bits that are sent (R75, R142). -/
def codeBitsOf (v : Value) (r : Range) : Code := BitVec.ofInt Config.constants.codeBits (codeOf v r)

/-- Step 2 in integers, on the signed integers of the Q16.16 words, division rounding down (R143). -/
def codeOfWords (v lo hi : NumWord) : Int :=
  let c := if v.toInt < lo.toInt then lo.toInt else if hi.toInt < v.toInt then hi.toInt else v.toInt
  ((Config.constants.codeMax : Int) * (c - lo.toInt)).fdiv (hi.toInt - lo.toInt)

/-- The frame of a sub-address bit and a code: command bits, `A`, `0`, `1`, `0000`, four high code bits, `1`, eight low code
bits, `1` (R70, R73 to R76, C1, C2). -/
def frame (a : Level) (code : Code) : Frame :=
  Config.constants.cmdBits ++ BitVec.ofBool a ++ 0#1 ++ 1#1 ++ 0#4
    ++ code.extractLsb' 8 4 ++ 1#1 ++ code.extractLsb' 0 8 ++ 1#1

/-- The bits of a frame in sending order: bit 26 first, bit 0 last (R70, R71). -/
def frameBits (f : Frame) : List Level := (List.range Config.constants.frameLen).map f.getMsbD

/-- The frame whose bits were sent in this order, the first the most significant (R71, R212). -/
def frameOfBits (bits : List Level) : Frame :=
  BitVec.ofNat Config.constants.frameLen (bits.foldl (fun n b => 2 * n + b.toNat) 0)

/-- The mask of the fixed frame bits: a `1` at each position in which the frame of all zeros and the frame of all ones agree (R77, C7). -/
def fixedMask : Frame := ~~~(frame low 0 ^^^ frame high (BitVec.allOnes Config.constants.codeBits))

/-- The fixed bits of every frame: those of the frame with `A = 0` and code 0 (R76, R77). -/
def fixedBits : Frame := frame low 0

/-- The check of R77: the fixed bits of a frame are right. -/
def frameFixedOk (f : Frame) : Bool := f &&& fixedMask == fixedBits

/-- The sub-address bit of a frame (R77). -/
def frameAddr (f : Frame) : Level := f.getLsbD 20

/-- The code of a frame: `f[13:10]` and `f[8:1]` (R77). -/
def frameCode (f : Frame) : Code := f.extractLsb' 10 4 ++ f.extractLsb' 1 8

/-- What a channel write latches at acceptance: the resolved slot, the chip-select levels, the frame bits and the clamped
value (R32, R146). -/
structure WriteJob where
  slot : Channel
  cs1 : Level
  cs2 : Level
  frame : Frame
  value : Value
deriving DecidableEq, Repr

/-- Steps 1 to 3 and the frame of step 5, from the operands and the Range (R144, R146). -/
def writeJob (ch : Int) (v : Value) (r : Range) : WriteJob :=
  { slot := resolve ch
    cs1 := (Config.constants.csLevel (resolve ch)).1
    cs2 := (Config.constants.csLevel (resolve ch)).2
    frame := frame (Config.constants.addr (resolve ch)) (codeBitsOf v r)
    value := clamp v r }

/-- The value `digitalWrite` hands to `analogWrite`: `maxVal` for any non-zero operand, `minVal` for zero (R151, D22). -/
def digitalValue (d : Int) (r : Range) : Value := if d ≠ 0 then r.maxVal else r.minVal

end Sys2Proof.Machine
end

