-- ==== Sys2Proof/Machine/Sequence.lean ====
section
/-! DEFINITION. Micro-operations, events, and the fixed micro-operation list of every command (R10, R34, R100, R121 to R124, R147).
Nothing here reads the machine's state: a command's list depends on what it latched and on nothing else (R35, R120). -/

namespace Sys2Proof.Machine

open Sys2Proof (Level Value Line Channel Range)

/-- One element of a command's fixed sequence (R10, R12). -/
inductive MicroOp where
  /-- `SET n v`. -/
  | set (n : Line) (v : Level)
  /-- `WAIT us`. -/
  | wait (us : Nat)
  /-- `CACHE k q`. -/
  | cache (k : Channel) (q : Value)
deriving DecidableEq, Repr

/-- One entry of the trace (R34). -/
inductive Event where
  /-- Line `n` was written with level `v`. -/
  | set (n : Line) (v : Level)
  /-- A wait of at least `us` microseconds was performed. -/
  | wait (us : Nat)
  /-- `outCache[k]` was written with `q`. -/
  | cache (k : Channel) (q : Value)
deriving DecidableEq, Repr

/-- The event a micro-operation appends when performed: always one, also when a level does not change (R35). -/
def MicroOp.event : MicroOp → Event
  | .set n v => .set n v
  | .wait us => .wait us
  | .cache k q => .cache k q

/-- What an event adds to the lower bound on time: the length of a wait, and 0 for every other event (R36). -/
def Event.micros : Event → Nat
  | .set _ _ => 0
  | .wait us => us
  | .cache _ _ => 0

/-- The time of the waits in a list of events, in microseconds (R36). -/
def traceMicros (es : List Event) : Nat := (es.map Event.micros).sum

/-- The command latch `CUR`: the operation and everything the rest of the command needs (R32). -/
inductive Latch where
  /-- No command in flight; the latch has no meaning (R39; `notes/assumptions/7.md`). -/
  | idle
  /-- A signal-line primitive: write one line (R100 to R109). -/
  | line (n : Line) (v : Level)
  /-- `startCondition` (R122). -/
  | start
  /-- `writeBit` with its one-bit operand (R123). -/
  | bit (b : Level)
  /-- `stopCondition` (R124). -/
  | stop
  /-- `writeChannel` or a command that delegates to it (R146, R150, R151). -/
  | write (job : WriteJob)
deriving DecidableEq, Repr

/-- `WAIT 5`, the only wait there is (R121, R211). -/
def waitOp : MicroOp := .wait Config.constants.delayUs

/-- The list of `startCondition` (R122). -/
def startOps : List MicroOp := [.set .data low, waitOp, .set .clock low]

/-- The list of `writeBit` (R123). -/
def bitOps (b : Level) : List MicroOp := [.set .data b, waitOp, .set .clock high, waitOp, .set .clock low]

/-- The list of `stopCondition`; it does not first drive the data line low (R124). -/
def stopOps : List MicroOp := [.set .clock high, waitOp, .set .data high, waitOp]

/-- The list of `writeChannel`, 145 entries: chip-selects (`CS1` then `CS2`, no wait), start condition, 27 bits with the most
significant first, stop condition, cache (R145 to R148, D9, D10). -/
def writeOps (j : WriteJob) : List MicroOp :=
  [.set .cs1 j.cs1, .set .cs2 j.cs2] ++ startOps ++ (frameBits j.frame).flatMap bitOps ++ stopOps ++ [.cache j.slot j.value]

/-- The micro-operation list of the command in the latch. -/
def Latch.ops : Latch → List MicroOp
  | .idle => []
  | .line n v => [.set n v]
  | .start => startOps
  | .bit b => bitOps b
  | .stop => stopOps
  | .write j => writeOps j

/-- The events of the command in the latch, in order: one for each micro-operation. -/
def Latch.events (l : Latch) : List Event := l.ops.map MicroOp.event

/-- A record of the frame log: the chip-select levels and the 27 bits sent (R37). -/
structure DacRecord where
  cs1 : Level
  cs2 : Level
  frame : Frame
deriving DecidableEq, Repr

/-- The record a completed channel write leaves (R37, R154). -/
def WriteJob.record (j : WriteJob) : DacRecord := { cs1 := j.cs1, cs2 := j.cs2, frame := j.frame }

/-- The channel writes of construction: `minVal` to every channel number of the order (R202 step 3). -/
def constructionJobs (order : List Int) (r : Range) : List WriteJob := order.map fun k => writeJob k r.minVal r

/-- The events of construction (R202, R203). -/
def constructionEvents (order : List Int) (r : Range) : List Event :=
  (constructionJobs order r).flatMap fun j => (Latch.write j).events

/-- The frame records of construction (R202, R203). -/
def constructionRecords (order : List Int) (r : Range) : List DacRecord := (constructionJobs order r).map WriteJob.record

end Sys2Proof.Machine
end

