-- ==== Sys2Proof/Machine/State.lean ====
section
/-! DEFINITION. The state of the block as plain data, the reasons a step can stop, and the state after reset. -/

namespace Sys2Proof.Machine

open Sys2Proof (Level Value NumWord CmdWord Line Channel Range encodeNum)

/-- The block raises no exception: "The set of exception causes is empty" (R170). So no step ends in a fault. -/
inductive Fault where
deriving DecidableEq, Repr

/-- Why the model gives no meaning. -/
inductive Refusal where
  /-- An instruction without a meaning yet, by its mnemonic. No arm raises it. Safe. -/
  | notModelled (mnemonic : String)
  /-- The Range violates `minVal < maxVal` (R27, R176, R202 step 1). Raised by construction, and by the three channel writes in
  a state that holds such a Range, which no construction reaches. Safe: it stops where the spec gives no meaning. -/
  | badRange
deriving DecidableEq, Repr

/-- The four line registers (R20). -/
structure Lines where
  clock : Level
  data : Level
  cs1 : Level
  cs2 : Level
deriving DecidableEq, Repr

/-- The lines after a channel write: clock and data as a stop condition leaves them, the chip-selects at the levels of the channel
(R146, `CSLEVEL` of R6). -/
def Lines.written (k : Channel) : Lines :=
  { clock := high, data := high, cs1 := (Config.constants.csLevel k).1, cs2 := (Config.constants.csLevel k).2 }

/-- The output cache; `none` is R39's "unwritten (holds no value)", a state of the spec's own (R24, R40). -/
structure OutCache where
  slot1 : Option Value
  slot2 : Option Value
  slot3 : Option Value
deriving DecidableEq, Repr

/-- The configuration record of the block, apart from its registers: `RANGE` (R26). No command writes it. It is carried in the state
because the block takes it from its ports (R79): at power-on it is the constructor's arguments that stand there, construction
samples them, and from then on it is fixed until the next reset (R39, R202, R216; `notes/assumptions/6.md`). -/
structure Configuration where
  range : Range
deriving DecidableEq, Repr

/-- Which of R39's two points in time the block is at, or the construction between them (R200, R202). -/
inductive Phase where
  /-- Power-on: construction has not begun. -/
  | powerOn
  /-- Construction is running; the channel numbers it has still to write after the one in flight. -/
  | constructing (left : List Int)
  /-- Construction has completed; commands are accepted. -/
  | constructed
deriving DecidableEq, Repr

/-- The sequencer (R29 to R33). -/
structure Sequencer where
  phase : Phase
  /-- `BUSY` (R29). -/
  busy : Bool
  /-- `upc`, the index of the next micro-operation (R30). -/
  upc : BitVec 8
  /-- `CUR` (R32). -/
  cur : Latch
  /-- `waitCnt`, the microseconds the wait in progress has still to last; 0 when none is in progress (R33). -/
  waitCnt : Nat
deriving DecidableEq, Repr

/-- Where the accepted commands stand in the frame language of R212. -/
inductive FrameMonitor where
  /-- No host-composed frame is open. -/
  | closed
  /-- A host-composed frame is open, these bits sent so far, first sent first. -/
  | opened (bits : List Level)
  /-- The commands have stopped being a prefix of whole frames. -/
  | broken
deriving DecidableEq, Repr

/-- Observation state, model-level: no hardware register holds it and no rule reads it (R34 to R37). -/
structure History where
  /-- `trace`, oldest first (R34). -/
  trace : List Event
  /-- `now`, a lower bound in microseconds on the time since reset (R36). -/
  now : Nat
  /-- `dacLog`, oldest first (R37). -/
  dacLog : List DacRecord
  /-- `protoViolation`, sticky (R37, R212). -/
  protoViolation : Bool
  monitor : FrameMonitor
deriving DecidableEq, Repr

/-- The two levels of description (R10). -/
inductive Grain where
  /-- A command is one step. -/
  | command
  /-- A micro-operation is one step. -/
  | micro
deriving DecidableEq, Repr

/-- What the outside shows the block during one step: the input ports of R79, and how many microseconds pass. -/
structure HostInput where
  rst : Bool
  cfgMin : NumWord
  cfgMax : NumWord
  cmdValid : Bool
  cmd : CmdWord
  elapsed : Nat
deriving DecidableEq, Repr

/-- The host's side of the machine: the model's own fields (`notes/assumptions/1.md` to `4.md`). -/
structure HostSide where
  /-- The input ports during the coming step. -/
  input : HostInput
  /-- The input ports during the steps after it, in order. -/
  script : List HostInput
  /-- Which level of description `step` follows. -/
  grain : Grain
  /-- How many free power-on draws have been taken. -/
  draws : Nat
deriving DecidableEq, Repr

/-- The machine. -/
structure State where
  /-- The line registers (R20). -/
  lines : Lines
  /-- `DIR`, one bit a line in the layout of `OUT` (R23). -/
  dir : BitVec 4
  /-- The configuration record (R26). -/
  config : Configuration
  /-- `outCache` (R24). -/
  outCache : OutCache
  /-- The sequencer. -/
  seq : Sequencer
  /-- The observation state. -/
  hist : History
  /-- The host's side. -/
  host : HostSide
deriving DecidableEq, Repr

/-- The launch state of R39: the constructed state of R203 for the default Range, with the whole history of construction in it,
and a host that offers nothing (`notes/assumptions/5.md`, `2.md`). The lines stand as the write of the last channel of `INIT_ORDER`
leaves them. -/
def State.reset : State where
  lines := .written (resolve (Config.constants.initOrder.getLastD 0))
  dir := 0b1111#4
  config := { range := Config.constants.rangeDefault }
  outCache :=
    { slot1 := some Config.constants.rangeDefault.minVal
      slot2 := some Config.constants.rangeDefault.minVal
      slot3 := some Config.constants.rangeDefault.minVal }
  seq := { phase := .constructed, busy := false, upc := 0#8, cur := .idle, waitCnt := 0 }
  hist :=
    { trace := constructionEvents Config.constants.initOrder Config.constants.rangeDefault
      now := traceMicros (constructionEvents Config.constants.initOrder Config.constants.rangeDefault)
      dacLog := constructionRecords Config.constants.initOrder Config.constants.rangeDefault
      protoViolation := false
      monitor := .closed }
  host :=
    { input :=
        { rst := false
          cfgMin := encodeNum Config.constants.rangeDefault.minVal
          cfgMax := encodeNum Config.constants.rangeDefault.maxVal
          cmdValid := false
          cmd := 0#48
          elapsed := Config.constants.delayUs }
      script := []
      grain := .command
      draws := 0 }

end Sys2Proof.Machine
end

