-- ==== Sys2Proof/Machine/Flags.lean ====
section
/-! DEFINITION. The block's flags: `BUSY` with its port `ready` (R29, R79, R90), and the model-level mark `protoViolation` with the
monitor that sets it (R37, R206, R212). There are no condition codes (R29). -/

namespace Sys2Proof.Machine

open Sys2Proof (Level)

/-- The output port `ready`: the complement of `BUSY`, 0 while `rst` is asserted (R29, R79, C9) and before construction has
completed (R39; `notes/assumptions/12.md`). -/
def State.ready (s : State) : Bool :=
  !s.seq.busy && !s.host.input.rst && decide (s.seq.phase = .constructed)

/-- The command word accepted in the coming step, if one is (R90). -/
def State.accepted (s : State) : Option CmdWord :=
  if s.ready && s.host.input.cmdValid then some s.host.input.cmd else none

/-- A line the monitor lets a host write between frames: a chip-select (R212, `CSW`). -/
def isChipSelect : Line → Bool
  | .clock => false
  | .data => false
  | .cs1 => true
  | .cs2 => true

/-- How accepting a command moves the monitor: `broken` as soon as the accepted commands are no longer a prefix of whole frames
(R212). The reserved command, which latches nothing, does not affect it. -/
def FrameMonitor.accept : FrameMonitor → Latch → FrameMonitor
  | m, .idle => m
  | .closed, .line n _ => if isChipSelect n then .closed else .broken
  | .closed, .start => .opened []
  | .closed, .bit _ => .broken
  | .closed, .stop => .broken
  | .closed, .write _ => .closed
  | .opened bits, .bit b => if bits.length < Config.constants.frameLen then .opened (bits ++ [b]) else .broken
  | .opened bits, .stop => if bits.length = Config.constants.frameLen then .opened bits else .broken
  | .opened _, .line _ _ => .broken
  | .opened _, .start => .broken
  | .opened _, .write _ => .broken
  | .broken, _ => .broken

/-- How completing a command moves the monitor: a host-composed frame completes with its stop condition, and its fixed bits are
then checked (R77, R212). -/
def FrameMonitor.complete : FrameMonitor → Latch → FrameMonitor
  | .opened bits, .stop => if frameFixedOk (frameOfBits bits) then .closed else .broken
  | m, _ => m

/-- The monitor moves to `m`; `protoViolation` becomes 1 when it breaks, and stays 1 (R37, R212). -/
def History.moveMonitor (h : History) (m : FrameMonitor) : History :=
  { h with monitor := m, protoViolation := h.protoViolation || decide (m = .broken) }

end Sys2Proof.Machine
end

