-- ==== Sys2Proof/Machine/Ops.lean ====
section
/-! DEFINITION. The named operations over the registers that every meaning is made of: line writes, waits and cache writes (R9, R21,
R24, R121), accepting and completing a command (R31, R32, R37), performing a whole command (R10), going to power-on (R206). -/

namespace Sys2Proof.Machine

open Sys2Proof (Level Value Line Channel Range q16Range)

/-! ### Registers -/

/-- `L[n]` (R9, R20). -/
def Lines.get (l : Lines) : Line → Level
  | .clock => l.clock
  | .data => l.data
  | .cs1 => l.cs1
  | .cs2 => l.cs2

/-- The line registers after `L[n] <- v`: one bit changes, the other three stay (R20, R22, R55). -/
def Lines.set (l : Lines) (n : Line) (v : Level) : Lines :=
  match n with
  | .clock => { l with clock := v }
  | .data => { l with data := v }
  | .cs1 => { l with cs1 := v }
  | .cs2 => { l with cs2 := v }

/-- The line wired to a bit of `OUT` (R22). -/
def lineOfBit (i : Nat) : Option Line :=
  [Line.clock, Line.data, Line.cs1, Line.cs2].find? fun n => (Config.constants.wiring n).val == i

/-- One bit of `OUT`: the level of the line wired to it (R22). -/
def Lines.outBit (l : Lines) (i : Nat) : Level :=
  match lineOfBit i with
  | some n => l.get n
  | none => low

/-- The output register `OUT`: the four line bits as one register, in the layout `WIRING` (R22). -/
def Lines.out (l : Lines) : BitVec 4 :=
  BitVec.ofBool (l.outBit 3) ++ BitVec.ofBool (l.outBit 2) ++ BitVec.ofBool (l.outBit 1) ++ BitVec.ofBool (l.outBit 0)

/-- The line registers that show a value of `OUT`. -/
def Lines.ofOut (o : BitVec 4) : Lines :=
  { clock := o.getLsbD (Config.constants.wiring .clock).val
    data := o.getLsbD (Config.constants.wiring .data).val
    cs1 := o.getLsbD (Config.constants.wiring .cs1).val
    cs2 := o.getLsbD (Config.constants.wiring .cs2).val }

/-- `outCache[k]` (R24). -/
def OutCache.get (c : OutCache) : Channel → Option Value
  | .ch1 => c.slot1
  | .ch2 => c.slot2
  | .ch3 => c.slot3

/-- The cache after `outCache[k] <- q` (R24, R148). -/
def OutCache.set (c : OutCache) (k : Channel) (q : Value) : OutCache :=
  match k with
  | .ch1 => { c with slot1 := some q }
  | .ch2 => { c with slot2 := some q }
  | .ch3 => { c with slot3 := some q }

/-- The cache at power-on: unwritten (R39, R40). -/
def OutCache.unwritten : OutCache := { slot1 := none, slot2 := none, slot3 := none }

/-! ### Micro-operations -/

/-- `emit(e)`: append an event to the trace; a wait also advances the lower bound on time (R9, R34, R36). -/
def History.emit (h : History) (e : Event) : History :=
  { h with trace := h.trace ++ [e], now := h.now + e.micros }

/-- `L[n] <- v`: the register changes at once and the event is appended, also when the level does not change (R9, R21, R35). -/
def State.setLine (s : State) (n : Line) (v : Level) : State :=
  { s with lines := s.lines.set n v, hist := s.hist.emit (.set n v) }

/-- `wait(us)`: no line is written and the event is appended (R9, R121). -/
def State.waitFor (s : State) (us : Nat) : State := { s with hist := s.hist.emit (.wait us) }

/-- `outCache[k] <- q` and its event (R9, R34, R148). -/
def State.setCache (s : State) (k : Channel) (q : Value) : State :=
  { s with outCache := s.outCache.set k q, hist := s.hist.emit (.cache k q) }

/-- Perform one micro-operation (R10). -/
def State.perform (s : State) : MicroOp → State
  | .set n v => s.setLine n v
  | .wait us => s.waitFor us
  | .cache k q => s.setCache k q

/-- Perform a list of micro-operations in order, with nothing in between (R10, R59). -/
def State.performAll (s : State) (ops : List MicroOp) : State := ops.foldl State.perform s

/-! ### The command in flight -/

/-- The sequencer with no command in flight (R31; `notes/assumptions/7.md` for `CUR` and `waitCnt`). -/
def Sequencer.rest (q : Sequencer) : Sequencer := { q with busy := false, upc := 0#8, cur := .idle, waitCnt := 0 }

/-- The sequencer at the acceptance of a command: `CUR` latched, `BUSY <- 1`, `upc <- 0` (R31, R32, R90). -/
def Sequencer.begin (q : Sequencer) (l : Latch) : Sequencer := { q with busy := true, upc := 0#8, cur := l, waitCnt := 0 }

/-- Latch a command (R32, R90). -/
def State.latch (s : State) (l : Latch) : State := { s with seq := s.seq.begin l }

/-- What accepting a command of the host does to the monitor (R212). -/
def State.note (s : State) (l : Latch) : State := { s with hist := s.hist.moveMonitor (s.hist.monitor.accept l) }

/-- The records a completed command leaves: a channel write one record in `dacLog`, a stop condition the frame check of the
monitor (R37, R154, R212). -/
def History.complete (h : History) (l : Latch) : History :=
  match l with
  | .write j => { h with dacLog := h.dacLog ++ [j.record] }
  | .stop => h.moveMonitor (h.monitor.complete .stop)
  | .idle => h
  | .line _ _ => h
  | .start => h
  | .bit _ => h

/-- The end of a command: its records are written, `BUSY <- 0`, `upc <- 0` (R31, R37). -/
def State.finish (s : State) : State := { s with seq := s.seq.rest, hist := s.hist.complete s.seq.cur }

/-- Latch a command, perform its whole list from index 0 to its end, and complete it: the command level of R10. -/
def State.runLatched (s : State) (l : Latch) : State := ((s.latch l).performAll l.ops).finish

/-- A command of the host at the command level: the monitor sees it accepted, and it runs to completion (R10, R90, R212). -/
def State.runCommand (s : State) (l : Latch) : State := (s.note l).runLatched l

/-- A channel write of the host at the command level (R146), refused where the Range has no meaning (R27, R176). -/
def State.runWrite (s : State) (ch : Int) (v : Value) : Host.Outcome State Fault Refusal :=
  if s.config.range.Ok then .next (s.runCommand (.write (writeJob ch v s.config.range))) else .refused .badRange

/-! ### Reset and the host's side -/

/-- The constructor's arguments, as the configuration ports show them (R26, R79, R202 step 1). -/
def State.cfgRange (s : State) : Range := q16Range s.host.input.cfgMin s.host.input.cfgMax

/-- `rst` asserted: the block goes to power-on. Lines and `DIR` take levels of a fresh free draw, the Range is the constructor's arguments
again, the cache becomes unwritten, the history starts again, and `protoViolation` is kept, or set when a command was in flight
(R39, R40, R206). -/
def State.enterPowerOn (s : State) : State :=
  { s with
    lines := Lines.ofOut (Config.powerOnLines s.host.draws)
    dir := Config.powerOnDir s.host.draws
    config := { range := s.cfgRange }
    outCache := .unwritten
    seq := { phase := .powerOn, busy := false, upc := 0#8, cur := .idle, waitCnt := 0 }
    hist :=
      { trace := [], now := 0, dacLog := [], protoViolation := s.hist.protoViolation || s.seq.busy, monitor := .closed }
    host := { s.host with draws := s.host.draws + 1 } }

/-- While `rst` is asserted the block is at power-on (R79, R206). A block that is there already keeps the levels it drew (U3;
`notes/assumptions/24.md`). -/
def State.holdReset (s : State) : State :=
  if s.seq.phase = .powerOn then { s.enterPowerOn with lines := s.lines, dir := s.dir, host := s.host } else s.enterPowerOn

/-- The ports show the next entry of the script; after its end the host releases `rst`, offers nothing, and each step lasts the
length of a wait (R221; `notes/assumptions/2.md`, `3.md`). -/
def HostSide.advance (h : HostSide) : HostSide :=
  match h.script with
  | p :: ps => { h with input := p, script := ps }
  | [] => { h with input := { h.input with rst := false, cmdValid := false, elapsed := Config.constants.delayUs } }

/-- The state with the ports moved on to what the host shows in the next step. -/
def State.advanceHost (s : State) : State := { s with host := s.host.advance }

/-- A step's outcome with the ports moved on. -/
def advanceHostAfter : Host.Outcome State Fault Refusal → Host.Outcome State Fault Refusal
  | .next s => .next s.advanceHost
  | .fault r => .fault r
  | .refused r => .refused r

end Sys2Proof.Machine
end

