-- ==== Sys2Proof/Machine/Encoder.lean ====
section
/-! DEFINITION. The DAC channel encoder and the two output operations that delegate to it (R140 to R151). Every channel number and
every value has its effect: bad channel numbers fall back to channel 1, values are clamped (R140, R171). -/

namespace Sys2Proof.Machine

open Sys2Proof (Value Range)

/-- What `writeChannel(ch, v)` latches (R146). -/
def latchWrch (ch : Int) (v : Value) (r : Range) : Latch := .write (writeJob ch v r)
/-- What `analogWrite(ch, v)` latches: as `writeChannel(ch, v)` (R150). -/
def latchAwr (ch : Int) (v : Value) (r : Range) : Latch := .write (writeJob ch v r)
/-- What `digitalWrite(ch, d)` latches: as `analogWrite` of `maxVal` or `minVal` (R151). -/
def latchDwr (ch : Int) (d : Int) (r : Range) : Latch := .write (writeJob ch (digitalValue d r) r)

/-- `WRCH`: one frame for the clamped, scaled value on the resolved channel, then the cache (R146). -/
def execWrch (ch : Int) (v : Value) (s : State) : Host.Outcome State Fault Refusal := s.runWrite ch v
/-- `AWR`: delegates to `writeChannel` (R150). -/
def execAwr (ch : Int) (v : Value) (s : State) : Host.Outcome State Fault Refusal := s.runWrite ch v
/-- `DWR`: non-zero writes `maxVal`, zero writes `minVal` (R151). -/
def execDwr (ch : Int) (d : Int) (s : State) : Host.Outcome State Fault Refusal := s.runWrite ch (digitalValue d s.config.range)

end Sys2Proof.Machine
end

