-- ==== Sys2Proof/Machine/Primitives.lean ====
section
/-! DEFINITION. The reserved command (R85) and the nine signal-line primitives (R100 to R110). Each primitive latches one line write
and performs it: one micro-operation, one event, no wait. -/

namespace Sys2Proof.Machine

open Sys2Proof (Level)

/-- `op = 0x0`: accepted like any other command and does nothing; `BUSY` stays 0 (R85, D4). -/
def execReserved (s : State) : Host.Outcome State Fault Refusal := .next s

/-- `clockLow()`: `L[CLOCK] <- 0` (R101). -/
def latchClkl : Latch := .line .clock low
/-- `clockHigh()`: `L[CLOCK] <- 1` (R102). -/
def latchClkh : Latch := .line .clock high
/-- `dataLow()`: `L[DATA] <- 0` (R103). -/
def latchDatl : Latch := .line .data low
/-- `dataHigh()`: `L[DATA] <- 1` (R104). -/
def latchDath : Latch := .line .data high
/-- `dataSet(bit)`: `L[DATA] <- bit` (R105). -/
def latchDats (bit : Level) : Latch := .line .data bit
/-- `chipSelect1Low()`: `L[CS1] <- 0` (R106). -/
def latchCs1l : Latch := .line .cs1 low
/-- `chipSelect1High()`: `L[CS1] <- 1` (R107). -/
def latchCs1h : Latch := .line .cs1 high
/-- `chipSelect2Low()`: `L[CS2] <- 0` (R108). -/
def latchCs2l : Latch := .line .cs2 low
/-- `chipSelect2High()`: `L[CS2] <- 1` (R109). -/
def latchCs2h : Latch := .line .cs2 high

/-- `CLKL` (R101). -/
def execClkl (s : State) : Host.Outcome State Fault Refusal := .next (s.runCommand latchClkl)
/-- `CLKH` (R102). -/
def execClkh (s : State) : Host.Outcome State Fault Refusal := .next (s.runCommand latchClkh)
/-- `DATL` (R103). -/
def execDatl (s : State) : Host.Outcome State Fault Refusal := .next (s.runCommand latchDatl)
/-- `DATH` (R104). -/
def execDath (s : State) : Host.Outcome State Fault Refusal := .next (s.runCommand latchDath)
/-- `DATS` (R105). -/
def execDats (bit : Level) (s : State) : Host.Outcome State Fault Refusal := .next (s.runCommand (latchDats bit))
/-- `CS1L` (R106). -/
def execCs1l (s : State) : Host.Outcome State Fault Refusal := .next (s.runCommand latchCs1l)
/-- `CS1H` (R107). -/
def execCs1h (s : State) : Host.Outcome State Fault Refusal := .next (s.runCommand latchCs1h)
/-- `CS2L` (R108). -/
def execCs2l (s : State) : Host.Outcome State Fault Refusal := .next (s.runCommand latchCs2l)
/-- `CS2H` (R109). -/
def execCs2h (s : State) : Host.Outcome State Fault Refusal := .next (s.runCommand latchCs2h)

end Sys2Proof.Machine
end

