-- ==== Sys2Proof/Machine/Transmitter.lean ====
section
/-! DEFINITION. The bit-level transmitter: start condition, one bit, stop condition (R120 to R124). Each performs its fixed list from
any start state and touches `CLOCK` and `DATA` only. -/

namespace Sys2Proof.Machine

open Sys2Proof (Level)

/-- `startCondition()` (R122). -/
def latchStart : Latch := .start
/-- `writeBit(bit)` (R123). -/
def latchWbit (bit : Level) : Latch := .bit bit
/-- `stopCondition()` (R124). -/
def latchStop : Latch := .stop

/-- `START`: data low, wait, clock low (R122). -/
def execStart (s : State) : Host.Outcome State Fault Refusal := .next (s.runCommand latchStart)
/-- `WBIT`: data to the bit, wait, clock high, wait, clock low (R123). -/
def execWbit (bit : Level) (s : State) : Host.Outcome State Fault Refusal := .next (s.runCommand (latchWbit bit))
/-- `STOP`: clock high, wait, data high, wait (R124). -/
def execStop (s : State) : Host.Outcome State Fault Refusal := .next (s.runCommand latchStop)

end Sys2Proof.Machine
end

