-- ==== Sys2Proof/Machine/Sequencer.lean ====
section
/-! DEFINITION. The micro-operation level of R10: acceptance of a command (R90), one micro-operation a step (R30, R31), the wait timer
(R33, R121), completion, and the succession of channel writes in construction (R202). -/

namespace Sys2Proof.Machine

open Sys2Proof (Instr Range)

/-- What a command latches at acceptance (R32), or the refusal of a Range without meaning (R27, R176). -/
def latchOf (i : Instr) (r : Range) : Except Refusal Latch :=
  match i with
  | .reserved => .ok .idle
  | .clkl => .ok latchClkl
  | .clkh => .ok latchClkh
  | .datl => .ok latchDatl
  | .dath => .ok latchDath
  | .dats bit => .ok (latchDats bit)
  | .cs1l => .ok latchCs1l
  | .cs1h => .ok latchCs1h
  | .cs2l => .ok latchCs2l
  | .cs2h => .ok latchCs2h
  | .start => .ok latchStart
  | .wbit bit => .ok (latchWbit bit)
  | .stop => .ok latchStop
  | .wrch ch v => if r.Ok then .ok (latchWrch ch v r) else .error .badRange
  | .awr ch v => if r.Ok then .ok (latchAwr ch v r) else .error .badRange
  | .dwr ch d => if r.Ok then .ok (latchDwr ch d r) else .error .badRange

/-- Accept a command at the micro level: decode, latch `CUR`, `BUSY <- 1`, `upc <- 0` (R90). The reserved command has no
micro-operation, so `BUSY` stays 0 (R85). -/
def accept (i : Instr) (s : State) : Host.Outcome State Fault Refusal :=
  match latchOf i s.config.range with
  | .error r => .refused r
  | .ok .idle => .next s
  | .ok l => .next ((s.note l).latch l)

/-- Construction goes on to its next channel write, or completes (R202 steps 3 and 4). -/
def State.nextChannel (s : State) (left : List Int) : State :=
  match left with
  | k :: ks =>
    { s with seq := { s.seq with phase := .constructing ks } }.latch (.write (writeJob k s.config.range.minVal s.config.range))
  | [] => { s with seq := { s.seq.rest with phase := .constructed } }

/-- The command in flight has performed its last micro-operation (R31, R202). -/
def State.finishMicro (s : State) : State :=
  match s.seq.phase with
  | .constructing left => s.finish.nextChannel left
  | .powerOn => s.finish
  | .constructed => s.finish

/-- `upc <- upc + 1`, and the command completes when `upc` reaches the length of its list (R31). -/
def State.advanceUpc (s : State) : State :=
  if s.seq.upc.toNat + 1 < s.seq.cur.ops.length then { s with seq := { s.seq with upc := s.seq.upc + 1 } }
  else s.finishMicro

/-- The wait still to last when `WAIT us` is at hand: the timer, loaded at the start of the micro-operation (R33). -/
def Sequencer.waitLeft (q : Sequencer) (us : Nat) : Nat := if q.waitCnt = 0 then us else q.waitCnt

/-- One step of the sequencer with a command in flight, in which `elapsed` microseconds pass: a wait holds until its microseconds
have passed, every other micro-operation is performed at once (R31, R33, R121). An index outside the list, which no run
reaches, completes the command (`notes/assumptions/20.md`). -/
def State.stepMicro (s : State) (elapsed : Nat) : State :=
  match s.seq.cur.ops[s.seq.upc.toNat]? with
  | some (.wait us) =>
    if elapsed < s.seq.waitLeft us then { s with seq := { s.seq with waitCnt := s.seq.waitLeft us - elapsed } }
    else ({ s with seq := { s.seq with waitCnt := 0 } }.perform (.wait us)).advanceUpc
  | some (.set n v) => (s.perform (.set n v)).advanceUpc
  | some (.cache k q) => (s.perform (.cache k q)).advanceUpc
  | none => s.finishMicro

end Sys2Proof.Machine
end

