-- ==== Sys2Proof/Machine/Construction.lean ====
section
/-! DEFINITION. Construction, the block's one initialisation event (R200 to R204), at both levels of R10. -/

namespace Sys2Proof.Machine

/-- Steps 1 and 2: sample the Range, refuse it unless `minVal < maxVal`, and make all four lines outputs (R27, R202). -/
def beginConstruction (s : State) : Host.Outcome State Fault Refusal :=
  if s.cfgRange.Ok then .next { s with config := { range := s.cfgRange }, dir := 0b1111#4 } else .refused .badRange

/-- Step 3 at the command level: `writeChannel(k, minVal)` for every channel number of the order (R202). -/
def State.writeMinVal (s : State) (order : List Int) : State :=
  order.foldl (fun t k => t.runLatched (.write (writeJob k t.config.range.minVal t.config.range))) s

/-- The whole construction at the command level (R202). -/
def construct (order : List Int) (s : State) : Host.Outcome State Fault Refusal :=
  match beginConstruction s with
  | .next t =>
    let u := t.writeMinVal order
    .next { u with seq := { u.seq.rest with phase := .constructed } }
  | .fault r => .fault r
  | .refused r => .refused r

/-- The first micro-step of construction: steps 1 and 2, after which the first channel write is in flight; `BUSY` is 1 from
here to step 4 (R202). -/
def constructMicro (order : List Int) (s : State) : Host.Outcome State Fault Refusal :=
  match beginConstruction s with
  | .next t => .next (t.nextChannel order)
  | .fault r => .fault r
  | .refused r => .refused r

end Sys2Proof.Machine
end

