-- ==== Sys2Proof/Machine/Dispatch.lean ====
section
/-! DEFINITION. The dispatch: one arm for each constructor of `Instr`, one direct call of its meaning. -/

namespace Sys2Proof.Machine

open Sys2Proof (Instr)

/-- A command at the command level of R10: from a state, the state after its whole micro-operation list. -/
def exec (i : Instr) (s : State) : Host.Outcome State Fault Refusal :=
  match i with
  | .reserved => Sys2Proof.Machine.execReserved s
  | .clkl => Sys2Proof.Machine.execClkl s
  | .clkh => Sys2Proof.Machine.execClkh s
  | .datl => Sys2Proof.Machine.execDatl s
  | .dath => Sys2Proof.Machine.execDath s
  | .dats bit => Sys2Proof.Machine.execDats bit s
  | .cs1l => Sys2Proof.Machine.execCs1l s
  | .cs1h => Sys2Proof.Machine.execCs1h s
  | .cs2l => Sys2Proof.Machine.execCs2l s
  | .cs2h => Sys2Proof.Machine.execCs2h s
  | .start => Sys2Proof.Machine.execStart s
  | .wbit bit => Sys2Proof.Machine.execWbit bit s
  | .stop => Sys2Proof.Machine.execStop s
  | .wrch ch v => Sys2Proof.Machine.execWrch ch v s
  | .awr ch v => Sys2Proof.Machine.execAwr ch v s
  | .dwr ch d => Sys2Proof.Machine.execDwr ch d s

end Sys2Proof.Machine
end

