-- ==== Sys2Proof/Machine/Step.lean ====
section
/-! DEFINITION. One step of the machine, and where the next command stands. -/

namespace Sys2Proof.Machine

/-- A step of the block outside reset (R31, R90, R202, R213). -/
def stepOut (s : State) : Host.Outcome State Fault Refusal :=
  match s.seq.phase with
  | .powerOn =>
    match s.host.grain with
    | .command => construct Config.constants.initOrder s
    | .micro => constructMicro Config.constants.initOrder s
  | .constructing _ => .next (s.stepMicro s.host.input.elapsed)
  | .constructed =>
    if s.seq.busy then .next (s.stepMicro s.host.input.elapsed)
    else
      match s.accepted with
      | none => .next s
      | some w =>
        match s.host.grain with
        | .command => exec (decode w) s
        | .micro => accept (decode w) s

/-- One step: `rst` wins over everything (R175, R206); else construction, the command in flight, or the command offered; and the ports
show what the host shows next. At power-on the Range is what the configuration ports then show (R39). -/
def step (s : State) : Host.Outcome State Fault Refusal :=
  if s.host.input.rst then .next s.advanceHost.holdReset else advanceHostAfter (stepOut s)

/-- `s` with a command word offered to an idle, constructed block at the command level, so that the very next step runs it (R90).
A command word is one unit of 48 bits, so `nbits` bits with `w` and zeros above is the whole of it (R80). -/
def State.withFetchWord (s : State) (nbits w : Nat) : State :=
  { s with
    seq := { s.seq with phase := .constructed, busy := false }
    host :=
      { s.host with
        grain := .command
        input := { s.host.input with rst := false, cmdValid := true, cmd := BitVec.ofNat 48 (w % 2 ^ nbits) } } }

end Sys2Proof.Machine
end

