-- ==== Sys2Proof/Safety.lean ====
section
/-! DEFINITION. What counts as a safe run, in the terms claims use: the launch premises and host premises of R210 to R222, the frame
language of R212 written without the monitor, and the invariants of the block. -/

namespace Sys2Proof.Machine

open Sys2Proof (Instr Level Value Line Channel Range)

/-! ### Launch premises (R222) -/

/-- `Idle`: no command is in flight (R222). -/
abbrev State.Idle (s : State) : Prop := s.seq.busy = false

/-- `RangeOk` (R27, R222). -/
abbrev State.RangeOk (s : State) : Prop := s.config.range.Ok

/-- `NoFaultRecorded` (R212, R222). -/
abbrev State.NoFaultRecorded (s : State) : Prop := s.hist.protoViolation = false

/-- No host-composed frame is open: what a claim about a finished run also requires (vector H13 of `95_test_vectors.md`). -/
abbrev State.NoFrameOpen (s : State) : Prop := s.hist.monitor = .closed

/-- The command an open host-composed frame goes on with, these bits sent: `WBIT` until all are sent, then `STOP` (R210, R212). Every
other command, the reserved one among them, leaves the frame waiting or breaks it. -/
def frameGoesOn (bits : List Level) : Instr → Bool
  | .wbit _ => decide (bits.length < Config.constants.frameLen)
  | .stop => decide (bits.length = Config.constants.frameLen)
  | .reserved => false
  | .clkl => false
  | .clkh => false
  | .datl => false
  | .dath => false
  | .dats _ => false
  | .cs1l => false
  | .cs1h => false
  | .cs2l => false
  | .cs2h => false
  | .start => false
  | .wrch _ _ => false
  | .awr _ _ => false
  | .dwr _ _ => false

/-- `NoPreempt`, as a premise on one state: while a host-composed frame is open it is not reset, and as soon as the block is ready the
host offers the frame's next command, which is accepted in the coming step (R174, R210). -/
def State.NoPreempt (s : State) : Prop :=
  ∀ bits, s.hist.monitor = .opened bits →
    s.host.input.rst = false ∧ (s.ready = true → ∃ w, s.accepted = some w ∧ frameGoesOn bits (decode w) = true)

/-- `Constructed`: the state of R203, which construction in the order `INIT_ORDER` leaves, for any good Range (R39, R222). -/
structure State.Constructed (s : State) : Prop where
  phase : s.seq.phase = .constructed
  notBusy : s.seq.busy = false
  atStart : s.seq.upc = 0#8
  rangeOk : s.config.range.Ok
  lines : s.lines = .written (resolve (Config.constants.initOrder.getLastD 0))
  dir : s.dir = 0b1111#4
  cache : ∀ k, s.outCache.get k = some s.config.range.minVal
  trace : s.hist.trace = constructionEvents Config.constants.initOrder s.config.range
  time : s.hist.now = traceMicros (constructionEvents Config.constants.initOrder s.config.range)
  dacLog : s.hist.dacLog = constructionRecords Config.constants.initOrder s.config.range
  noMark : s.hist.protoViolation = false
  noFrame : s.hist.monitor = .closed

/-- A power-on state whose history starts here: construction has not begun and nothing has been performed (R39, first column). The
Range is the constructor's arguments. -/
structure State.AtPowerOn (s : State) : Prop where
  phase : s.seq.phase = .powerOn
  notBusy : s.seq.busy = false
  atStart : s.seq.upc = 0#8
  range : s.config.range = s.cfgRange
  unwritten : s.outCache = .unwritten
  noEvent : s.hist.trace = []
  noTime : s.hist.now = 0
  noRecord : s.hist.dacLog = []
  noFrame : s.hist.monitor = .closed

/-! ### The frame language of R212 -/

/-- A chip-select primitive, `CSW` (R212). -/
def isCsw : Instr → Bool
  | .reserved => false
  | .clkl => false
  | .clkh => false
  | .datl => false
  | .dath => false
  | .dats _ => false
  | .cs1l => true
  | .cs1h => true
  | .cs2l => true
  | .cs2h => true
  | .start => false
  | .wbit _ => false
  | .stop => false
  | .wrch _ _ => false
  | .awr _ _ => false
  | .dwr _ _ => false

/-- A frame command, `FRAMECMD` (R212). -/
def isFrameCmd : Instr → Bool
  | .reserved => false
  | .clkl => false
  | .clkh => false
  | .datl => false
  | .dath => false
  | .dats _ => false
  | .cs1l => false
  | .cs1h => false
  | .cs2l => false
  | .cs2h => false
  | .start => false
  | .wbit _ => false
  | .stop => false
  | .wrch _ _ => true
  | .awr _ _ => true
  | .dwr _ _ => true

/-- Words of whole frames and of the chip-select primitives between them. A host-composed frame has `FRAME_LEN` bits, and they
are those of a frame: R77 says that these are the patterns whose fixed bits are right (R212). -/
inductive WholeFrames : List Instr → Prop where
  | nil : WholeFrames []
  | csw (w : List Instr) (i : Instr) : WholeFrames w → isCsw i = true → WholeFrames (w ++ [i])
  | frameCmd (w : List Instr) (i : Instr) : WholeFrames w → isFrameCmd i = true → WholeFrames (w ++ [i])
  | composed (w : List Instr) (bits : List Level) : WholeFrames w → bits.length = Config.constants.frameLen →
      (∃ a code, frameOfBits bits = frame a code) → WholeFrames (w ++ [.start] ++ bits.map .wbit ++ [.stop])

/-- Words that are whole frames so far: whole frames, then possibly a start condition and at most `FRAME_LEN` bits (R212). -/
def WholeFramesSoFar (w : List Instr) : Prop :=
  WholeFrames w ∨ ∃ (done : List Instr) (bits : List Level),
    WholeFrames done ∧ bits.length ≤ Config.constants.frameLen ∧ w = done ++ [.start] ++ bits.map .wbit

/-- The accepted commands as R212 counts them: the reserved opcode does not affect the word. -/
def withoutReserved (w : List Instr) : List Instr := w.filter fun i => decide (i ≠ .reserved)

/-- Run a list of commands at the command level, one after another (R10, R59). A run of the block is `Run`. -/
def execAll : List Instr → State → Host.Outcome State Fault Refusal
  | [], s => .next s
  | i :: is, s =>
    match exec i s with
    | .next t => execAll is t
    | .fault r => .fault r
    | .refused r => .refused r

/-! ### What the trace says (R34 to R36) -/

/-- The level last written to a line, if any write is in the trace. -/
def lastLevel (n : Line) : List Event → Option Level
  | [] => none
  | .set m v :: es => (lastLevel n es).orElse fun _ => if m = n then some v else none
  | .wait _ :: es => lastLevel n es
  | .cache _ _ :: es => lastLevel n es

/-- The value last written to a cache slot, if any write is in the trace. -/
def lastCached (k : Channel) : List Event → Option Value
  | [] => none
  | .cache j q :: es => (lastCached k es).orElse fun _ => if j = k then some q else none
  | .set _ _ :: es => lastCached k es
  | .wait _ :: es => lastCached k es

/-! ### Premises on two states of a run, one after the other -/

/-- `SoleDriver`: nothing but this block drives the lines; every line stands where the block's own events between the two states left
it (R214, R222). -/
def SoleDriver (s t : State) : Prop :=
  ∃ es, t.hist.trace = s.hist.trace ++ es ∧ ∀ n, t.lines.get n = (lastLevel n es).getD (s.lines.get n)

/-- `FixedRange`: the Range does not change (R216, R222). -/
abbrev FixedRange (s t : State) : Prop := t.config.range = s.config.range

/-! ### Runs (R220) -/

/-- A run, from power-on, by steps of the machine with `rst` released: the start, the commands accepted so far, in order, and the state
reached. A command is accepted in a step with `ready = 1` (R90), so only after construction (R220). -/
inductive Run : State → List Instr → State → Prop where
  | powerOn (s : State) : s.AtPowerOn → Run s [] s
  | step (s t u : State) (is : List Instr) : Run s is t → t.host.input.rst = false → step t = .next u →
      Run s (is ++ (t.accepted.map decode).toList) u

/-- THE END OF A RUN: construction and the last command have completed and `BUSY` is 0; no other state is final (R220). -/
structure EndOfRun (s : State) (is : List Instr) (t : State) : Prop where
  run : Run s is t
  constructed : t.seq.phase = .constructed
  idle : t.Idle

/-- What is observed at the end of a run: the final registers, `trace`, `dacLog` and `protoViolation` (R220). -/
structure Observation where
  lines : Lines
  dir : BitVec 4
  range : Range
  outCache : OutCache
  trace : List Event
  dacLog : List DacRecord
  protoViolation : Bool
deriving DecidableEq, Repr

/-- The observation of a state. -/
def State.observation (s : State) : Observation :=
  { lines := s.lines, dir := s.dir, range := s.config.range, outCache := s.outCache
    trace := s.hist.trace, dacLog := s.hist.dacLog, protoViolation := s.hist.protoViolation }

/-! ### Counts of R218 -/

/-- The micro-operations of a channel write: two chip-select writes, the start condition, five for each bit of the frame, the stop
condition, the cache write (R147, R218). -/
def writeMicroCount : Nat := 2 + 3 + 5 * Config.constants.frameLen + 4 + 1

/-- The line writes of a channel write: two chip-selects, two in the start condition, three for each bit, two in the stop condition
(R147, R218). -/
def writeLineWriteCount : Nat := 2 + 2 + 3 * Config.constants.frameLen + 2

/-- The waits of a channel write: one in the start condition, two for each bit, two in the stop condition (R147, R218). -/
def writeWaitCount : Nat := 1 + 2 * Config.constants.frameLen + 2

/-- How many micro-operations a command has (R218). -/
def microCount : Instr → Nat
  | .reserved => 0
  | .clkl => 1
  | .clkh => 1
  | .datl => 1
  | .dath => 1
  | .dats _ => 1
  | .cs1l => 1
  | .cs1h => 1
  | .cs2l => 1
  | .cs2h => 1
  | .start => 3
  | .wbit _ => 5
  | .stop => 4
  | .wrch _ _ => writeMicroCount
  | .awr _ _ => writeMicroCount
  | .dwr _ _ => writeMicroCount

/-- How many line writes a command performs (R218). -/
def lineWriteCount : Instr → Nat
  | .reserved => 0
  | .clkl => 1
  | .clkh => 1
  | .datl => 1
  | .dath => 1
  | .dats _ => 1
  | .cs1l => 1
  | .cs1h => 1
  | .cs2l => 1
  | .cs2h => 1
  | .start => 2
  | .wbit _ => 3
  | .stop => 2
  | .wrch _ _ => writeLineWriteCount
  | .awr _ _ => writeLineWriteCount
  | .dwr _ _ => writeLineWriteCount

/-- How many waits a command performs (R218). -/
def waitCount : Instr → Nat
  | .reserved => 0
  | .clkl => 0
  | .clkh => 0
  | .datl => 0
  | .dath => 0
  | .dats _ => 0
  | .cs1l => 0
  | .cs1h => 0
  | .cs2l => 0
  | .cs2h => 0
  | .start => 1
  | .wbit _ => 2
  | .stop => 2
  | .wrch _ _ => writeWaitCount
  | .awr _ _ => writeWaitCount
  | .dwr _ _ => writeWaitCount

/-- The event is a line write. -/
def Event.isSet : Event → Bool
  | .set _ _ => true
  | .wait _ => false
  | .cache _ _ => false

/-- The event is a write of the line. -/
def Event.isSetOf (n : Line) : Event → Bool
  | .set m _ => decide (m = n)
  | .wait _ => false
  | .cache _ _ => false

/-- The event is a wait. -/
def Event.isWait : Event → Bool
  | .set _ _ => false
  | .wait _ => true
  | .cache _ _ => false

/-! ### Shapes of claims about commands -/

/-- A command that writes only lines and performs waits: from EVERY state it answers a next state, with these line registers, exactly
these events appended and `now` advanced by this much, with nothing in flight, and with every other register as it was.
The marks of the protocol monitor are claimed apart. -/
def RunsAs (i : Instr) (lines : Lines → Lines) (events : List Event) (micros : Nat) : Prop :=
  ∀ s : State, ∃ t : State,
    exec i s = .next t ∧
    t.lines = lines s.lines ∧
    t.hist.trace = s.hist.trace ++ events ∧
    t.hist.now = s.hist.now + micros ∧
    t.seq.busy = false ∧ t.seq.upc = 0#8 ∧ t.seq.phase = s.seq.phase ∧
    t.dir = s.dir ∧ t.config.range = s.config.range ∧ t.outCache = s.outCache ∧ t.hist.dacLog = s.hist.dacLog ∧ t.host = s.host

/-- The line write a signal-line primitive stands for, if the command is one (R101 to R109). -/
def primitiveWrite : Instr → Option (Line × Level)
  | .reserved => none
  | .clkl => some (.clock, false)
  | .clkh => some (.clock, true)
  | .datl => some (.data, false)
  | .dath => some (.data, true)
  | .dats bit => some (.data, bit)
  | .cs1l => some (.cs1, false)
  | .cs1h => some (.cs1, true)
  | .cs2l => some (.cs2, false)
  | .cs2h => some (.cs2, true)
  | .start => none
  | .wbit _ => none
  | .stop => none
  | .wrch _ _ => none
  | .awr _ _ => none
  | .dwr _ _ => none

/-- The level last written to a line by a list of primitives, or the level it had. -/
def lastPrimitive (n : Line) (was : Level) : List Instr → Level
  | [] => was
  | i :: is =>
    match primitiveWrite i with
    | some (m, v) => lastPrimitive n (if m = n then v else was) is
    | none => lastPrimitive n was is

/-- Two states agree on everything but the host's side. -/
def SameBlock (s t : State) : Prop :=
  s.lines = t.lines ∧ s.dir = t.dir ∧ s.config.range = t.config.range ∧ s.outCache = t.outCache ∧ s.seq = t.seq ∧ s.hist = t.hist

/-! ### The command in flight -/

/-- What is still to be performed of the command in flight (R30). -/
def State.remaining (s : State) : List MicroOp := s.seq.cur.ops.drop s.seq.upc.toNat

/-- The state in which the command in flight will have completed: the rest of its list, then its records (R10, R31). -/
def State.completed (s : State) : State := (s.performAll s.remaining).finish

/-! ### Invariants -/

/-- The sequencer at every step: with no command in flight the index is 0 and nothing is latched; with one in flight the index is
inside its list, and the wait timer runs only on a wait (R29 to R33, R39). -/
structure State.SequencerOk (s : State) : Prop where
  idle : s.seq.busy = false → s.seq.upc = 0#8 ∧ s.seq.cur = .idle ∧ s.seq.waitCnt = 0
  inFlight : s.seq.busy = true → s.seq.upc.toNat < s.seq.cur.ops.length
  listFits : s.seq.cur.ops.length ≤ writeMicroCount
  waiting : s.seq.waitCnt ≠ 0 → s.seq.waitCnt ≤ Config.constants.delayUs ∧ s.seq.cur.ops[s.seq.upc.toNat]? = some waitOp
  powerOn : s.seq.phase = .powerOn → s.seq.busy = false
  constructing : ∀ left, s.seq.phase = .constructing left → s.seq.busy = true ∧ ∃ j, s.seq.cur = .write j

/-- A value lies in the Range (R24). -/
abbrev InRange (r : Range) (q : Value) : Prop := r.minVal ≤ q ∧ q ≤ r.maxVal

/-- The Range, `DIR` and the cache at every step: at power-on the Range is the constructor's arguments on the ports; once construction
has begun the Range is good and all lines are outputs, a channel write in flight holds a value in the Range, and every slot holds
a value in the Range or is the slot of a channel write of construction that is in flight or still to come (R23, R24, R27, R39,
R202). -/
structure State.CacheOk (s : State) : Prop where
  range : s.seq.phase ≠ .powerOn → s.config.range.Ok ∧ s.dir = 0b1111#4
  inFlight : ∀ j, s.seq.cur = .write j → InRange s.config.range j.value
  slots : s.seq.phase = .constructed → ∀ k, ∃ q, s.outCache.get k = some q ∧ InRange s.config.range q
  slotsSoFar : ∀ left, s.seq.phase = .constructing left → ∀ k,
    (∃ q, s.outCache.get k = some q ∧ InRange s.config.range q) ∨ (∃ j, s.seq.cur = .write j ∧ j.slot = k) ∨ k ∈ left.map resolve
  atPowerOn : s.seq.phase = .powerOn → s.config.range = s.cfgRange

/-- The trace explains the block: every line that the trace writes holds the level written last, the cache holds exactly the values
the trace wrote last, and `now` is the time of the waits (R34, R35, R36). -/
structure State.TraceOk (s : State) : Prop where
  lines : ∀ n v, lastLevel n s.hist.trace = some v → s.lines.get n = v
  cache : ∀ k, s.outCache.get k = lastCached k s.hist.trace
  time : s.hist.now = traceMicros s.hist.trace

/-- A record of the frame log says which channel was written and with which code: its levels and frame are those of a channel
write (R57, R77, R154). -/
def DacRecord.Genuine (d : DacRecord) : Prop :=
  ∃ (k : Channel) (code : Code), (d.cs1, d.cs2) = Config.constants.csLevel k ∧ d.frame = Machine.frame (Config.constants.addr k) code

/-- Every record of the frame log, and the one a channel write in flight will leave, is genuine. -/
structure State.DacLogOk (s : State) : Prop where
  log : ∀ d ∈ s.hist.dacLog, d.Genuine
  inFlight : ∀ j, s.seq.cur = .write j → j.record.Genuine

/-- The mark `protoViolation` is set wherever the monitor says the commands are no longer whole frames, and an open frame never has
more than `FRAME_LEN` bits (R37, R212). -/
structure State.MonitorOk (s : State) : Prop where
  marked : s.hist.monitor = .broken → s.hist.protoViolation = true
  short : ∀ bits, s.hist.monitor = .opened bits → bits.length ≤ Config.constants.frameLen

/-- The invariant of the block. -/
structure State.Inv (s : State) : Prop where
  sequencer : s.SequencerOk
  cache : s.CacheOk
  trace : s.TraceOk
  dacLog : s.DacLogOk
  monitor : s.MonitorOk

end Sys2Proof.Machine
end

