-- ==== Sys2Proof/Certificates/Slice0/Obligations.lean ====
section
/-! DEFINITION. The statements for the provers, one definition each. Every docstring names the rule of `spec/` it formalises. -/

open Sys2Proof Sys2Proof.Machine

/-! ### The step and the encodings -/

/-- R90, R10: when the block is ready and a command word is offered, a step at the command level is `exec` of the decoded command,
and then the ports show what the host shows next. `withFetchWord` offers exactly the word given. -/
def Obligations.StepRunsTheAcceptedCommand : Prop :=
  (∀ s : State, s.seq.phase = .constructed → s.seq.busy = false → s.host.input.rst = false → s.host.input.cmdValid = true →
    s.host.grain = .command →
    (∀ t, exec (decode s.host.input.cmd) s = .next t → step s = .next { t with host := t.host.advance }) ∧
    (∀ r, exec (decode s.host.input.cmd) s = .refused r → step s = .refused r)) ∧
  (∀ (s : State) (w : CmdWord),
    (∀ t, exec (decode w) (s.withFetchWord 48 w.toNat) = .next t →
      step (s.withFetchWord 48 w.toNat) = .next { t with host := t.host.advance }))

/-- R80 to R83: decoding the word of a well-formed command gives the command back, with every operand at every value the word
can carry. -/
def Obligations.DecodeOfEncode : Prop :=
  ∀ i : Instr, i.WellFormed → decode (encode i) = i

/-- R80 to R84: every command word decodes to a well-formed command of its own opcode, and encoding that command gives the word
back with exactly the fields the operation does not read cleared. -/
def Obligations.EncodeOfDecodeClearsIgnoredFields : Prop :=
  ∀ w : CmdWord, (decode w).WellFormed ∧ (decode w).op = w.op ∧ encode (decode w) = w &&& usedBits w.op

/-- R84: two command words that differ only in ignored fields are the same command. Format Z reads `op`; format B also bit 40;
format CV `op`, bits 39:32 and bits 31:0. -/
def Obligations.IgnoredFieldsHaveNoEffect : Prop :=
  ∀ w w' : CmdWord, w.extractLsb' 44 4 = w'.extractLsb' 44 4 →
    (w.extractLsb' 44 4 = 0x5#4 ∨ w.extractLsb' 44 4 = 0xB#4 → w.getLsbD 40 = w'.getLsbD 40) →
    (0xD#4 ≤ w.extractLsb' 44 4 → w.extractLsb' 32 8 = w'.extractLsb' 32 8 ∧ w.extractLsb' 0 32 = w'.extractLsb' 0 32) →
    decode w = decode w'

/-- `95_test_vectors.md` 2.1 and 2.7: words written out from the layout of R80 decode to the commands they stand for. -/
def Obligations.WordsOfTheSpecDecode : Prop :=
  decodeTableWord 48 0x1F55DEADBEEF = some .clkl ∧
  decodeTableWord 48 0x510000000000 = some (.dats true) ∧
  decodeTableWord 48 0x700000000000 = some .cs1h ∧
  decodeTableWord 48 0xB10000000000 = some (.wbit true) ∧
  decodeTableWord 48 0xC00000000000 = some .stop ∧
  decodeTableWord 48 0xD0FFFFF70000 = some (.wrch (-1) (-9)) ∧
  decodeTableWord 48 0xDB020000C000 = some (.wrch 2 (3 / 4)) ∧
  decodeTableWord 48 0xE00700028000 = some (.awr 7 (5 / 2)) ∧
  decodeTableWord 48 0xF00180000000 = some (.dwr 1 (-2147483648)) ∧
  decodeTableWord 48 0x010300010000 = some .reserved

/-! ### The reserved command and the signal-line primitives -/

/-- R85: `op = 0x0` is the only reserved encoding; it is accepted and does nothing, from every state, at both levels of
description: every part of the state, `BUSY` among it, is as before. -/
def Obligations.ReservedDoesNothing : Prop :=
  (∀ w : CmdWord, decode w = .reserved ↔ w.extractLsb' 44 4 = 0x0#4) ∧
  ∀ s : State, exec .reserved s = .next s ∧ accept .reserved s = .next s

/-- R101, R102: the clock primitives write the clock line and append one event, whatever the line held; nothing else changes. -/
def Obligations.ClockPrimitivesWriteTheClockLine : Prop :=
  decode 0x100000000000#48 = .clkl ∧ decode 0x200000000000#48 = .clkh ∧
  RunsAs .clkl (fun l => { l with clock := false }) [.set .clock false] 0 ∧
  RunsAs .clkh (fun l => { l with clock := true }) [.set .clock true] 0

/-- R103, R104, R105: the data primitives write the data line and append one event; nothing else changes; and `dataSet` is
`dataHigh` or `dataLow` by its bit. -/
def Obligations.DataPrimitivesWriteTheDataLine : Prop :=
  decode 0x300000000000#48 = .datl ∧ decode 0x400000000000#48 = .dath ∧
  decode 0x500000000000#48 = .dats false ∧ decode 0x510000000000#48 = .dats true ∧
  RunsAs .datl (fun l => { l with data := false }) [.set .data false] 0 ∧
  RunsAs .dath (fun l => { l with data := true }) [.set .data true] 0 ∧
  ∀ b : Level, RunsAs (.dats b) (fun l => { l with data := b }) [.set .data b] 0 ∧
    ∀ s : State, exec (.dats b) s = exec (if b then .dath else .datl) s

/-- R106 to R109: the chip-select primitives write their line and append one event; nothing else changes. -/
def Obligations.ChipSelectPrimitivesWriteTheirLine : Prop :=
  decode 0x600000000000#48 = .cs1l ∧ decode 0x700000000000#48 = .cs1h ∧
  decode 0x800000000000#48 = .cs2l ∧ decode 0x900000000000#48 = .cs2h ∧
  RunsAs .cs1l (fun l => { l with cs1 := false }) [.set .cs1 false] 0 ∧
  RunsAs .cs1h (fun l => { l with cs1 := true }) [.set .cs1 true] 0 ∧
  RunsAs .cs2l (fun l => { l with cs2 := false }) [.set .cs2 false] 0 ∧
  RunsAs .cs2h (fun l => { l with cs2 := true }) [.set .cs2 true] 0

/-- R110: after any list of primitives each line holds the level of the last primitive that named it, and a line no primitive named
holds what it held before; the trace gets one event for each primitive. -/
def Obligations.LastPrimitiveWins : Prop :=
  ∀ (is : List Instr) (s : State), (∀ i ∈ is, primitiveWrite i ≠ none) →
    ∃ t, execAll is s = .next t ∧ (∀ n, t.lines.get n = lastPrimitive n (s.lines.get n) is) ∧
      t.hist.trace.length = s.hist.trace.length + is.length

/-- R110: two primitives on different lines leave the same registers in either order, and a primitive performed twice leaves the
registers of one, with two events. -/
def Obligations.PrimitivesAreIndependentAndIdempotent : Prop :=
  ∀ (i j : Instr) (m n : Line) (v w : Level) (s : State),
    primitiveWrite i = some (m, v) → primitiveWrite j = some (n, w) →
    (∃ t, execAll [i, i] s = .next t ∧ t.hist.trace = s.hist.trace ++ [.set m v, .set m v] ∧
      ∀ u, exec i s = .next u → t.lines = u.lines ∧ t.outCache = u.outCache ∧ t.dir = u.dir ∧ t.config.range = u.config.range) ∧
    (m ≠ n → ∃ t u, execAll [i, j] s = .next t ∧ execAll [j, i] s = .next u ∧
      t.lines = u.lines ∧ t.outCache = u.outCache ∧ t.dir = u.dir ∧ t.config.range = u.config.range ∧
      t.hist.trace = s.hist.trace ++ [.set m v, .set n w] ∧ u.hist.trace = s.hist.trace ++ [.set n w, .set m v])

/-- R22: in the default layout `CS2`, `CS1`, `DATA`, `CLOCK` are bits 3 to 0 of `OUT`, and a primitive changes exactly its own bit and
leaves the other three as they were. -/
def Obligations.PrimitivesChangeOneBitOfOut : Prop :=
  (∀ l : Lines, l.out = BitVec.ofBool l.cs2 ++ BitVec.ofBool l.cs1 ++ BitVec.ofBool l.data ++ BitVec.ofBool l.clock) ∧
  ∀ (i : Instr) (n : Line) (v : Level) (s t : State), primitiveWrite i = some (n, v) → exec i s = .next t →
    ∀ k : Fin 4, t.lines.out.getLsbD k = if k = Config.constants.wiring n then v else s.lines.out.getLsbD k

/-! ### The bit-level transmitter -/

/-- R122: `startCondition` is data low, wait, clock low, from any start state; the chip-selects are not touched. -/
def Obligations.StartConditionRuns : Prop :=
  decode 0xA00000000000#48 = .start ∧ Latch.start.ops = [.set .data false, .wait 5, .set .clock false] ∧
  RunsAs .start (fun l => { l with clock := false, data := false }) [.set .data false, .wait 5, .set .clock false] 5

/-- R123: `writeBit` sets data to the bit and pulses the clock, from any start state. -/
def Obligations.WriteBitRuns : Prop :=
  decode 0xB00000000000#48 = .wbit false ∧ decode 0xB10000000000#48 = .wbit true ∧
  ∀ b : Level, (Latch.bit b).ops = [.set .data b, .wait 5, .set .clock true, .wait 5, .set .clock false] ∧
    RunsAs (.wbit b) (fun l => { l with clock := false, data := b })
      [.set .data b, .wait 5, .set .clock true, .wait 5, .set .clock false] 10

/-- R124: `stopCondition` is clock high, wait, data high, wait, from any start state; it does not first drive the data line low. -/
def Obligations.StopConditionRuns : Prop :=
  decode 0xC00000000000#48 = .stop ∧ Latch.stop.ops = [.set .clock true, .wait 5, .set .data true, .wait 5] ∧
  RunsAs .stop (fun l => { l with clock := true, data := true }) [.set .clock true, .wait 5, .set .data true, .wait 5] 10

/-! ### Clamp, scale, resolve, frame -/

/-- R141: the clamp, and that its result lies in the Range. -/
def Obligations.ClampIntoTheRange : Prop :=
  ∀ (v : Value) (r : Range), r.Ok →
    (v < r.minVal → clamp v r = r.minVal) ∧ (r.maxVal < v → clamp v r = r.maxVal) ∧
    (r.minVal ≤ v → v ≤ r.maxVal → clamp v r = v) ∧ r.minVal ≤ clamp v r ∧ clamp v r ≤ r.maxVal

/-- R142, with its worked value: the code is the greatest integer not above `4095 * (c - minVal) / (maxVal - minVal)`, lies in `[0, 4095]`, and is what the
twelve bits of the frame hold. -/
def Obligations.CodeIsTheFloorAndFits : Prop :=
  codeOf (1 / 2) { minVal := 0, maxVal := 1 } = 2047 ∧
  ∀ (v : Value) (r : Range), r.Ok →
    (codeOf v r : Rat) ≤ 4095 * (clamp v r - r.minVal) / (r.maxVal - r.minVal) ∧
    4095 * (clamp v r - r.minVal) / (r.maxVal - r.minVal) < (codeOf v r : Rat) + 1 ∧
    0 ≤ codeOf v r ∧ codeOf v r ≤ 4095 ∧ ((codeBitsOf v r).toNat : Int) = codeOf v r

/-- R143: on Q16.16 words the integer computation, division rounding down, gives exactly the code of the rational rule, and its
numerator stays below `2 ^ 44`, its divisor below `2 ^ 32`. -/
def Obligations.IntegerScaleIsExact : Prop :=
  ∀ v lo hi : NumWord, lo.toInt < hi.toInt →
    codeOfWords v lo hi = codeOf (q16 v) (q16Range lo hi) ∧ hi.toInt - lo.toInt ≤ 2 ^ 32 - 1 ∧
    ∀ c : Int, lo.toInt ≤ c → c ≤ hi.toInt → 0 ≤ 4095 * (c - lo.toInt) ∧ 4095 * (c - lo.toInt) < 2 ^ 44

/-- R152: the value intervals of each code. -/
def Obligations.CodeIntervals : Prop :=
  ∀ (v : Value) (r : Range), r.Ok →
    (v < r.minVal + (r.maxVal - r.minVal) / 4095 → codeOf v r = 0) ∧
    (codeOf v r = 4095 ↔ r.maxVal ≤ v) ∧
    ∀ k : Nat, 1 ≤ k → k ≤ 4094 →
      (codeOf v r = k ↔ r.minVal + (k : Rat) * (r.maxVal - r.minVal) / 4095 ≤ v ∧
        v < r.minVal + ((k : Rat) + 1) * (r.maxVal - r.minVal) / 4095)

/-- R152: the code is monotone in the value, and shifting or scaling value and Range together leaves it unchanged. -/
def Obligations.CodeIsMonotoneAndInvariant : Prop :=
  ∀ r : Range, r.Ok →
    (∀ v w : Value, v ≤ w → codeOf v r ≤ codeOf w r) ∧
    (∀ v d : Value, codeOf (v + d) { minVal := r.minVal + d, maxVal := r.maxVal + d } = codeOf v r) ∧
    (∀ v a : Value, 0 < a → codeOf (a * v) { minVal := a * r.minVal, maxVal := a * r.maxVal } = codeOf v r)

/-- R56, R144: the map from channel number to slot, sub-address bit and chip-select levels, total on the integers. -/
def Obligations.ChannelMapIsTotal : Prop :=
  ∀ (ch : Int) (v : Value) (r : Range),
    let j := writeJob ch v r
    (ch = 3 → j.slot = .ch3 ∧ frameAddr j.frame = false ∧ j.cs1 = true ∧ j.cs2 = true) ∧
    (ch = 2 → j.slot = .ch2 ∧ frameAddr j.frame = true ∧ j.cs1 = false ∧ j.cs2 = true) ∧
    (ch ≠ 2 → ch ≠ 3 → j.slot = .ch1 ∧ frameAddr j.frame = true ∧ j.cs1 = true ∧ j.cs2 = false)

/-- R70, R71: the 27 bits of a frame in sending order. -/
def Obligations.FrameFieldsInSendingOrder : Prop :=
  ∀ (a : Level) (code : Code), frameBits (frame a code) =
    [true, true, false, false, false, false, a, false, true, false, false, false, false,
     code.getLsbD 11, code.getLsbD 10, code.getLsbD 9, code.getLsbD 8, true,
     code.getLsbD 7, code.getLsbD 6, code.getLsbD 5, code.getLsbD 4, code.getLsbD 3, code.getLsbD 2, code.getLsbD 1, code.getLsbD 0,
     true]

/-- R76: the frame as a number. -/
def Obligations.FrameAsNumber : Prop :=
  ∀ (a : Level) (code : Code),
    (frame a code).toNat = 0x6040201 + a.toNat * 0x100000 + code.toNat / 256 * 0x400 + code.toNat % 256 * 2

/-- R77: the model's check of the fixed bits is the mask check R77 prints; a frame gives back its sub-address bit and code, and the 27-bit patterns that pass the mask check are exactly the frames. -/
def Obligations.FramesAreRecovered : Prop :=
  (∀ (a : Level) (code : Code), (frame a code).getLsbD 20 = a ∧
    (frame a code).extractLsb' 10 4 ++ (frame a code).extractLsb' 1 8 = code) ∧
  (∀ f : Frame, f &&& 0x7EFC201#27 = 0x6040201#27 ↔ ∃ a code, f = frame a code) ∧
  ∀ f : Frame, frameFixedOk f = decide (f &&& 0x7EFC201#27 = 0x6040201#27)

/-! ### The DAC channel encoder -/

/-- R141 to R148: `writeChannel` from every state with a good Range and for every channel number and value: the clamped value, the
code, the resolved channel and the frame by the spec's formulas; the end state, every event in order, the record, the slot, and
what does not change. At acceptance all of it is latched and `BUSY` becomes 1. -/
def Obligations.WriteChannelRuns : Prop :=
  decode 0xD00100008000#48 = .wrch 1 (1 / 2) ∧
  ∀ (s : State) (ch : Int) (v : Value), s.config.range.Ok →
    ∃ (t u : State) (c : Value) (code : Nat) (k : Channel) (cs1 cs2 : Level) (f : Frame),
      (c = if v < s.config.range.minVal then s.config.range.minVal else if s.config.range.maxVal < v then s.config.range.maxVal else v) ∧
      (code : Int) = ⌊4095 * (c - s.config.range.minVal) / (s.config.range.maxVal - s.config.range.minVal)⌋ ∧ code ≤ 4095 ∧
      ((k, cs1, cs2) = if ch = 3 then (Channel.ch3, true, true) else if ch = 2 then (Channel.ch2, false, true)
        else (Channel.ch1, true, false)) ∧
      f.toNat = 0x6040201 + (if ch = 3 then 0 else 0x100000) + code / 256 * 0x400 + code % 256 * 2 ∧
      exec (.wrch ch v) s = .next t ∧
      t.lines = { clock := true, data := true, cs1 := cs1, cs2 := cs2 } ∧
      t.outCache.get k = some c ∧ (∀ k', k' ≠ k → t.outCache.get k' = s.outCache.get k') ∧
      t.hist.trace = s.hist.trace
        ++ [.set .cs1 cs1, .set .cs2 cs2, .set .data false, .wait 5, .set .clock false]
        ++ (List.range 27).flatMap (fun i =>
            [.set .data (f.getLsbD (26 - i)), .wait 5, .set .clock true, .wait 5, .set .clock false])
        ++ [.set .clock true, .wait 5, .set .data true, .wait 5, .cache k c] ∧
      t.hist.now = s.hist.now + 285 ∧
      t.hist.dacLog = s.hist.dacLog ++ [{ cs1 := cs1, cs2 := cs2, frame := f }] ∧
      t.seq.busy = false ∧ t.seq.upc = 0#8 ∧ t.seq.phase = s.seq.phase ∧ t.dir = s.dir ∧ t.config.range = s.config.range ∧ t.host = s.host ∧
      accept (.wrch ch v) s = .next u ∧ u.seq.busy = true ∧ u.seq.upc = 0#8 ∧
      u.seq.cur = .write { slot := k, cs1 := cs1, cs2 := cs2, frame := f, value := c } ∧ u.lines = s.lines

/-- R150: `analogWrite` does exactly what `writeChannel` does, and completes from every state with a good Range, with a cached value
in the Range. -/
def Obligations.AnalogWriteDelegates : Prop :=
  decode 0xE00300010000#48 = .awr 3 1 ∧
  ∀ (s : State) (ch : Int) (v : Value),
    exec (.awr ch v) s = exec (.wrch ch v) s ∧
    (s.config.range.Ok → ∃ t q, exec (.awr ch v) s = .next t ∧ t.outCache.get (resolve ch) = some q ∧ InRange s.config.range q)

/-- R151: `digitalWrite` completes from every state with a good Range: non-zero does what `analogWrite` of `maxVal` does, sends code
4095 and caches `maxVal`; zero does what `analogWrite` of `minVal` does, sends code 0 and caches `minVal`. -/
def Obligations.DigitalWriteDelegates : Prop :=
  decode 0xF00200000001#48 = .dwr 2 1 ∧
  ∀ (s : State) (ch d : Int), s.config.range.Ok →
    ∃ t, exec (.dwr ch d) s = .next t ∧
      (d ≠ 0 → exec (.awr ch s.config.range.maxVal) s = .next t ∧ t.outCache.get (resolve ch) = some s.config.range.maxVal ∧
        ∃ rec, t.hist.dacLog = s.hist.dacLog ++ [rec] ∧ frameCode rec.frame = 4095#12) ∧
      (d = 0 → exec (.awr ch s.config.range.minVal) s = .next t ∧ t.outCache.get (resolve ch) = some s.config.range.minVal ∧
        ∃ rec, t.hist.dacLog = s.hist.dacLog ++ [rec] ∧ frameCode rec.frame = 0#12)

/-- R147: the micro-operation list of a channel write, index by index, and its counts. -/
def Obligations.WriteChannelMicroOperations : Prop :=
  ∀ j : WriteJob,
    let ops := (Latch.write j).ops
    ops.length = 145 ∧
    ops[0]? = some (.set .cs1 j.cs1) ∧ ops[1]? = some (.set .cs2 j.cs2) ∧
    ops[2]? = some (.set .data false) ∧ ops[3]? = some (.wait 5) ∧ ops[4]? = some (.set .clock false) ∧
    (∀ k, k < 27 → ops[5 + 5 * k]? = some (.set .data (j.frame.getLsbD (26 - k))) ∧ ops[6 + 5 * k]? = some (.wait 5) ∧
      ops[7 + 5 * k]? = some (.set .clock true) ∧ ops[8 + 5 * k]? = some (.wait 5) ∧ ops[9 + 5 * k]? = some (.set .clock false)) ∧
    ops[140]? = some (.set .clock true) ∧ ops[141]? = some (.wait 5) ∧ ops[142]? = some (.set .data true) ∧
    ops[143]? = some (.wait 5) ∧ ops[144]? = some (.cache j.slot j.value) ∧
    (Latch.write j).events.countP Event.isSet = 87 ∧ (Latch.write j).events.countP Event.isWait = 57 ∧
    (Latch.write j).events.countP (Event.isSetOf .cs1) = 1 ∧ (Latch.write j).events.countP (Event.isSetOf .cs2) = 1 ∧
    (Latch.write j).events.countP (Event.isSetOf .data) = 29 ∧ (Latch.write j).events.countP (Event.isSetOf .clock) = 56 ∧
    traceMicros (Latch.write j).events = 285

/-- R126, R215: the lines of a channel write from any state, after each number of its micro-operations. In the start condition data falls
with the clock as it was (high, where the write begins with the clock high), and the clock falls a wait later. Each bit is put on
the data line while the clock is low, and data holds it, with the clock high, when the wait that follows the rising edge begins and
ends. In the stop condition the clock rises with data still the last bit, and data goes high a wait later. Data changes at no other
place, and the chip-selects do not change from the start condition on. -/
def Obligations.DataIsStableWhileTheClockIsHigh : Prop :=
  ∀ (s : State) (j : WriteJob),
    let at' (n : Nat) := (s.performAll ((Latch.write j).ops.take n)).lines
    ((at' 2).clock = s.lines.clock ∧ (at' 2).data = s.lines.data ∧
      (at' 3).clock = s.lines.clock ∧ (at' 3).data = false ∧ (at' 4).clock = s.lines.clock ∧ (at' 4).data = false ∧
      (at' 5).clock = false ∧ (at' 5).data = false) ∧
    (∀ k : Nat, k < 27 →
      (at' (5 + 5 * k)).clock = false ∧
      (at' (6 + 5 * k)).clock = false ∧ (at' (6 + 5 * k)).data = j.frame.getLsbD (26 - k) ∧
      (at' (7 + 5 * k)).clock = false ∧ (at' (7 + 5 * k)).data = j.frame.getLsbD (26 - k) ∧
      (at' (8 + 5 * k)).clock = true ∧ (at' (8 + 5 * k)).data = j.frame.getLsbD (26 - k) ∧
      (at' (9 + 5 * k)).clock = true ∧ (at' (9 + 5 * k)).data = j.frame.getLsbD (26 - k) ∧
      (at' (10 + 5 * k)).clock = false ∧ (at' (10 + 5 * k)).data = j.frame.getLsbD (26 - k)) ∧
    ((at' 140).clock = false ∧ (at' 140).data = j.frame.getLsbD 0 ∧
      (at' 141).clock = true ∧ (at' 141).data = j.frame.getLsbD 0 ∧ (at' 142).clock = true ∧ (at' 142).data = j.frame.getLsbD 0 ∧
      (at' 143).clock = true ∧ (at' 143).data = true ∧ (at' 144).clock = true ∧ (at' 144).data = true) ∧
    (∀ n : Nat, n < 145 → (at' (n + 1)).data ≠ (at' n).data → (at' n).clock = false ∨ n = 2 ∨ n = 142) ∧
    ∀ n : Nat, 2 ≤ n → n ≤ 145 → (at' n).cs1 = j.cs1 ∧ (at' n).cs2 = j.cs2

/-- R89, program P2: a frame the host composes from chip-select primitives, `START`, 27 `WBIT` and `STOP` drives the lines through
exactly the events of the channel write, but for the cache; no record is logged, no cache slot changes, no mark is set. And R174, R210: where
the host keeps `NoPreempt`, the ready block with such a frame open goes on with it in the very next step: the next bit, or the stop
condition after the last. -/
def Obligations.HostComposedFrameEqualsWriteChannel : Prop :=
  (∀ (s : State) (bits : List Level), s.hist.monitor = .opened bits → bits.length ≤ 27 → s.NoPreempt → s.ready = true →
    s.host.grain = .command →
    ∃ t, step s = .next t ∧
      (bits.length < 27 → ∃ b, decode s.host.input.cmd = .wbit b ∧ t.hist.monitor = .opened (bits ++ [b]) ∧
        t.hist.trace = s.hist.trace ++ [.set .data b, .wait 5, .set .clock true, .wait 5, .set .clock false]) ∧
      (bits.length = 27 → decode s.host.input.cmd = .stop ∧ (t.hist.monitor = .closed ∨ t.hist.monitor = .broken) ∧
        t.hist.trace = s.hist.trace ++ [.set .clock true, .wait 5, .set .data true, .wait 5])) ∧
  ∀ (s : State) (ch : Int) (v : Value) (u : State), s.hist.monitor = .closed → exec (.wrch ch v) s = .next u →
    ∃ t, execAll
        ([if (writeJob ch v s.config.range).cs1 then .cs1h else .cs1l, if (writeJob ch v s.config.range).cs2 then .cs2h else .cs2l, .start]
          ++ (frameBits (writeJob ch v s.config.range).frame).map Instr.wbit ++ [.stop]) s = .next t ∧
      t.lines = u.lines ∧ t.hist.now = u.hist.now ∧
      u.hist.trace = t.hist.trace ++ [.cache (resolve ch) (clamp v s.config.range)] ∧
      t.outCache = s.outCache ∧ t.hist.dacLog = s.hist.dacLog ∧
      t.hist.monitor = .closed ∧ t.hist.protoViolation = s.hist.protoViolation

/-! ### All commands -/

/-- R35: a line write sets its line and is an event whatever the line held; and the events a command appends depend on the command
and the Range and on nothing else: neither on the lines, nor on the cache, nor on any other part of the state it starts from. -/
def Obligations.EventsDoNotDependOnTheStartState : Prop :=
  (∀ (i : Instr) (n : Line) (v : Level) (s t : State), primitiveWrite i = some (n, v) → exec i s = .next t →
    t.lines.get n = v ∧ t.hist.trace = s.hist.trace ++ [.set n v]) ∧
  ∀ (i : Instr) (s s' t : State), s.config.range = s'.config.range → exec i s = .next t →
    ∃ t' es, exec i s' = .next t' ∧ t.hist.trace = s.hist.trace ++ es ∧ t'.hist.trace = s'.hist.trace ++ es

/-- R59: the events of a list of commands stand in the trace command after command, those of one command together and in the order of
its micro-operations; nothing is merged, reordered or dropped. -/
def Obligations.TraceIsTheCommandsInOrder : Prop :=
  ∀ (is : List Instr) (s t : State), execAll is s = .next t →
    ∃ latches : List Latch, is.map (fun i => latchOf i s.config.range) = latches.map Except.ok ∧
      t.hist.trace = s.hist.trace ++ latches.flatMap (fun l => l.ops.map MicroOp.event) ∧ t.config.range = s.config.range

/-- R218: what every command costs: line writes, waits, and five microseconds for each wait; and the length of its list. The channel
writes' counts, which follow from the length of the frame, are those R218 prints. -/
def Obligations.CommandCosts : Prop :=
  (writeMicroCount = 145 ∧ writeLineWriteCount = 87 ∧ writeWaitCount = 57) ∧
  ∀ (i : Instr) (s t : State), exec i s = .next t →
    (∃ es, t.hist.trace = s.hist.trace ++ es ∧ es.countP Event.isSet = lineWriteCount i ∧ es.countP Event.isWait = waitCount i ∧
      es.length = microCount i) ∧
    t.hist.now = s.hist.now + 5 * waitCount i ∧
    ∃ l, latchOf i s.config.range = .ok l ∧ l.ops.length = microCount i

/-- R176, R170: from every state with a good Range every command word has a defined result; every step ends in a next state or in the
refusal of a Range with `minVal >= maxVal`, presented at construction or (in a state no run reaches) held. -/
def Obligations.OnlyABadRangeIsRefused : Prop :=
  (∀ (s : State) (w : CmdWord), s.config.range.Ok → ∃ t, exec (decode w) s = .next t) ∧
  (∀ s : State, (∃ t, step s = .next t) ∨ step s = .refused .badRange) ∧
  ∀ (s : State) (r : Refusal), step s = .refused r →
    r = .badRange ∧ ((s.seq.phase = .powerOn ∧ ¬ s.cfgRange.Ok) ∨ (s.seq.phase = .constructed ∧ ¬ s.config.range.Ok))

/-- R186, R221: a ready block that is offered nothing keeps every register. -/
def Obligations.IdleBlockHoldsItsState : Prop :=
  ∀ s : State, s.ready = true → s.host.input.cmdValid = false → step s = .next { s with host := s.host.advance }

/-! ### The micro-operation level -/

/-- R90, R32, R85: a command word offered to the ready block at the micro level is accepted in that step: its latch is set, `BUSY` is 1
and `upc` 0 and nothing has been performed; the reserved command leaves `BUSY` at 0. -/
def Obligations.AcceptanceLatchesTheCommand : Prop :=
  ∀ s : State, s.ready = true → s.host.input.cmdValid = true → s.host.grain = .micro → s.config.range.Ok →
    ∃ t, step s = .next t ∧
      (decode s.host.input.cmd = .reserved → t = { s with host := s.host.advance }) ∧
      (decode s.host.input.cmd ≠ .reserved →
        t.seq.busy = true ∧ t.seq.upc = 0#8 ∧ latchOf (decode s.host.input.cmd) s.config.range = .ok t.seq.cur ∧
        t.seq.cur.ops.length = microCount (decode s.host.input.cmd) ∧
        t.lines = s.lines ∧ t.outCache = s.outCache ∧ t.dir = s.dir ∧ t.config.range = s.config.range ∧
        t.hist.trace = s.hist.trace ∧ t.hist.now = s.hist.now ∧ t.hist.dacLog = s.hist.dacLog ∧ t.seq.phase = s.seq.phase)

/-- R10: the two levels agree. A command accepted at the micro level, with a host that then offers nothing, reaches after one step a
micro-operation exactly the state the command level gives; and it is refused where the command level refuses it. That the script
is empty, and that a step after its end lasts the five microseconds of a wait, is the model's choice (`notes/assumptions/2.md`,
`3.md`). R220: whatever the host shows and however long each step lasts, the end of a run of the machine, at either level, is
observed as construction at the command level and then the commands accepted, one after another, leave it. -/
def Obligations.TwoLevelsAgree : Prop :=
  (∀ (s t : State) (is : List Instr), EndOfRun s is t →
    ∃ c u, construct Config.constants.initOrder s = .next c ∧ execAll is c = .next u ∧ t.observation = u.observation) ∧
  ∀ s : State, s.ready = true → s.host.input.cmdValid = true → s.host.grain = .micro → s.host.script = [] →
    (∀ t, exec (decode s.host.input.cmd) s = .next t →
      Host.Core.run Sys2Proof.core (microCount (decode s.host.input.cmd) + 1) s = .next { t with host := s.host.advance }) ∧
    (∀ r, exec (decode s.host.input.cmd) s = .refused r → step s = .refused r)

/-- R31: whatever the host does, short of `rst`, a step with a command in flight does not change the state in which that command will
have completed: nothing stops, skips, repeats or alters it. -/
def Obligations.CommandInFlightIsNotDisturbed : Prop :=
  ∀ s t : State, s.seq.phase = .constructed → s.seq.busy = true → s.host.input.rst = false → step s = .next t →
    SameBlock t.completed s.completed

/-- R219: a command in flight ends: with a host that shows nothing more, after at most 146 steps `BUSY` is 0 and the state is the one
in which the command has completed. -/
def Obligations.CommandInFlightEnds : Prop :=
  ∀ s : State, s.SequencerOk → s.seq.phase = .constructed → s.seq.busy = true → s.host.input.rst = false → s.host.script = [] →
    ∃ (n : Nat) (t : State), n ≤ 146 ∧ Host.Core.run Sys2Proof.core n s = .next t ∧ t.seq.busy = false ∧ SameBlock t s.completed

/-- R33, R121: a wait holds the sequencer on its micro-operation, with no line written and no event, until its microseconds have
passed; then its event is appended, `now` grows by five, and the index goes on. -/
def Obligations.WaitHoldsTheSequencer : Prop :=
  ∀ (s t : State) (left : Nat), s.seq.phase = .constructed → s.seq.busy = true → s.host.input.rst = false →
    s.seq.cur.ops[s.seq.upc.toNat]? = some (.wait 5) → (left = if s.seq.waitCnt = 0 then 5 else s.seq.waitCnt) →
    step s = .next t →
    (s.host.input.elapsed < left → t.lines = s.lines ∧ t.outCache = s.outCache ∧ t.hist = s.hist ∧
      t.seq = { s.seq with waitCnt := left - s.host.input.elapsed }) ∧
    (left ≤ s.host.input.elapsed → t.lines = s.lines ∧ t.outCache = s.outCache ∧ t.hist.trace = s.hist.trace ++ [.wait 5] ∧
      t.hist.now = s.hist.now + 5 ∧ t.seq.waitCnt = 0 ∧
      (s.seq.upc.toNat + 1 < s.seq.cur.ops.length → t.seq.upc.toNat = s.seq.upc.toNat + 1 ∧ t.seq.busy = true) ∧
      (s.seq.cur.ops.length ≤ s.seq.upc.toNat + 1 → t.seq.upc = 0#8 ∧ t.seq.busy = false))

/-- R90, R213: while `ready` is 0 the command port is ignored: what is offered on it changes nothing in the block. -/
def Obligations.CommandPortIsIgnoredWhileNotReady : Prop :=
  ∀ (s t : State) (valid : Bool) (w : CmdWord), s.ready = false → step s = .next t →
    ∃ t', step { s with host := { s.host with input := { s.host.input with cmdValid := valid, cmd := w } } } = .next t' ∧
      SameBlock t' t

/-! ### Reset and construction -/

/-- R203: the constructed state, from any power-on state and for any good Range. R39: the Range is the constructor's arguments at
power-on already, and construction leaves it so. That construction's trace is kept, and `now` is exactly 855, is the model's choice
among those R39 offers (`notes/assumptions/5.md`). -/
def Obligations.ConstructionReachesTheConstructedState : Prop :=
  ∀ s : State, s.AtPowerOn → s.host.input.rst = false → s.host.grain = .command →
    (s.host.input.cfgMin.toInt < s.host.input.cfgMax.toInt) →
    ∃ t, step s = .next t ∧
      t.lines = { clock := true, data := true, cs1 := true, cs2 := true } ∧ t.dir = 0b1111#4 ∧
      t.config.range.minVal = (s.host.input.cfgMin.toInt : Rat) / 65536 ∧ t.config.range.maxVal = (s.host.input.cfgMax.toInt : Rat) / 65536 ∧
      (∀ k, t.outCache.get k = some t.config.range.minVal) ∧
      t.hist.dacLog =
        [{ cs1 := true, cs2 := false, frame := 0x6140201#27 }, { cs1 := false, cs2 := true, frame := 0x6140201#27 },
         { cs1 := true, cs2 := true, frame := 0x6040201#27 }] ∧
      t.hist.trace.countP (fun e => Event.isSet e || Event.isWait e) = 432 ∧ t.hist.trace.length = 435 ∧
      t.hist.trace.countP Event.isWait = 171 ∧ t.hist.now = 855 ∧
      t.seq.busy = false ∧ t.seq.upc = 0#8 ∧ t.seq.phase = .constructed ∧ t.hist.protoViolation = s.hist.protoViolation ∧
      t.config.range = s.config.range ∧ (s.NoFaultRecorded → t.Constructed)

/-- R202 step 1, R27, R176: a Range with `minVal >= maxVal` presented at construction is refused, at both levels. -/
def Obligations.BadRangeIsRefusedAtConstruction : Prop :=
  ∀ s : State, s.seq.phase = .powerOn → s.host.input.rst = false → s.host.input.cfgMax.toInt ≤ s.host.input.cfgMin.toInt →
    step s = .refused .badRange

/-- R204: two constructions with the same Range reach the same constructed state with the same events, whatever the power-on levels
of the lines and of `DIR` were. -/
def Obligations.ConstructionIsIdempotent : Prop :=
  ∀ s s' t : State, s.AtPowerOn → s'.AtPowerOn → s.host.input.rst = false → s'.host.input.rst = false →
    s.host.grain = .command → s'.host.grain = .command →
    s.host.input.cfgMin = s'.host.input.cfgMin → s.host.input.cfgMax = s'.host.input.cfgMax →
    s.hist.protoViolation = s'.hist.protoViolation →
    step s = .next t → ∃ t', step s' = .next t' ∧ SameBlock t t'

/-- R39: with another `INIT_ORDER` the chip-select levels after construction are those of the channel written last. -/
def Obligations.LastChannelOfInitOrderSetsTheChipSelects : Prop :=
  ∀ (order : List Int) (last : Int) (s : State), s.cfgRange.Ok →
    ∃ t, construct (order ++ [last]) s = .next t ∧ t.lines.clock = true ∧ t.lines.data = true ∧
      (t.lines.cs1, t.lines.cs2) = (if last = 3 then (true, true) else if last = 2 then (false, true) else (true, false))

/-- R10, R202, R218: construction at the micro level, 436 steps with a host that shows nothing more, reaches the state that
construction at the command level gives. That the script is empty, and that a step after its end lasts the five microseconds of a
wait, so that each micro-operation is one step, is the model's choice (`notes/assumptions/2.md`, `3.md`). -/
def Obligations.ConstructionTwoLevelsAgree : Prop :=
  ∀ s t : State, s.seq.phase = .powerOn → s.host.input.rst = false → s.host.grain = .micro → s.host.script = [] →
    construct Config.constants.initOrder s = .next t →
    ∃ u : State, Host.Core.run Sys2Proof.core 436 s = .next u ∧ SameBlock u t ∧ u.ready = true

/-- R206, R175, R79: `rst` wins over everything. From every state, one at power-on among them, a step with `rst` asserted ends at
power-on, with the cache unwritten and the history empty; `protoViolation` is kept, and set when a command was in flight. That the
Range is then what the configuration ports show is the model's reading of R39 (`notes/assumptions/6.md`), that the monitor is closed
its reading of R34 and R212 (`notes/assumptions/10.md`). -/
def Obligations.ResetAbandonsTheCommand : Prop :=
  ∀ s : State, s.host.input.rst = true →
    ∃ t, step s = .next t ∧ t.AtPowerOn ∧
      (s.seq.busy = true → t.hist.protoViolation = true) ∧
      (s.seq.busy = false → t.hist.protoViolation = s.hist.protoViolation)

/-- R39, R203: the launch state is the constructed state for the default Range. -/
def Obligations.LaunchStateValues : Prop :=
  State.reset.Constructed ∧
  State.reset.lines = { clock := true, data := true, cs1 := true, cs2 := true } ∧ State.reset.dir = 0b1111#4 ∧
  State.reset.config.range = { minVal := 0, maxVal := 1 } ∧ (∀ k, State.reset.outCache.get k = some 0) ∧
  State.reset.seq.busy = false ∧ State.reset.seq.upc = 0#8 ∧ State.reset.hist.protoViolation = false ∧
  State.reset.hist.now = 855 ∧ State.reset.hist.trace.length = 435 ∧
  State.reset.hist.dacLog =
    [{ cs1 := true, cs2 := false, frame := 0x6140201#27 }, { cs1 := false, cs2 := true, frame := 0x6140201#27 },
     { cs1 := true, cs2 := true, frame := 0x6040201#27 }] ∧
  State.reset.ready = true

/-! ### The protocol monitor -/

/-- R37: once set, `protoViolation` is never cleared by any step, not even by reset. -/
def Obligations.ProtoViolationIsSticky : Prop :=
  ∀ s t : State, s.hist.protoViolation = true → step s = .next t → t.hist.protoViolation = true

/-- R212: from a state with no frame open and no mark, `protoViolation` is 0 after a list of accepted commands exactly when the list,
without reserved commands, is whole frames so far. -/
def Obligations.MonitorRecognisesWholeFrames : Prop :=
  ∀ (is : List Instr) (s t : State), s.hist.monitor = .closed → s.hist.protoViolation = false → execAll is s = .next t →
    (t.hist.protoViolation = false ↔ WholeFramesSoFar (withoutReserved is))

/-- R212: a host that uses only `WRCH`, `AWR`, `DWR` never sets the mark. -/
def Obligations.FrameCommandsNeverSetTheMark : Prop :=
  ∀ (is : List Instr) (s : State), (∀ i ∈ is, isFrameCmd i = true) → s.config.range.Ok → s.hist.monitor = .closed →
    ∃ t, execAll is s = .next t ∧ t.hist.protoViolation = s.hist.protoViolation ∧ t.hist.dacLog.length = s.hist.dacLog.length + is.length

/-! ### Invariants of every step -/

/-- R216: outside power-on no step changes the Range while `rst` is not asserted, whatever is on the configuration ports. -/
def Obligations.RangeIsFixed : Prop :=
  ∀ s t : State, s.seq.phase ≠ .powerOn → s.host.input.rst = false → step s = .next t → FixedRange s t

/-- R23: construction makes all four lines outputs; no command changes `DIR`, and outside power-on no step changes it but reset. -/
def Obligations.DirIsFixed : Prop :=
  (∀ (order : List Int) (s t : State), construct order s = .next t → t.dir = 0b1111#4) ∧
  (∀ (i : Instr) (s t : State), exec i s = .next t → t.dir = s.dir) ∧
  ∀ s t : State, s.seq.phase ≠ .powerOn → s.host.input.rst = false → step s = .next t → t.dir = s.dir

/-- The launch state meets every invariant below. -/
def Obligations.LaunchStateMeetsTheInvariants : Prop :=
  State.reset.Inv

/-- R29 to R33: every step keeps the sequencer consistent; `upc` stays inside the list of the command in flight. -/
def Obligations.StepKeepsTheSequencerConsistent : Prop :=
  ∀ s t : State, s.SequencerOk → step s = .next t → t.SequencerOk

/-- R24, R27: after construction every cache slot holds a value in the Range, and every step keeps it so. That the Range at power-on is
what the configuration ports show is the model's reading of R39 (`notes/assumptions/6.md`). -/
def Obligations.StepKeepsTheCacheInRange : Prop :=
  ∀ s t : State, s.SequencerOk → s.CacheOk → step s = .next t → t.CacheOk

/-- R34 to R36: every step keeps the trace an exact account of the lines, the cache and the time. And R214, R21: whatever the state, a
step with `rst` not asserted only appends to the trace, and moves the lines by the events it appends and by nothing else. -/
def Obligations.StepKeepsTheTraceExact : Prop :=
  (∀ s t : State, s.TraceOk → step s = .next t → t.TraceOk) ∧
  ∀ s t : State, s.host.input.rst = false → step s = .next t → SoleDriver s t

/-- R57, R77, R154: every record of the frame log, at every step, is that of a channel write with some channel and some code. -/
def Obligations.StepKeepsTheFrameLogGenuine : Prop :=
  ∀ s t : State, s.DacLogOk → step s = .next t → t.DacLogOk

/-- R37, R212: every step keeps the mark set wherever the monitor has given up, and an open frame within 27 bits. -/
def Obligations.StepKeepsTheMonitorMarked : Prop :=
  ∀ s t : State, s.MonitorOk → step s = .next t → t.MonitorOk

/-! ### The status output -/

/-- R29, R79, R39, C9: the value of `ready`, all a host gets back: 0 while `BUSY` is 1, 0 while `rst` is asserted, 0 until construction
has completed, and otherwise 1; and a command is accepted exactly where it is 1 and one is offered. That it is 0 between the
release of `rst` and the first step of construction, where `BUSY` is still 0, is the model's reading (`notes/assumptions/12.md`). -/
def Obligations.ReadyIsTheComplementOfBusy : Prop :=
  ∀ s : State,
    (s.seq.busy = true → s.ready = false) ∧ (s.host.input.rst = true → s.ready = false) ∧
    (s.seq.phase ≠ .constructed → s.ready = false) ∧
    (s.seq.busy = false → s.host.input.rst = false → s.seq.phase = .constructed → s.ready = true) ∧
    ((∃ w, s.accepted = some w) ↔ s.ready = true ∧ s.host.input.cmdValid = true) ∧
    ∀ w, s.accepted = some w → w = s.host.input.cmd
end

