-- ==== Sys2Proof/Laws/State.lean ====
section
/-! SUPPORT. One lemma per field per update of the state, so that no proof unfolds a record update; and the laws of the small
register files (lines, cache, `OUT`). -/

namespace Sys2Proof.Machine

open Sys2Proof (Level Value Line Channel Range)

/-! ### History -/

@[simp] theorem History.emit_trace (h : History) (e : Event) : (h.emit e).trace = h.trace ++ [e] := rfl
@[simp] theorem History.emit_now (h : History) (e : Event) : (h.emit e).now = h.now + e.micros := rfl
@[simp] theorem History.emit_dacLog (h : History) (e : Event) : (h.emit e).dacLog = h.dacLog := rfl
@[simp] theorem History.emit_protoViolation (h : History) (e : Event) : (h.emit e).protoViolation = h.protoViolation := rfl
@[simp] theorem History.emit_monitor (h : History) (e : Event) : (h.emit e).monitor = h.monitor := rfl

@[simp] theorem History.moveMonitor_trace (h : History) (m : FrameMonitor) : (h.moveMonitor m).trace = h.trace := rfl
@[simp] theorem History.moveMonitor_now (h : History) (m : FrameMonitor) : (h.moveMonitor m).now = h.now := rfl
@[simp] theorem History.moveMonitor_dacLog (h : History) (m : FrameMonitor) : (h.moveMonitor m).dacLog = h.dacLog := rfl
@[simp] theorem History.moveMonitor_protoViolation (h : History) (m : FrameMonitor) : (h.moveMonitor m).protoViolation = (h.protoViolation || decide (m = .broken)) := rfl
@[simp] theorem History.moveMonitor_monitor (h : History) (m : FrameMonitor) : (h.moveMonitor m).monitor = m := rfl

/-! ### Sequencer -/

@[simp] theorem Sequencer.rest_phase (q : Sequencer) : (q.rest).phase = q.phase := rfl
@[simp] theorem Sequencer.rest_busy (q : Sequencer) : (q.rest).busy = false := rfl
@[simp] theorem Sequencer.rest_upc (q : Sequencer) : (q.rest).upc = 0#8 := rfl
@[simp] theorem Sequencer.rest_cur (q : Sequencer) : (q.rest).cur = .idle := rfl
@[simp] theorem Sequencer.rest_waitCnt (q : Sequencer) : (q.rest).waitCnt = 0 := rfl

@[simp] theorem Sequencer.begin_phase (q : Sequencer) (l : Latch) : (q.begin l).phase = q.phase := rfl
@[simp] theorem Sequencer.begin_busy (q : Sequencer) (l : Latch) : (q.begin l).busy = true := rfl
@[simp] theorem Sequencer.begin_upc (q : Sequencer) (l : Latch) : (q.begin l).upc = 0#8 := rfl
@[simp] theorem Sequencer.begin_cur (q : Sequencer) (l : Latch) : (q.begin l).cur = l := rfl
@[simp] theorem Sequencer.begin_waitCnt (q : Sequencer) (l : Latch) : (q.begin l).waitCnt = 0 := rfl

/-! ### State -/

@[simp] theorem State.setLine_lines (s : State) (n : Line) (v : Level) : (s.setLine n v).lines = s.lines.set n v := rfl
@[simp] theorem State.setLine_dir (s : State) (n : Line) (v : Level) : (s.setLine n v).dir = s.dir := rfl
@[simp] theorem State.setLine_config (s : State) (n : Line) (v : Level) : (s.setLine n v).config = s.config := rfl
@[simp] theorem State.setLine_outCache (s : State) (n : Line) (v : Level) : (s.setLine n v).outCache = s.outCache := rfl
@[simp] theorem State.setLine_seq (s : State) (n : Line) (v : Level) : (s.setLine n v).seq = s.seq := rfl
@[simp] theorem State.setLine_hist (s : State) (n : Line) (v : Level) : (s.setLine n v).hist = s.hist.emit (.set n v) := rfl
@[simp] theorem State.setLine_host (s : State) (n : Line) (v : Level) : (s.setLine n v).host = s.host := rfl

@[simp] theorem State.waitFor_lines (s : State) (us : Nat) : (s.waitFor us).lines = s.lines := rfl
@[simp] theorem State.waitFor_dir (s : State) (us : Nat) : (s.waitFor us).dir = s.dir := rfl
@[simp] theorem State.waitFor_config (s : State) (us : Nat) : (s.waitFor us).config = s.config := rfl
@[simp] theorem State.waitFor_outCache (s : State) (us : Nat) : (s.waitFor us).outCache = s.outCache := rfl
@[simp] theorem State.waitFor_seq (s : State) (us : Nat) : (s.waitFor us).seq = s.seq := rfl
@[simp] theorem State.waitFor_hist (s : State) (us : Nat) : (s.waitFor us).hist = s.hist.emit (.wait us) := rfl
@[simp] theorem State.waitFor_host (s : State) (us : Nat) : (s.waitFor us).host = s.host := rfl

@[simp] theorem State.setCache_lines (s : State) (k : Channel) (q : Value) : (s.setCache k q).lines = s.lines := rfl
@[simp] theorem State.setCache_dir (s : State) (k : Channel) (q : Value) : (s.setCache k q).dir = s.dir := rfl
@[simp] theorem State.setCache_config (s : State) (k : Channel) (q : Value) : (s.setCache k q).config = s.config := rfl
@[simp] theorem State.setCache_outCache (s : State) (k : Channel) (q : Value) : (s.setCache k q).outCache = s.outCache.set k q := rfl
@[simp] theorem State.setCache_seq (s : State) (k : Channel) (q : Value) : (s.setCache k q).seq = s.seq := rfl
@[simp] theorem State.setCache_hist (s : State) (k : Channel) (q : Value) : (s.setCache k q).hist = s.hist.emit (.cache k q) := rfl
@[simp] theorem State.setCache_host (s : State) (k : Channel) (q : Value) : (s.setCache k q).host = s.host := rfl

@[simp] theorem State.latch_lines (s : State) (l : Latch) : (s.latch l).lines = s.lines := rfl
@[simp] theorem State.latch_dir (s : State) (l : Latch) : (s.latch l).dir = s.dir := rfl
@[simp] theorem State.latch_config (s : State) (l : Latch) : (s.latch l).config = s.config := rfl
@[simp] theorem State.latch_outCache (s : State) (l : Latch) : (s.latch l).outCache = s.outCache := rfl
@[simp] theorem State.latch_seq (s : State) (l : Latch) : (s.latch l).seq = s.seq.begin l := rfl
@[simp] theorem State.latch_hist (s : State) (l : Latch) : (s.latch l).hist = s.hist := rfl
@[simp] theorem State.latch_host (s : State) (l : Latch) : (s.latch l).host = s.host := rfl

@[simp] theorem State.note_lines (s : State) (l : Latch) : (s.note l).lines = s.lines := rfl
@[simp] theorem State.note_dir (s : State) (l : Latch) : (s.note l).dir = s.dir := rfl
@[simp] theorem State.note_config (s : State) (l : Latch) : (s.note l).config = s.config := rfl
@[simp] theorem State.note_outCache (s : State) (l : Latch) : (s.note l).outCache = s.outCache := rfl
@[simp] theorem State.note_seq (s : State) (l : Latch) : (s.note l).seq = s.seq := rfl
@[simp] theorem State.note_hist (s : State) (l : Latch) : (s.note l).hist = s.hist.moveMonitor (s.hist.monitor.accept l) := rfl
@[simp] theorem State.note_host (s : State) (l : Latch) : (s.note l).host = s.host := rfl

@[simp] theorem State.finish_lines (s : State) : (s.finish).lines = s.lines := rfl
@[simp] theorem State.finish_dir (s : State) : (s.finish).dir = s.dir := rfl
@[simp] theorem State.finish_config (s : State) : (s.finish).config = s.config := rfl
@[simp] theorem State.finish_outCache (s : State) : (s.finish).outCache = s.outCache := rfl
@[simp] theorem State.finish_seq (s : State) : (s.finish).seq = s.seq.rest := rfl
@[simp] theorem State.finish_hist (s : State) : (s.finish).hist = s.hist.complete s.seq.cur := rfl
@[simp] theorem State.finish_host (s : State) : (s.finish).host = s.host := rfl

@[simp] theorem State.advanceHost_lines (s : State) : (s.advanceHost).lines = s.lines := rfl
@[simp] theorem State.advanceHost_dir (s : State) : (s.advanceHost).dir = s.dir := rfl
@[simp] theorem State.advanceHost_config (s : State) : (s.advanceHost).config = s.config := rfl
@[simp] theorem State.advanceHost_outCache (s : State) : (s.advanceHost).outCache = s.outCache := rfl
@[simp] theorem State.advanceHost_seq (s : State) : (s.advanceHost).seq = s.seq := rfl
@[simp] theorem State.advanceHost_hist (s : State) : (s.advanceHost).hist = s.hist := rfl
@[simp] theorem State.advanceHost_host (s : State) : (s.advanceHost).host = s.host.advance := rfl

@[simp] theorem State.enterPowerOn_lines (s : State) : (s.enterPowerOn).lines = Lines.ofOut (Config.powerOnLines s.host.draws) := rfl
@[simp] theorem State.enterPowerOn_dir (s : State) : (s.enterPowerOn).dir = Config.powerOnDir s.host.draws := rfl
@[simp] theorem State.enterPowerOn_config (s : State) : (s.enterPowerOn).config = { range := s.cfgRange } := rfl
@[simp] theorem State.enterPowerOn_outCache (s : State) : (s.enterPowerOn).outCache = .unwritten := rfl
@[simp] theorem State.enterPowerOn_seq (s : State) : (s.enterPowerOn).seq = { phase := .powerOn, busy := false, upc := 0#8, cur := .idle, waitCnt := 0 } := rfl
@[simp] theorem State.enterPowerOn_hist (s : State) : (s.enterPowerOn).hist = { trace := [], now := 0, dacLog := [], protoViolation := s.hist.protoViolation || s.seq.busy, monitor := .closed } := rfl
@[simp] theorem State.enterPowerOn_host (s : State) : (s.enterPowerOn).host = { s.host with draws := s.host.draws + 1 } := rfl

/-! A step with `rst` asserted: all but the levels, which a block held at power-on keeps. -/

@[simp] theorem State.holdReset_config (s : State) : (s.holdReset).config = { range := s.cfgRange } := by
  unfold State.holdReset; split <;> rfl
@[simp] theorem State.holdReset_outCache (s : State) : (s.holdReset).outCache = .unwritten := by unfold State.holdReset; split <;> rfl
@[simp] theorem State.holdReset_seq (s : State) :
    (s.holdReset).seq = { phase := .powerOn, busy := false, upc := 0#8, cur := .idle, waitCnt := 0 } := by
  unfold State.holdReset; split <;> rfl
@[simp] theorem State.holdReset_hist (s : State) : (s.holdReset).hist =
    { trace := [], now := 0, dacLog := [], protoViolation := s.hist.protoViolation || s.seq.busy, monitor := .closed } := by
  unfold State.holdReset; split <;> rfl
@[simp] theorem State.holdReset_input (s : State) : (s.holdReset).host.input = s.host.input := by unfold State.holdReset; split <;> rfl
@[simp] theorem State.holdReset_cfgRange (s : State) : (s.holdReset).cfgRange = s.cfgRange := by simp [State.cfgRange]

/-! ### Completion records -/

@[simp] theorem History.complete_trace (h : History) (l : Latch) : (h.complete l).trace = h.trace := by cases l <;> rfl
@[simp] theorem History.complete_now (h : History) (l : Latch) : (h.complete l).now = h.now := by cases l <;> rfl
@[simp] theorem History.complete_write (h : History) (j : WriteJob) :
    h.complete (.write j) = { h with dacLog := h.dacLog ++ [j.record] } := rfl
@[simp] theorem History.complete_stop (h : History) : h.complete .stop = h.moveMonitor (h.monitor.complete .stop) := rfl
@[simp] theorem History.complete_idle (h : History) : h.complete .idle = h := rfl
@[simp] theorem History.complete_line (h : History) (n : Line) (v : Level) : h.complete (.line n v) = h := rfl
@[simp] theorem History.complete_start (h : History) : h.complete .start = h := rfl
@[simp] theorem History.complete_bit (h : History) (b : Level) : h.complete (.bit b) = h := rfl

/-! ### Lines -/

@[simp] theorem Lines.get_set_same (l : Lines) (n : Line) (v : Level) : (l.set n v).get n = v := by cases n <;> rfl

theorem Lines.get_set_other (l : Lines) {m n : Line} (v : Level) (h : m ≠ n) : (l.set n v).get m = l.get m := by
  cases m <;> cases n <;> first | rfl | exact absurd rfl h

theorem Lines.get_set (l : Lines) (m n : Line) (v : Level) : (l.set n v).get m = if n = m then v else l.get m := by
  cases m <;> cases n <;> rfl

theorem Lines.ext_get {l l' : Lines} (h : ∀ n, l.get n = l'.get n) : l = l' := by
  cases l; cases l'
  have h1 := h .clock; have h2 := h .data; have h3 := h .cs1; have h4 := h .cs2
  simp only [Lines.get] at h1 h2 h3 h4
  subst h1 h2 h3 h4; rfl

@[simp] theorem Lines.written_clock (k : Channel) : (Lines.written k).clock = true := rfl
@[simp] theorem Lines.written_data (k : Channel) : (Lines.written k).data = true := rfl
@[simp] theorem Lines.written_cs1 (k : Channel) : (Lines.written k).cs1 = (Config.constants.csLevel k).1 := rfl
@[simp] theorem Lines.written_cs2 (k : Channel) : (Lines.written k).cs2 = (Config.constants.csLevel k).2 := rfl

/-! ### The output cache -/

@[simp] theorem OutCache.get_set_same (c : OutCache) (k : Channel) (q : Value) : (c.set k q).get k = some q := by cases k <;> rfl

theorem OutCache.get_set (c : OutCache) (j k : Channel) (q : Value) : (c.set k q).get j = if k = j then some q else c.get j := by
  cases j <;> cases k <;> rfl

@[simp] theorem OutCache.get_unwritten (k : Channel) : OutCache.unwritten.get k = none := by cases k <;> rfl

/-! ### The host's side -/

@[simp] theorem HostSide.advance_grain (h : HostSide) : h.advance.grain = h.grain := by
  unfold HostSide.advance; split <;> rfl

@[simp] theorem HostSide.advance_draws (h : HostSide) : h.advance.draws = h.draws := by
  unfold HostSide.advance; split <;> rfl

theorem HostSide.advance_end (h : HostSide) (hs : h.script = []) :
    h.advance = { h with input := { h.input with rst := false, cmdValid := false, elapsed := 5 } } := by
  unfold HostSide.advance; rw [hs]

end Sys2Proof.Machine
end

