-- ==== Sys2Proof/Laws/Ops.lean ====
section
/-! SUPPORT. One spec lemma for each shared operation: what performing a micro-operation, a list of them, and a whole command does to
every part of the state. -/

namespace Sys2Proof.Machine

open Sys2Proof (Level Value Line Channel Range)

/-! ### The constants the operations use -/

@[simp] theorem constants_delayUs : Config.constants.delayUs = 5 := rfl
@[simp] theorem constants_codeMax : Config.constants.codeMax = 4095 := rfl
@[simp] theorem constants_frameLen : Config.constants.frameLen = 27 := rfl
@[simp] theorem constants_defaultCh : Config.constants.defaultCh = .ch1 := rfl
@[simp] theorem constants_initOrder : Config.constants.initOrder = [1, 2, 3] := rfl
@[simp] theorem constants_codeBits : Config.constants.codeBits = 12 := rfl
@[simp] theorem constants_nOut : Config.constants.nOut = 3 := rfl
@[simp] theorem waitOp_eq : waitOp = .wait 5 := rfl
/-- What the counts of a channel write come to (R147, R218). -/
@[simp] theorem writeMicroCount_eq : writeMicroCount = 145 := rfl
@[simp] theorem writeLineWriteCount_eq : writeLineWriteCount = 87 := rfl
@[simp] theorem writeWaitCount_eq : writeWaitCount = 57 := rfl
/-- The record meets what R6 says of its constants together. -/
theorem constants_consistent : Config.constants.Consistent := by unfold Config.Constants.Consistent; decide

/-! ### One micro-operation -/

/-- What one micro-operation does to the line registers. -/
def Lines.perform (l : Lines) : MicroOp → Lines
  | .set n v => l.set n v
  | .wait _ => l
  | .cache _ _ => l

/-- What one micro-operation does to the cache. -/
def OutCache.perform (c : OutCache) : MicroOp → OutCache
  | .set _ _ => c
  | .wait _ => c
  | .cache k q => c.set k q

@[simp] theorem Lines.perform_set (l : Lines) (n : Line) (v : Level) : l.perform (.set n v) = l.set n v := rfl
@[simp] theorem Lines.perform_wait (l : Lines) (us : Nat) : l.perform (.wait us) = l := rfl
@[simp] theorem Lines.perform_cache (l : Lines) (k : Channel) (q : Value) : l.perform (.cache k q) = l := rfl
@[simp] theorem OutCache.perform_set (c : OutCache) (n : Line) (v : Level) : c.perform (.set n v) = c := rfl
@[simp] theorem OutCache.perform_wait (c : OutCache) (us : Nat) : c.perform (.wait us) = c := rfl
@[simp] theorem OutCache.perform_cache (c : OutCache) (k : Channel) (q : Value) : c.perform (.cache k q) = c.set k q := rfl

/-- A micro-operation changes the lines or the cache, appends its one event, and touches nothing else. -/
theorem State.perform_eq (s : State) (op : MicroOp) :
    s.perform op = { s with lines := s.lines.perform op, outCache := s.outCache.perform op, hist := s.hist.emit op.event } := by
  cases op <;> rfl

@[simp] theorem State.perform_lines (s : State) (op : MicroOp) : (s.perform op).lines = s.lines.perform op := by cases op <;> rfl
@[simp] theorem State.perform_outCache (s : State) (op : MicroOp) : (s.perform op).outCache = s.outCache.perform op := by
  cases op <;> rfl
@[simp] theorem State.perform_hist (s : State) (op : MicroOp) : (s.perform op).hist = s.hist.emit op.event := by cases op <;> rfl
@[simp] theorem State.perform_dir (s : State) (op : MicroOp) : (s.perform op).dir = s.dir := by cases op <;> rfl
@[simp] theorem State.perform_config (s : State) (op : MicroOp) : (s.perform op).config = s.config := by cases op <;> rfl
@[simp] theorem State.perform_seq (s : State) (op : MicroOp) : (s.perform op).seq = s.seq := by cases op <;> rfl
@[simp] theorem State.perform_host (s : State) (op : MicroOp) : (s.perform op).host = s.host := by cases op <;> rfl

/-! ### A list of micro-operations -/

/-- The line registers after a list of micro-operations. -/
def Lines.performAll (l : Lines) (ops : List MicroOp) : Lines := ops.foldl Lines.perform l

/-- The cache after a list of micro-operations. -/
def OutCache.performAll (c : OutCache) (ops : List MicroOp) : OutCache := ops.foldl OutCache.perform c

/-- The history after a list of micro-operations. -/
def History.emitAll (h : History) (es : List Event) : History :=
  { h with trace := h.trace ++ es, now := h.now + traceMicros es }

@[simp] theorem Lines.performAll_nil (l : Lines) : l.performAll [] = l := rfl
@[simp] theorem Lines.performAll_cons (l : Lines) (op : MicroOp) (ops : List MicroOp) :
    l.performAll (op :: ops) = (l.perform op).performAll ops := rfl
theorem Lines.performAll_append (l : Lines) (ops ops' : List MicroOp) :
    l.performAll (ops ++ ops') = (l.performAll ops).performAll ops' := by
  simp [Lines.performAll, List.foldl_append]
@[simp] theorem OutCache.performAll_nil (c : OutCache) : c.performAll [] = c := rfl
@[simp] theorem OutCache.performAll_cons (c : OutCache) (op : MicroOp) (ops : List MicroOp) :
    c.performAll (op :: ops) = (c.perform op).performAll ops := rfl
theorem OutCache.performAll_append (c : OutCache) (ops ops' : List MicroOp) :
    c.performAll (ops ++ ops') = (c.performAll ops).performAll ops' := by
  simp [OutCache.performAll, List.foldl_append]

@[simp] theorem traceMicros_nil : traceMicros [] = 0 := rfl
@[simp] theorem traceMicros_cons (e : Event) (es : List Event) : traceMicros (e :: es) = e.micros + traceMicros es := by
  simp [traceMicros]
@[simp] theorem traceMicros_append (es es' : List Event) : traceMicros (es ++ es') = traceMicros es + traceMicros es' := by
  simp [traceMicros]

@[simp] theorem History.emitAll_trace (h : History) (es : List Event) : (h.emitAll es).trace = h.trace ++ es := rfl
@[simp] theorem History.emitAll_now (h : History) (es : List Event) : (h.emitAll es).now = h.now + traceMicros es := rfl
@[simp] theorem History.emitAll_dacLog (h : History) (es : List Event) : (h.emitAll es).dacLog = h.dacLog := rfl
@[simp] theorem History.emitAll_protoViolation (h : History) (es : List Event) :
    (h.emitAll es).protoViolation = h.protoViolation := rfl
@[simp] theorem History.emitAll_monitor (h : History) (es : List Event) : (h.emitAll es).monitor = h.monitor := rfl
theorem History.emit_emitAll (h : History) (e : Event) (es : List Event) : (h.emit e).emitAll es = h.emitAll (e :: es) := by
  simp [History.emitAll, History.emit, Nat.add_assoc]

@[simp] theorem State.performAll_nil (s : State) : s.performAll [] = s := rfl
@[simp] theorem State.performAll_cons (s : State) (op : MicroOp) (ops : List MicroOp) :
    s.performAll (op :: ops) = (s.perform op).performAll ops := rfl
theorem State.performAll_append (s : State) (ops ops' : List MicroOp) :
    s.performAll (ops ++ ops') = (s.performAll ops).performAll ops' := by
  simp [State.performAll, List.foldl_append]

/-- Performing a list says everything at once: lines and cache move on, one event is appended for each micro-operation, and nothing
else changes. -/
theorem State.performAll_eq (s : State) (ops : List MicroOp) :
    s.performAll ops =
      { s with lines := s.lines.performAll ops, outCache := s.outCache.performAll ops
               hist := s.hist.emitAll (ops.map MicroOp.event) } := by
  induction ops generalizing s with
  | nil => simp [History.emitAll]
  | cons op ops ih =>
    rw [State.performAll_cons, ih, State.perform_eq]
    simp [History.emit_emitAll]

/-! ### A whole command -/

/-- A latched command run to its end: the lines and the cache move on by its list, its events are appended, its records are
written, and the sequencer rests. -/
theorem State.runLatched_eq (s : State) (l : Latch) :
    s.runLatched l =
      { s with lines := s.lines.performAll l.ops, outCache := s.outCache.performAll l.ops
               seq := s.seq.rest, hist := (s.hist.emitAll l.events).complete l } := by
  rw [State.runLatched, State.performAll_eq]
  rfl

/-- A command of the host run to its end: as `runLatched`, after the monitor has seen it accepted. -/
theorem State.runCommand_eq (s : State) (l : Latch) :
    s.runCommand l =
      { s with lines := s.lines.performAll l.ops, outCache := s.outCache.performAll l.ops, seq := s.seq.rest
               hist := ((s.hist.moveMonitor (s.hist.monitor.accept l)).emitAll l.events).complete l } := by
  rw [State.runCommand, State.runLatched_eq]
  rfl

@[simp] theorem State.runCommand_lines (s : State) (l : Latch) : (s.runCommand l).lines = s.lines.performAll l.ops := by
  rw [State.runCommand_eq]
@[simp] theorem State.runCommand_outCache (s : State) (l : Latch) : (s.runCommand l).outCache = s.outCache.performAll l.ops := by
  rw [State.runCommand_eq]
@[simp] theorem State.runCommand_seq (s : State) (l : Latch) : (s.runCommand l).seq = s.seq.rest := by rw [State.runCommand_eq]
@[simp] theorem State.runCommand_dir (s : State) (l : Latch) : (s.runCommand l).dir = s.dir := by rw [State.runCommand_eq]
@[simp] theorem State.runCommand_config (s : State) (l : Latch) : (s.runCommand l).config = s.config := by rw [State.runCommand_eq]
@[simp] theorem State.runCommand_host (s : State) (l : Latch) : (s.runCommand l).host = s.host := by rw [State.runCommand_eq]
@[simp] theorem State.runCommand_trace (s : State) (l : Latch) :
    (s.runCommand l).hist.trace = s.hist.trace ++ l.events := by rw [State.runCommand_eq]; simp
@[simp] theorem State.runCommand_now (s : State) (l : Latch) :
    (s.runCommand l).hist.now = s.hist.now + traceMicros l.events := by rw [State.runCommand_eq]; simp
theorem State.runCommand_hist (s : State) (l : Latch) :
    (s.runCommand l).hist = ((s.hist.moveMonitor (s.hist.monitor.accept l)).emitAll l.events).complete l := by
  rw [State.runCommand_eq]

/-! ### Lists of the commands -/

@[simp] theorem frameBits_length (f : Frame) : (frameBits f).length = 27 := by simp [frameBits]

theorem flatMap_bitOps_length (bits : List Level) : (bits.flatMap bitOps).length = 5 * bits.length := by
  induction bits with
  | nil => rfl
  | cons b bits ih => simp [bitOps, ih]; omega

@[simp] theorem writeOps_length (j : WriteJob) : (writeOps j).length = 145 := by
  simp only [writeOps, List.length_append, flatMap_bitOps_length, frameBits_length]
  rfl

/-- No command has more than 145 micro-operations, so `upc` never wraps. -/
theorem Latch.ops_length_le (l : Latch) : l.ops.length ≤ 145 := by
  cases l <;> simp [Latch.ops, startOps, bitOps, stopOps]

/-- Every command in flight has a micro-operation to perform. -/
theorem Latch.ops_length_pos {l : Latch} (h : l ≠ .idle) : 0 < l.ops.length := by
  cases l <;> simp_all [Latch.ops, startOps, bitOps, stopOps]

/-- The bits of a frame leave the chip-selects alone. -/
theorem Lines.performAll_bits (l : Lines) (bits : List Level) :
    (l.performAll (bits.flatMap bitOps)).cs1 = l.cs1 ∧ (l.performAll (bits.flatMap bitOps)).cs2 = l.cs2 := by
  induction bits generalizing l with
  | nil => simp
  | cons b bits ih =>
    rw [List.flatMap_cons, Lines.performAll_append]
    refine ⟨(ih _).1.trans ?_, (ih _).2.trans ?_⟩ <;> simp [bitOps, waitOp, Lines.set]

/-- A channel write leaves clock and data high and the chip-selects at its levels, from any start state. -/
theorem Lines.performAll_write (l : Lines) (j : WriteJob) :
    l.performAll (writeOps j) = { clock := high, data := high, cs1 := j.cs1, cs2 := j.cs2 } := by
  have h := Lines.performAll_bits ((l.performAll [.set .cs1 j.cs1, .set .cs2 j.cs2]).performAll startOps) (frameBits j.frame)
  simp only [writeOps, Lines.performAll_append]
  generalize hm : ((l.performAll [.set .cs1 j.cs1, .set .cs2 j.cs2]).performAll startOps).performAll
    ((frameBits j.frame).flatMap bitOps) = m at h ⊢
  simp [startOps, waitOp, Lines.set] at h
  simp [stopOps, waitOp, Lines.set, h]

theorem OutCache.performAll_bits (c : OutCache) (bits : List Level) : c.performAll (bits.flatMap bitOps) = c := by
  induction bits generalizing c with
  | nil => simp
  | cons b bits ih => rw [List.flatMap_cons, OutCache.performAll_append, ih]; simp [bitOps, waitOp]

/-- A channel write changes one cache slot, to its clamped value. -/
theorem OutCache.performAll_write (c : OutCache) (j : WriteJob) : c.performAll (writeOps j) = c.set j.slot j.value := by
  simp only [writeOps, OutCache.performAll_append, OutCache.performAll_bits]
  simp [startOps, stopOps, waitOp]

theorem traceMicros_bits (bits : List Level) : traceMicros ((bits.flatMap bitOps).map MicroOp.event) = 10 * bits.length := by
  induction bits with
  | nil => simp
  | cons b bits ih =>
    rw [List.flatMap_cons, List.map_append, traceMicros_append, ih]
    simp [bitOps, waitOp, MicroOp.event, Event.micros]; omega

/-- A channel write lasts at least 285 microseconds (R147). -/
theorem traceMicros_write (j : WriteJob) : traceMicros (Latch.write j).events = 285 := by
  simp [Latch.events, Latch.ops, writeOps, traceMicros_bits, startOps, stopOps, waitOp, MicroOp.event, Event.micros]

/-! ### Channel writes -/

/-- A channel write answers a next state exactly when the Range has a meaning. -/
theorem State.runWrite_ok {s : State} (ch : Int) (v : Value) (h : s.config.range.Ok) :
    s.runWrite ch v = .next (s.runCommand (.write (writeJob ch v s.config.range))) := by simp [State.runWrite, h]

theorem State.runWrite_bad {s : State} (ch : Int) (v : Value) (h : ¬ s.config.range.Ok) : s.runWrite ch v = .refused .badRange := by
  simp [State.runWrite, h]

/-- The level last written to a line by two traces, one after the other. -/
theorem lastLevel_append (n : Line) (es fs : List Event) : lastLevel n (es ++ fs) = (lastLevel n fs).orElse fun _ => lastLevel n es := by
  induction es with
  | nil => simp [lastLevel]
  | cons e es ih => cases e <;> simp [lastLevel, ih]; cases lastLevel n fs <;> simp

/-- The value last written to a slot by two traces, one after the other. -/
theorem lastCached_append (k : Channel) (es fs : List Event) : lastCached k (es ++ fs) = (lastCached k fs).orElse fun _ => lastCached k es := by
  induction es with
  | nil => simp [lastCached]
  | cons e es ih => cases e <;> simp [lastCached, ih]; cases lastCached k fs <;> simp

end Sys2Proof.Machine
end

