-- ==== Sys2Proof/Laws/Encoding.lean ====
section
/-! SUPPORT. The command word's fields under `assemble`, the Q16.16 transport, and the bits of a frame. -/

namespace Sys2Proof

/-! ### Fields of an assembled word -/

/-- The bits of an assembled word, field by field (R80). -/
theorem assemble_getLsbD (op : BitVec 4) (bit : Level) (chan : BitVec 8) (value : NumWord) (i : Nat) :
    (assemble op bit chan value).getLsbD i =
      if i < 32 then value.getLsbD i
      else if i < 40 then chan.getLsbD (i - 32)
      else if i < 41 then bit
      else if i < 44 then false
      else op.getLsbD (i - 44) := by
  change BitVec.getLsbD (w := 4 + 3 + 1 + 8 + 32) (op ++ (0#3 : BitVec 3) ++ BitVec.ofBool bit ++ chan ++ value) i = _
  simp only [BitVec.getLsbD_append]
  rcases Nat.lt_or_ge i 32 with h | h
  · simp [h]
  rcases Nat.lt_or_ge i 40 with h1 | h1
  · simp [Nat.not_lt.2 h, h1, show i - 32 < 8 by omega]
  rcases Nat.lt_or_ge i 41 with h2 | h2
  · obtain rfl : i = 40 := by omega
    cases bit <;> rfl
  rcases Nat.lt_or_ge i 44 with h3 | h3
  · simp [Nat.not_lt.2 h, Nat.not_lt.2 h1, Nat.not_lt.2 h2, h3, show ¬ i - 32 < 8 by omega, show ¬ i - 32 - 8 < 1 by omega,
      show i - 32 - 8 - 1 < 3 by omega]
  · simp [Nat.not_lt.2 h, Nat.not_lt.2 h1, Nat.not_lt.2 h2, Nat.not_lt.2 h3, show ¬ i - 32 < 8 by omega,
      show ¬ i - 32 - 8 < 1 by omega, show ¬ i - 32 - 8 - 1 < 3 by omega, show i - 32 - 8 - 1 - 3 = i - 44 by omega]

@[simp] theorem assemble_op (op : BitVec 4) (bit : Level) (chan : BitVec 8) (value : NumWord) :
    CmdWord.op (assemble op bit chan value) = op := by
  apply BitVec.eq_of_getLsbD_eq
  intro i hi
  simp only [CmdWord.op, BitVec.getLsbD_extractLsb', assemble_getLsbD]
  simp [hi, show ¬ 44 + i < 32 by omega, show ¬ 44 + i < 40 by omega, show ¬ 44 + i < 41 by omega]

@[simp] theorem assemble_bit (op : BitVec 4) (bit : Level) (chan : BitVec 8) (value : NumWord) :
    CmdWord.bit (assemble op bit chan value) = bit := by
  rw [CmdWord.bit, assemble_getLsbD]; rfl

@[simp] theorem assemble_chan (op : BitVec 4) (bit : Level) (chan : BitVec 8) (value : NumWord) :
    CmdWord.chan (assemble op bit chan value) = chan := by
  apply BitVec.eq_of_getLsbD_eq
  intro i hi
  simp only [CmdWord.chan, BitVec.getLsbD_extractLsb', assemble_getLsbD]
  simp [hi, show 32 + i < 40 by omega]

@[simp] theorem assemble_value (op : BitVec 4) (bit : Level) (chan : BitVec 8) (value : NumWord) :
    CmdWord.value (assemble op bit chan value) = value := by
  apply BitVec.eq_of_getLsbD_eq
  intro i hi
  simp only [CmdWord.value, BitVec.getLsbD_extractLsb', assemble_getLsbD]
  simp [hi]

/-! ### The decoder, one lemma per opcode (R81) -/

theorem decode_reserved {w : CmdWord} (h : w.op = 0x0#4) : decode w = .reserved := by rw [decode, h]; rfl
theorem decode_clkl {w : CmdWord} (h : w.op = 0x1#4) : decode w = .clkl := by rw [decode, h]; rfl
theorem decode_clkh {w : CmdWord} (h : w.op = 0x2#4) : decode w = .clkh := by rw [decode, h]; rfl
theorem decode_datl {w : CmdWord} (h : w.op = 0x3#4) : decode w = .datl := by rw [decode, h]; rfl
theorem decode_dath {w : CmdWord} (h : w.op = 0x4#4) : decode w = .dath := by rw [decode, h]; rfl
theorem decode_dats {w : CmdWord} (h : w.op = 0x5#4) : decode w = .dats w.bit := by rw [decode, h]; rfl
theorem decode_cs1l {w : CmdWord} (h : w.op = 0x6#4) : decode w = .cs1l := by rw [decode, h]; rfl
theorem decode_cs1h {w : CmdWord} (h : w.op = 0x7#4) : decode w = .cs1h := by rw [decode, h]; rfl
theorem decode_cs2l {w : CmdWord} (h : w.op = 0x8#4) : decode w = .cs2l := by rw [decode, h]; rfl
theorem decode_cs2h {w : CmdWord} (h : w.op = 0x9#4) : decode w = .cs2h := by rw [decode, h]; rfl
theorem decode_start {w : CmdWord} (h : w.op = 0xA#4) : decode w = .start := by rw [decode, h]; rfl
theorem decode_wbit {w : CmdWord} (h : w.op = 0xB#4) : decode w = .wbit w.bit := by rw [decode, h]; rfl
theorem decode_stop {w : CmdWord} (h : w.op = 0xC#4) : decode w = .stop := by rw [decode, h]; rfl
theorem decode_wrch {w : CmdWord} (h : w.op = 0xD#4) : decode w = .wrch w.chan.toInt (q16 w.value) := by rw [decode, h]; rfl
theorem decode_awr {w : CmdWord} (h : w.op = 0xE#4) : decode w = .awr w.chan.toInt (q16 w.value) := by rw [decode, h]; rfl
theorem decode_dwr {w : CmdWord} (h : w.op = 0xF#4) : decode w = .dwr w.chan.toInt w.value.toInt := by rw [decode, h]; rfl

/-- Every opcode is one of the sixteen of R81. -/
theorem op_cases (op : BitVec 4) :
    op = 0x0#4 ∨ op = 0x1#4 ∨ op = 0x2#4 ∨ op = 0x3#4 ∨ op = 0x4#4 ∨ op = 0x5#4 ∨ op = 0x6#4 ∨ op = 0x7#4 ∨ op = 0x8#4 ∨
      op = 0x9#4 ∨ op = 0xA#4 ∨ op = 0xB#4 ∨ op = 0xC#4 ∨ op = 0xD#4 ∨ op = 0xE#4 ∨ op = 0xF#4 := by
  revert op; decide

/-! ### Formats: a word with its ignored fields cleared (R82, R84) -/

/-- Format Z keeps `op`. -/
theorem assemble_formatZ (w : CmdWord) : assemble w.op low 0 0 = w &&& 0xF00000000000#48 := by
  apply BitVec.eq_of_getLsbD_eq
  intro i hi
  rw [assemble_getLsbD, BitVec.getLsbD_and]
  simp only [CmdWord.op, BitVec.getLsbD_extractLsb']
  interval_cases i <;> simp

/-- Format B keeps `op` and `bit`. -/
theorem assemble_formatB (w : CmdWord) : assemble w.op w.bit 0 0 = w &&& 0xF10000000000#48 := by
  apply BitVec.eq_of_getLsbD_eq
  intro i hi
  rw [assemble_getLsbD, BitVec.getLsbD_and]
  simp only [CmdWord.op, CmdWord.bit, BitVec.getLsbD_extractLsb']
  interval_cases i <;> simp

/-- Format CV keeps `op`, `chan` and `value`. -/
theorem assemble_formatCV (w : CmdWord) : assemble w.op low w.chan w.value = w &&& 0xF0FFFFFFFFFF#48 := by
  apply BitVec.eq_of_getLsbD_eq
  intro i hi
  rw [assemble_getLsbD, BitVec.getLsbD_and]
  simp only [CmdWord.op, CmdWord.chan, CmdWord.value, BitVec.getLsbD_extractLsb']
  interval_cases i <;> simp

/-! ### The transport of numbers -/

/-- An integer that fits 32 bits is the signed integer of its word. -/
theorem toInt_ofInt_32 {n : Int} (h : IntFits n) : (BitVec.ofInt 32 n).toInt = n := by
  rw [BitVec.toInt_ofInt, Int.bmod_eq_of_le] <;> simp only [IntFits] at h <;> omega

/-- A channel number that fits 8 bits is the signed integer of its field. -/
theorem toInt_ofInt_8 {n : Int} (h : ChanFits n) : (BitVec.ofInt 8 n).toInt = n := by
  rw [BitVec.toInt_ofInt, Int.bmod_eq_of_le] <;> simp only [ChanFits] at h <;> omega

/-- A Q16.16 value in units of 1/65536 is the value. -/
theorem mkRat_q16Units {v : Value} (h : v.den ∣ 65536) : mkRat (q16Units v) 65536 = v := by
  obtain ⟨k, hk⟩ := h
  have hd : 0 < v.den := v.den_pos
  have hk0 : k ≠ 0 := by rintro rfl; simp at hk
  have : (65536 / v.den : Nat) = k := by rw [hk, Nat.mul_div_cancel_left _ hd]
  rw [q16Units, this, hk, Nat.mul_comm v.den k, Int.mul_comm]
  rw [Rat.mkRat_mul_left hk0]
  exact v.mkRat_self

/-- Reading the word of a Q16.16 value gives the value back. -/
theorem q16_encodeNum {v : Value} (h : NumFits v) : q16 (encodeNum v) = v := by
  rw [q16, encodeNum, toInt_ofInt_32 h.2, mkRat_q16Units h.1]

/-- `q16` as the quotient the spec writes. -/
theorem q16_eq_div (w : NumWord) : q16 w = (w.toInt : Rat) / 65536 := by
  rw [q16, Rat.mkRat_eq_div]; norm_cast

/-- A Q16.16 word reads as a whole number of 1/65536. -/
theorem q16_den_dvd (n : NumWord) : (q16 n).den ∣ 65536 := by
  have h := Rat.den_dvd n.toInt 65536
  have hq : q16 n = Rat.divInt n.toInt 65536 := by rw [q16]; rfl
  rw [hq]; exact_mod_cast h

/-- The units of a Q16.16 word are its signed integer. -/
theorem q16Units_q16 (n : NumWord) : q16Units (q16 n) = n.toInt := by
  have h := mkRat_q16Units (q16_den_dvd n)
  rw [Rat.mkRat_eq_div, q16_eq_div] at h
  have h1 := congrArg (· * (65536 : Rat)) h
  simp only [Nat.cast_ofNat] at h1
  rw [div_mul_cancel₀ _ (by norm_num), div_mul_cancel₀ _ (by norm_num)] at h1
  rw [q16_eq_div]; exact_mod_cast h1

/-- The value field always fits. -/
theorem intFits_toInt (n : NumWord) : IntFits n.toInt := by
  have h1 := n.toInt_lt
  have h2 := BitVec.le_toInt n
  norm_num at *
  constructor <;> omega

/-- The channel field always fits. -/
theorem chanFits_toInt (n : BitVec 8) : ChanFits n.toInt := by
  have h1 := n.toInt_lt
  have h2 := BitVec.le_toInt n
  norm_num at *
  constructor <;> omega

/-- Every Q16.16 word reads as a value the word can carry. -/
theorem numFits_q16 (n : NumWord) : NumFits (q16 n) := ⟨q16_den_dvd n, by rw [q16Units_q16]; exact intFits_toInt n⟩

end Sys2Proof

namespace Sys2Proof.Machine

/-- The bits of a frame, field by field (R70). -/
theorem frame_getLsbD (a : Level) (code : Code) (i : Nat) :
    (frame a code).getLsbD i =
      if i < 1 then true
      else if i < 9 then code.getLsbD (i - 1)
      else if i < 10 then true
      else if i < 14 then code.getLsbD (i - 10 + 8)
      else if i < 18 then false
      else if i < 19 then true
      else if i < 20 then false
      else if i < 21 then a
      else (0b110000#6).getLsbD (i - 21) := by
  change BitVec.getLsbD (w := 6 + 1 + 1 + 1 + 4 + 4 + 1 + 8 + 1)
    (0b110000#6 ++ BitVec.ofBool a ++ 0#1 ++ 1#1 ++ 0#4 ++ code.extractLsb' 8 4 ++ 1#1 ++ code.extractLsb' 0 8 ++ 1#1) i = _
  simp only [BitVec.getLsbD_append]
  by_cases hi : i < 27
  · interval_cases i <;> simp
  · simp only [show ¬ i < 1 by omega, show ¬ i < 9 by omega, show ¬ i < 10 by omega, show ¬ i < 14 by omega,
      show ¬ i < 18 by omega, show ¬ i < 19 by omega, show ¬ i < 20 by omega, show ¬ i < 21 by omega,
      show ¬ i - 1 < 8 by omega, show ¬ i - 1 - 8 < 1 by omega, show ¬ i - 1 - 8 - 1 < 4 by omega,
      show ¬ i - 1 - 8 - 1 - 4 < 4 by omega, show ¬ i - 1 - 8 - 1 - 4 - 4 < 1 by omega,
      show ¬ i - 1 - 8 - 1 - 4 - 4 - 1 < 1 by omega, show ¬ i - 1 - 8 - 1 - 4 - 4 - 1 - 1 < 1 by omega, if_false]
    rw [show i - 1 - 8 - 1 - 4 - 4 - 1 - 1 - 1 = i - 21 by omega]

end Sys2Proof.Machine
end

