-- ==== Sys2Proof/Laws/Operands.lean ====
section
/-! SUPPORT. Laws of the operands and of the lists computed from them: clamp, scale, the frame's bits in sending order, counts of a
channel write, prefixes of its list. -/

namespace Sys2Proof.Machine

open Sys2Proof (Instr Level Value NumWord CmdWord Code Frame Line Channel Range)

/-- A clamped value lies in a good Range (R141). -/
theorem clamp_mem (v : Value) (r : Range) (h : r.Ok) : r.minVal ≤ clamp v r ∧ clamp v r ≤ r.maxVal := by
  unfold clamp; split
  · exact ⟨le_refl _, h.le⟩
  · split
    · exact ⟨h.le, le_refl _⟩
    · constructor <;> linarith

/-- `maxVal` clamps to itself. -/
theorem clamp_max (r : Range) (h : r.Ok) : clamp r.maxVal r = r.maxVal := by
  have : r.minVal < r.maxVal := h
  simp [clamp, this.le]

/-- `minVal` clamps to itself. -/
theorem clamp_min (r : Range) (h : r.Ok) : clamp r.minVal r = r.minVal := by
  have : r.minVal < r.maxVal := h
  simp [clamp, this.le]

/-- The scale is Mathlib's floor of the quotient (R142). -/
theorem scale_floor (c : Value) (r : Range) : scale c r = ⌊(4095 : Rat) * (c - r.minVal) / (r.maxVal - r.minVal)⌋ := by
  simp only [scale]; rfl

/-- A Range presented as two Q16.16 words is good exactly when the signed integers are in order (R27, R143). -/
theorem q16Range_ok_iff (lo hi : NumWord) : (q16Range lo hi).Ok ↔ lo.toInt < hi.toInt := by
  rw [Range.Ok, q16Range, q16_eq_div, q16_eq_div, div_lt_div_iff_of_pos_right (by norm_num)]
  exact Int.cast_lt

/-- The resolution as R144 prints it: 3, 2, and every other integer. -/
theorem resolve_eq (ch : Int) : resolve ch = if ch = 3 then .ch3 else if ch = 2 then .ch2 else .ch1 := by
  simp only [resolve, channelOfNumber]
  split_ifs <;> first | rfl | omega

/-- The slot and chip-select levels of a channel write, by channel number (R144). -/
theorem writeJob_fields (ch : Int) (v : Value) (r : Range) : 
   ((writeJob ch v r).slot, (writeJob ch v r).cs1, (writeJob ch v r).cs2) = (if ch = 3 then (Channel.ch3, true, true) else if ch = 2 then (Channel.ch2, false, true)
        else (Channel.ch1, true, false)) := by
  simp only [writeJob, resolve_eq]
  split_ifs <;> rfl

/-- The mask of the fixed bits, as R77 prints it. -/
@[simp] theorem fixedMask_eq : fixedMask = 0x7EFC201#27 := by decide

/-- What the fixed bits of a frame must be, as R77 prints it. -/
@[simp] theorem fixedBits_eq : fixedBits = 0x6040201#27 := by decide

/-- The bits of a frame in sending order (R71). -/
theorem frameBits_eq (f : Frame) : frameBits f = (List.range 27).map (fun i => f.getLsbD (26 - i)) := by
  simp [frameBits, List.range, List.range.loop, BitVec.getMsbD]

/-- Reading the first `n` of 27 bits as a number gives the number's top `n` bits. -/
theorem foldl_bits (x n : Nat) (h : n ≤ 27) (hx : x < 2 ^ 27) :
    ((List.range n).map (fun i => x.testBit (26 - i))).foldl (fun m b => 2 * m + b.toNat) 0 = x / 2 ^ (27 - n) := by
  induction n with
  | zero => simp; omega
  | succ n ih =>
    rw [List.range_succ, List.map_append, List.foldl_append, ih (by omega)]
    simp only [List.map, List.foldl, Nat.toNat_testBit]
    rw [show 27 - n = (26 - n) + 1 by omega, show 27 - (n + 1) = 26 - n by omega, pow_succ, ← Nat.div_div_eq_div_mul]
    omega

/-- A frame read back from its bits in sending order is the frame (R71). -/
theorem frameOfBits_frameBits (f : Frame) : frameOfBits (frameBits f) = f := by
  rw [frameBits_eq]
  apply BitVec.eq_of_toNat_eq
  have := foldl_bits f.toNat 27 (by omega) f.isLt
  simp only [frameOfBits, BitVec.toNat_ofNat, BitVec.getLsbD]
  rw [this]
  simp
  exact f.isLt

/-- Counting events of the bits of a frame: the same for every bit. -/
theorem countP_bits (p : Event → Bool) (bits : List Level) (c : Nat) (h : ∀ b, ((bitOps b).map MicroOp.event).countP p = c) :
    (((bits.flatMap bitOps).map MicroOp.event).countP p) = c * bits.length := by
  induction bits with
  | nil => simp
  | cons b bs ih => rw [List.flatMap_cons, List.map_append, List.countP_append, ih, h]; simp; ring

/-- Line writes and waits of a channel write (R147). -/
theorem write_counts (j : WriteJob) : (Latch.write j).events.countP Event.isSet = 87 ∧ (Latch.write j).events.countP Event.isWait = 57 := by
  constructor
  · rw [Latch.events, Latch.ops, writeOps]
    simp only [List.map_append, List.countP_append, countP_bits Event.isSet _ 3 (fun b => rfl), frameBits_length]
    rfl
  · rw [Latch.events, Latch.ops, writeOps]
    simp only [List.map_append, List.countP_append, countP_bits Event.isWait _ 2 (fun b => rfl), frameBits_length]
    rfl

/-- A prefix of the bits' list: whole bits, then part of one. -/
theorem bits_take (bits : List Level) (k : Nat) (hk : k < bits.length) (m : Nat) (hm : m ≤ 5):
   (bits.flatMap bitOps).take (5 * k + m) = (bits.take k).flatMap bitOps ++ (bitOps bits[k]).take m := by
  induction bits generalizing k with
  | nil => simp at hk
  | cons b bits ih =>
    cases k with
    | zero => simp [List.flatMap_cons, bitOps]; interval_cases m <;> simp
    | succ k =>
      rw [List.flatMap_cons, show 5 * (k+1) + m = 5 + (5 * k + m) by omega, List.take_append]
      simp only [List.take_succ_cons, List.flatMap_cons, List.append_assoc]
      rw [List.take_of_length_le (by simp [bitOps])]
      congr 1
      rw [show 5 + (5 * k + m) - (bitOps b).length = 5 * k + m by simp [bitOps]]
      exact ih k (by simpa using hk)

/-- A prefix of a channel write that ends within bit `k` (R147). -/
theorem take_write (j : WriteJob) (k m : Nat) (hk : k < 27) (hm : m ≤ 5) :
    (Latch.write j).ops.take (5 + 5 * k + m) = [.set .cs1 j.cs1, .set .cs2 j.cs2] ++ startOps ++
      (((frameBits j.frame).take k).flatMap bitOps ++ (bitOps (j.frame.getLsbD (26 - k))).take m) := by
  have hb := bits_take (frameBits j.frame) k (by simpa using hk) m hm
  have hg : (frameBits j.frame)[k]'(by simpa using hk) = j.frame.getLsbD (26 - k) := by
    simp [frameBits_eq]
  rw [hg] at hb
  rw [← hb, Latch.ops, writeOps]
  have e : ([MicroOp.set .cs1 j.cs1, .set .cs2 j.cs2] ++ startOps).length = 5 := rfl
  simp only [List.append_assoc ([MicroOp.set .cs1 j.cs1, .set .cs2 j.cs2] ++ startOps)]
  rw [List.take_append, e, List.take_of_length_le (by rw [e]; omega), List.take_append]
  rw [show 5 + 5 * k + m - 5 = 5 * k + m by omega, List.take_append_of_le_length, 
    show 5 * k + m - ((frameBits j.frame).flatMap bitOps ++ stopOps).length = 0 by
      rw [List.length_append, flatMap_bitOps_length, frameBits_length]; omega]
  · simp
  · rw [flatMap_bitOps_length, frameBits_length]; omega

end Sys2Proof.Machine
end

