-- ==== Sys2Proof/Laws/Exec.lean ====
section
/-! SUPPORT. What `exec` can do, said once: refuse a bad Range, do nothing, or run one latched command; and the latch of a command. -/

namespace Sys2Proof.Machine

open Sys2Proof (Instr Level Value Line Channel Range)

/-- Every meaning is its latched command run to the end: `exec` and `accept` share one latch. -/
theorem exec_eq_latchOf (i : Instr) (s : State) :
    exec i s =
      match latchOf i s.config.range with
      | .error r => .refused r
      | .ok .idle => .next s
      | .ok l => .next (s.runCommand l) := by
  cases i with
  | wrch ch v =>
    by_cases h : s.config.range.Ok
    · simp [exec, execWrch, State.runWrite_ok _ _ h, latchOf, h, latchWrch]
    · simp [exec, execWrch, State.runWrite_bad _ _ h, latchOf, h]
  | awr ch v =>
    by_cases h : s.config.range.Ok
    · simp [exec, execAwr, State.runWrite_ok _ _ h, latchOf, h, latchAwr]
    · simp [exec, execAwr, State.runWrite_bad _ _ h, latchOf, h]
  | dwr ch d =>
    by_cases h : s.config.range.Ok
    · simp [exec, execDwr, State.runWrite_ok _ _ h, latchOf, h, latchDwr]
    · simp [exec, execDwr, State.runWrite_bad _ _ h, latchOf, h]
  | reserved => rfl
  | clkl => rfl
  | clkh => rfl
  | datl => rfl
  | dath => rfl
  | dats b => rfl
  | cs1l => rfl
  | cs1h => rfl
  | cs2l => rfl
  | cs2h => rfl
  | start => rfl
  | wbit b => rfl
  | stop => rfl

/-- What a command can latch: nothing, a refusal of a bad Range, or one of the five kinds of work. -/
theorem latchOf_cases (i : Instr) (r : Range) :
    (i = .reserved ∧ latchOf i r = .ok .idle) ∨
    (∃ n v, primitiveWrite i = some (n, v) ∧ latchOf i r = .ok (.line n v)) ∨
    (i = .start ∧ latchOf i r = .ok .start) ∨
    (∃ b, i = .wbit b ∧ latchOf i r = .ok (.bit b)) ∨
    (i = .stop ∧ latchOf i r = .ok .stop) ∨
    (isFrameCmd i = true ∧ ¬ r.Ok ∧ latchOf i r = .error .badRange) ∨
    (isFrameCmd i = true ∧ r.Ok ∧ ∃ ch v, latchOf i r = .ok (.write (writeJob ch v r))) := by
  by_cases hr : r.Ok <;> cases i <;>
    simp [latchOf, primitiveWrite, latchClkl, latchClkh, latchDatl, latchDath, latchDats, latchCs1l, latchCs1h, latchCs2l,
      latchCs2h, latchStart, latchWbit, latchStop, latchWrch, latchAwr, latchDwr, isFrameCmd, hr]
  all_goals exact ⟨_, _, rfl⟩

/-- What `exec` can do when it answers a next state: nothing at all, or run one latched command. -/
theorem exec_next_cases {i : Instr} {s t : State} (h : exec i s = .next t) :
    (i = .reserved ∧ t = s) ∨ ∃ l, l ≠ .idle ∧ latchOf i s.config.range = .ok l ∧ t = s.runCommand l := by
  rw [exec_eq_latchOf] at h
  split at h
  · cases h
  · rename_i heq
    rcases latchOf_cases i s.config.range with ⟨hi, -⟩ | ⟨_, _, _, hl⟩ | ⟨_, hl⟩ | ⟨_, _, hl⟩ | ⟨_, hl⟩ | ⟨_, _, hl⟩ | ⟨_, _, _, _, hl⟩
    · exact .inl ⟨hi, by cases h; rfl⟩
    all_goals rw [hl] at heq; cases heq
  · rename_i l hne heq
    exact .inr ⟨l, hne, heq, by cases h; rfl⟩

/-- `exec` refuses only a Range without meaning. -/
theorem exec_refused {i : Instr} {s : State} {r : Refusal} (h : exec i s = .refused r) : r = .badRange ∧ ¬ s.config.range.Ok := by
  rw [exec_eq_latchOf] at h
  rcases latchOf_cases i s.config.range with ⟨_, hl⟩ | ⟨_, _, _, hl⟩ | ⟨_, hl⟩ | ⟨_, _, hl⟩ | ⟨_, hl⟩ | ⟨_, hb, hl⟩ | ⟨_, _, _, _, hl⟩ <;>
    rw [hl] at h <;> cases h
  exact ⟨rfl, hb⟩

/-- With a good Range every command answers a next state. -/
theorem exec_total (i : Instr) {s : State} (hr : s.config.range.Ok) : ∃ t, exec i s = .next t := by
  rw [exec_eq_latchOf]
  rcases latchOf_cases i s.config.range with ⟨_, hl⟩ | ⟨_, _, _, hl⟩ | ⟨_, hl⟩ | ⟨_, _, hl⟩ | ⟨_, hl⟩ | ⟨_, hb, _⟩ | ⟨_, _, _, _, hl⟩
  case inr.inr.inr.inr.inr.inl => exact absurd hr hb
  all_goals rw [hl]; exact ⟨_, rfl⟩

/-- A signal-line primitive is one line write, run as a command (R100). -/
theorem exec_primitive {i : Instr} {n : Line} {v : Level} (h : primitiveWrite i = some (n, v)) (s : State) :
    exec i s = .next (s.runCommand (.line n v)) := by
  cases i <;> simp [primitiveWrite] at h <;> (obtain ⟨rfl, rfl⟩ := h; rfl)

/-- No command changes `DIR` or the Range (R23, R26). -/
theorem exec_frame {i : Instr} {s t : State} (h : exec i s = .next t) : t.dir = s.dir ∧ t.config.range = s.config.range := by
  rcases exec_next_cases h with ⟨rfl, rfl⟩ | ⟨l, hl, hlat, rfl⟩
  · exact ⟨rfl, rfl⟩
  · simp

/-- A list of commands runs in two parts. -/
theorem execAll_append (is js : List Instr) (s t : State) (h : execAll is s = .next t) : execAll (is ++ js) s = execAll js t := by
  induction is generalizing s with
  | nil => simp [execAll] at h; subst h; rfl
  | cons i is ih =>
    simp only [execAll, List.cons_append] at h ⊢
    split at h
    · exact ih _ h
    · cases h
    · cases h

/-- A list of commands that ran has run its first part. -/
theorem execAll_split {is js : List Instr} {s t : State} (h : execAll (is ++ js) s = .next t) : ∃ u, execAll is s = .next u ∧ execAll js u = .next t := by
  induction is generalizing s with
  | nil => exact ⟨s, rfl, h⟩
  | cons i is ih =>
    simp only [execAll, List.cons_append] at h ⊢
    split at h
    · exact ih h
    · cases h
    · cases h

/-- A list of one command. -/
theorem execAll_one {i : Instr} {s t : State} : execAll [i] s = .next t ↔ exec i s = .next t := by
  simp only [execAll]
  split <;> simp_all

/-- The reserved commands of a list do nothing (R85). -/
theorem execAll_without (is : List Instr) (s : State) : execAll is s = execAll (withoutReserved is) s := by
  induction is generalizing s with
  | nil => rfl
  | cons i is ih =>
    by_cases hi : i = .reserved
    · subst hi
      have : withoutReserved (Instr.reserved :: is) = withoutReserved is := by simp [withoutReserved]
      rw [this, ← ih]; rfl
    · have : withoutReserved (i :: is) = i :: withoutReserved is := by simp [withoutReserved, hi]
      rw [this]
      simp only [execAll]
      split
      · exact ih _
      · rfl
      · rfl

end Sys2Proof.Machine
end

