-- ==== Sys2Proof/Laws/Step.lean ====
section
/-! SUPPORT. What a step can do, said once, at the level of the whole step and of one micro-operation. -/

namespace Sys2Proof.Machine

open Sys2Proof (Instr Level Value Line Channel Range)

/-- Accepting a command at the micro level: the latched command, or nothing for the reserved one. -/
theorem accept_next_cases {i : Instr} {s t : State} (h : accept i s = .next t) :
    (i = .reserved ∧ t = s) ∨ ∃ l, l ≠ .idle ∧ latchOf i s.config.range = .ok l ∧ t = (s.note l).latch l := by
  unfold accept at h
  rcases latchOf_cases i s.config.range with ⟨hi, hl⟩ | ⟨_, _, _, hl⟩ | ⟨_, hl⟩ | ⟨_, _, hl⟩ | ⟨_, hl⟩ | ⟨_, _, hl⟩ | ⟨_, _, _, _, hl⟩
  · rw [hl] at h; exact .inl ⟨hi, by cases h; rfl⟩
  case inr.inr.inr.inr.inr.inl => rw [hl] at h; cases h
  all_goals rw [hl] at h ⊢; exact .inr ⟨_, by simp, rfl, by cases h; rfl⟩

/-- `accept` refuses only a Range without meaning. -/
theorem accept_refused {i : Instr} {s : State} {r : Refusal} (h : accept i s = .refused r) : r = .badRange ∧ ¬ s.config.range.Ok := by
  unfold accept at h
  rcases latchOf_cases i s.config.range with ⟨_, hl⟩ | ⟨_, _, _, hl⟩ | ⟨_, hl⟩ | ⟨_, _, hl⟩ | ⟨_, hl⟩ | ⟨_, hb, hl⟩ | ⟨_, _, _, _, hl⟩ <;>
    rw [hl] at h <;> cases h
  exact ⟨rfl, hb⟩

/-- The ready block: constructed, idle, `rst` not asserted. -/
theorem State.ready_iff (s : State) :
    s.ready = true ↔ s.seq.busy = false ∧ s.host.input.rst = false ∧ s.seq.phase = .constructed := by
  simp [State.ready, and_assoc]

/-- The channel writes of construction at the command level, as one update: line levels of the last write, the cache, the events
and the records of each, in order. -/
theorem State.writeMinVal_cons (s : State) (k : Int) (ks : List Int) :
    s.writeMinVal (k :: ks) = (s.runLatched (.write (writeJob k s.config.range.minVal s.config.range))).writeMinVal ks := rfl

/-- What a step can do when it answers a next state. -/
theorem step_next_cases {s t : State} (h : step s = .next t) :
    (s.host.input.rst = true ∧ t = s.advanceHost.holdReset) ∨
    (s.host.input.rst = false ∧ ∃ u, t = u.advanceHost ∧
      ((s.seq.phase = .powerOn ∧ s.host.grain = .command ∧ construct Config.constants.initOrder s = .next u) ∨
       (s.seq.phase = .powerOn ∧ s.host.grain = .micro ∧ constructMicro Config.constants.initOrder s = .next u) ∨
       ((∃ left, s.seq.phase = .constructing left) ∧ u = s.stepMicro s.host.input.elapsed) ∨
       (s.seq.phase = .constructed ∧ s.seq.busy = true ∧ u = s.stepMicro s.host.input.elapsed) ∨
       (s.seq.phase = .constructed ∧ s.seq.busy = false ∧ s.host.input.cmdValid = false ∧ u = s) ∨
       (s.seq.phase = .constructed ∧ s.seq.busy = false ∧ s.host.input.cmdValid = true ∧ s.host.grain = .command ∧
         exec (decode s.host.input.cmd) s = .next u) ∨
       (s.seq.phase = .constructed ∧ s.seq.busy = false ∧ s.host.input.cmdValid = true ∧ s.host.grain = .micro ∧
         accept (decode s.host.input.cmd) s = .next u))) := by
  unfold step at h
  cases hr : s.host.input.rst with
  | true => rw [hr] at h; simp at h; exact .inl ⟨rfl, h.symm⟩
  | false =>
    rw [hr] at h
    simp only [Bool.false_eq_true, if_false] at h
    have hu : ∃ u, stepOut s = .next u ∧ t = u.advanceHost := by
      cases ho : stepOut s <;> rw [ho] at h <;> simp [advanceHostAfter] at h
      exact ⟨_, rfl, h.symm⟩
    obtain ⟨u, hu, rfl⟩ := hu
    refine .inr ⟨rfl, u, rfl, ?_⟩
    unfold stepOut at hu
    cases hp : s.seq.phase with
    | powerOn =>
      rw [hp] at hu
      cases hg : s.host.grain <;> rw [hg] at hu
      · exact .inl ⟨rfl, rfl, hu⟩
      · exact .inr (.inl ⟨rfl, rfl, hu⟩)
    | constructing left =>
      rw [hp] at hu
      simp at hu
      exact .inr (.inr (.inl ⟨⟨left, rfl⟩, hu.symm⟩))
    | constructed =>
      rw [hp] at hu
      cases hb : s.seq.busy with
      | true => rw [hb] at hu; simp at hu; exact .inr (.inr (.inr (.inl ⟨rfl, rfl, hu.symm⟩)))
      | false =>
        rw [hb] at hu
        have hready : s.ready = true := s.ready_iff.2 ⟨hb, hr, hp⟩
        cases hv : s.host.input.cmdValid with
        | false =>
          simp [State.accepted, hready, hv] at hu
          exact .inr (.inr (.inr (.inr (.inl ⟨rfl, rfl, rfl, hu.symm⟩))))
        | true =>
          simp [State.accepted, hready, hv] at hu
          cases hg : s.host.grain <;> rw [hg] at hu
          · exact .inr (.inr (.inr (.inr (.inr (.inl ⟨rfl, rfl, rfl, rfl, hu⟩)))))
          · exact .inr (.inr (.inr (.inr (.inr (.inr ⟨rfl, rfl, rfl, rfl, hu⟩)))))

/-- What one step of the sequencer can do: hold on a wait, perform the micro-operation at the index and go on, or complete. -/
theorem State.stepMicro_cases (s : State) (elapsed : Nat) :
    (∃ us, s.seq.cur.ops[s.seq.upc.toNat]? = some (.wait us) ∧ elapsed < s.seq.waitLeft us ∧
      s.stepMicro elapsed = { s with seq := { s.seq with waitCnt := s.seq.waitLeft us - elapsed } }) ∨
    (∃ us, s.seq.cur.ops[s.seq.upc.toNat]? = some (.wait us) ∧ s.seq.waitLeft us ≤ elapsed ∧
      s.stepMicro elapsed = ({ s with seq := { s.seq with waitCnt := 0 } }.perform (.wait us)).advanceUpc) ∨
    (∃ op, s.seq.cur.ops[s.seq.upc.toNat]? = some op ∧ (∀ us, op ≠ .wait us) ∧
      s.stepMicro elapsed = (s.perform op).advanceUpc) ∨
    (s.seq.cur.ops[s.seq.upc.toNat]? = none ∧ s.stepMicro elapsed = s.finishMicro) := by
  unfold State.stepMicro
  cases h : s.seq.cur.ops[s.seq.upc.toNat]? with
  | none => exact .inr (.inr (.inr ⟨rfl, rfl⟩))
  | some op =>
    cases op with
    | set n v => exact .inr (.inr (.inl ⟨_, rfl, by simp, rfl⟩))
    | cache k q => exact .inr (.inr (.inl ⟨_, rfl, by simp, rfl⟩))
    | wait us =>
      rcases Nat.lt_or_ge elapsed (s.seq.waitLeft us) with hl | hl
      · exact .inl ⟨us, rfl, hl, by simp [hl]⟩
      · exact .inr (.inl ⟨us, rfl, hl, by simp [Nat.not_lt.2 hl]⟩)

/-- Every wait in a list is five microseconds long (R121, R211). -/
theorem Latch.waits_are_five (l : Latch) (us : Nat) (h : MicroOp.wait us ∈ l.ops) : us = 5 := by
  cases l with
  | idle => simp [Latch.ops] at h
  | line n v => simp [Latch.ops] at h
  | start => simpa [Latch.ops, startOps, waitOp] using h
  | bit b => simpa [Latch.ops, bitOps, waitOp] using h
  | stop => simpa [Latch.ops, stopOps, waitOp] using h
  | write j =>
    simp [Latch.ops, writeOps, startOps, stopOps, bitOps, waitOp] at h
    omega

/-- No steps. -/
theorem run_zero (s : State) : Host.Core.run Sys2Proof.core 0 s = .next s := rfl

/-- One step, then the rest. -/
theorem run_succ (n : Nat) {s t : State} (h : step s = .next t) :
    Host.Core.run Sys2Proof.core (n + 1) s = Host.Core.run Sys2Proof.core n t := by
  have h' : Sys2Proof.core.step s = .next t := h
  simp only [Host.Core.run, h']

/-- A run in two parts. -/
theorem run_add (m n : Nat) {s t : State} (h : Host.Core.run Sys2Proof.core m s = .next t) :
    Host.Core.run Sys2Proof.core (m + n) s = Host.Core.run Sys2Proof.core n t := by
  induction m generalizing s with
  | zero => rw [run_zero] at h; cases h; rw [Nat.zero_add]
  | succ m ih =>
    cases hs : step s with
    | next u => rw [run_succ m hs] at h; rw [show m + 1 + n = (m + n) + 1 by omega, run_succ _ hs]; exact ih h
    | fault f => cases f
    | refused r =>
      have h' : Sys2Proof.core.step s = .refused r := hs
      simp only [Host.Core.run, h'] at h
      cases h

/-- A step with a command in flight is one step of the sequencer (R31). -/
theorem step_inFlight {s : State} (hr : s.host.input.rst = false) (hp : s.seq.phase ≠ .powerOn)
    (hb : s.seq.phase = .constructed → s.seq.busy = true) :
    step s = .next (s.stepMicro s.host.input.elapsed).advanceHost := by
  unfold step stepOut
  rw [hr]
  cases h : s.seq.phase
  · exact absurd h hp
  · rfl
  · simp [hb h]; rfl

/-- A micro-operation that nothing holds is performed, and the index goes on (R31). -/
theorem stepMicro_go {s : State} {op : MicroOp} (e : Nat) (hw : s.seq.waitCnt = 0) (hop : s.seq.cur.ops[s.seq.upc.toNat]? = some op)
    (he : ∀ us, op = .wait us → us ≤ e) : s.stepMicro e = (s.perform op).advanceUpc := by
  rcases s.stepMicro_cases e with ⟨us, h, hl, -⟩ | ⟨us, h, hl, h'⟩ | ⟨op', h, -, h'⟩ | ⟨h, -⟩
  · rw [hop] at h; cases h
    have := he us rfl
    simp [Sequencer.waitLeft, hw] at hl; omega
  · rw [hop] at h; cases h
    rw [h']
    congr 2
    cases s with | mk a b c d seq f g => cases seq; simp at hw; simp [hw]
  · rw [hop] at h; cases h; exact h'
  · rw [hop] at h; cases h

/-- Accepting a command changes neither `DIR` nor the Range. -/
theorem accept_frame {i : Instr} {s t : State} (h : accept i s = .next t) : t.dir = s.dir ∧ t.config.range = s.config.range := by
  rcases accept_next_cases h with ⟨rfl, rfl⟩ | ⟨l, hl, hlat, rfl⟩
  · exact ⟨rfl, rfl⟩
  · simp

/-- Completing a command writes its records and nothing else but the sequencer. -/
theorem finishMicro_frame (s : State) : s.finishMicro.dir = s.dir ∧ s.finishMicro.config.range = s.config.range ∧ s.finishMicro.lines = s.lines ∧
    s.finishMicro.outCache = s.outCache ∧ s.finishMicro.hist = s.hist.complete s.seq.cur := by
  unfold State.finishMicro
  split
  · rename_i left _; cases left <;> exact ⟨rfl, rfl, rfl, rfl, rfl⟩
  · exact ⟨rfl, rfl, rfl, rfl, rfl⟩
  · exact ⟨rfl, rfl, rfl, rfl, rfl⟩

/-- Going on to the next micro-operation changes the sequencer and, at the end, the records. -/
theorem advanceUpc_frame (s : State) : s.advanceUpc.dir = s.dir ∧ s.advanceUpc.config.range = s.config.range ∧ s.advanceUpc.lines = s.lines ∧
    s.advanceUpc.outCache = s.outCache ∧ (s.advanceUpc.hist = s.hist ∨ s.advanceUpc.hist = s.hist.complete s.seq.cur) := by
  unfold State.advanceUpc
  split
  · exact ⟨rfl, rfl, rfl, rfl, .inl rfl⟩
  · obtain ⟨a, b, c, d, e⟩ := finishMicro_frame s
    exact ⟨a, b, c, d, .inr e⟩

/-- No step of the sequencer changes `DIR` or the Range (R23, R26). -/
theorem stepMicro_frame (s : State) (e : Nat) : (s.stepMicro e).dir = s.dir ∧ (s.stepMicro e).config.range = s.config.range := by
  rcases s.stepMicro_cases e with ⟨us, h, hl, h'⟩ | ⟨us, h, hl, h'⟩ | ⟨op', h, hnw, h'⟩ | ⟨h, h'⟩ <;> rw [h']
  · exact ⟨rfl, rfl⟩
  · exact ⟨(advanceUpc_frame _).1, (advanceUpc_frame _).2.1⟩
  · refine ⟨(advanceUpc_frame _).1.trans ?_, (advanceUpc_frame _).2.1.trans ?_⟩ <;> rw [State.perform_eq]
  · exact ⟨(finishMicro_frame _).1, (finishMicro_frame _).2.1⟩

end Sys2Proof.Machine
end

