-- ==== Sys2Proof/Laws/Construction.lean ====
section
/-! SUPPORT. What construction does, said once (R202): refused for a bad Range, else the channel writes of the order, one after another. -/

namespace Sys2Proof.Machine

open Sys2Proof (Instr Level Value NumWord CmdWord Code Frame Line Channel Range)

/-- Steps 1 and 2 with a good Range (R202). -/
theorem beginConstruction_ok {s : State} (h : s.cfgRange.Ok) :
    beginConstruction s = .next { s with config := { range := s.cfgRange }, dir := 0b1111#4 } := by simp [beginConstruction, h]

/-- Step 1 with a bad Range (R202, R27). -/
theorem beginConstruction_bad {s : State} (h : ¬ s.cfgRange.Ok) : beginConstruction s = .refused .badRange := by
  simp [beginConstruction, h]

/-- What a list of construction writes has done: everything but the sequencer's rest (R202 step 3). -/
structure Written (s t : State) (order : List Int) : Prop where
  dir : t.dir = s.dir
  config : t.config = s.config
  host : t.host = s.host
  phase : t.seq.phase = s.seq.phase
  trace : t.hist.trace = s.hist.trace ++ constructionEvents order s.config.range
  now : t.hist.now = s.hist.now + traceMicros (constructionEvents order s.config.range)
  log : t.hist.dacLog = s.hist.dacLog ++ constructionRecords order s.config.range
  mark : t.hist.protoViolation = s.hist.protoViolation
  mon : t.hist.monitor = s.hist.monitor
  cache : t.outCache = order.foldl (fun c k => c.set (resolve k) (clamp s.config.range.minVal s.config.range)) s.outCache
  lines : t.lines = order.foldl (fun _ k => { clock := high, data := high, cs1 := (Config.constants.csLevel (resolve k)).1, cs2 := (Config.constants.csLevel (resolve k)).2 }) s.lines

/-- The channel writes of construction, as one statement. -/
theorem writeMinVal_written (order : List Int) (s : State) : Written s (s.writeMinVal order) order := by
  induction order generalizing s with
  | nil => constructor <;> simp [State.writeMinVal, constructionEvents, constructionRecords, constructionJobs]
  | cons k ks ih =>
    rw [State.writeMinVal_cons]
    have h := ih (s.runLatched (.write (writeJob k s.config.range.minVal s.config.range)))
    have hr : (s.runLatched (.write (writeJob k s.config.range.minVal s.config.range))).config.range = s.config.range := by rw [State.runLatched_eq]
    constructor
    · rw [h.dir, State.runLatched_eq]
    · rw [h.config, State.runLatched_eq]
    · rw [h.host, State.runLatched_eq]
    · rw [h.phase, State.runLatched_eq]; rfl
    · rw [h.trace, hr, State.runLatched_eq]; simp [constructionEvents, constructionJobs]
    · rw [h.now, hr, State.runLatched_eq]; simp [constructionEvents, constructionJobs, Nat.add_assoc]
    · rw [h.log, hr, State.runLatched_eq]; simp [constructionRecords, constructionJobs]
    · rw [h.mark, State.runLatched_eq]; simp
    · rw [h.mon, State.runLatched_eq]; simp
    · rw [h.cache, hr, State.runLatched_eq]; simp [Latch.ops, OutCache.performAll_write, writeJob]
    · rw [h.lines, State.runLatched_eq]; simp [Latch.ops, Lines.performAll_write, writeJob]

/-- All that construction can do when it answers a next state (R202). -/
theorem construct_next {order : List Int} {s t : State} (h : construct order s = .next t) :
    s.cfgRange.Ok ∧ t.seq = { phase := .constructed, busy := false, upc := 0#8, cur := .idle, waitCnt := 0 } ∧
    ∃ u, Written { s with config := { range := s.cfgRange }, dir := 0b1111#4 } u order ∧
      t = { u with seq := { phase := .constructed, busy := false, upc := 0#8, cur := .idle, waitCnt := 0 } } := by
  by_cases hok : s.cfgRange.Ok
  · simp only [construct, beginConstruction_ok hok] at h
    cases h
    exact ⟨hok, rfl, _, writeMinVal_written _ _, rfl⟩
  · simp [construct, beginConstruction_bad hok] at h

/-- With a good Range construction answers a next state. -/
theorem construct_ok {order : List Int} {s : State} (hok : s.cfgRange.Ok) : ∃ t, construct order s = .next t := by
  simp [construct, beginConstruction_ok hok]

/-- All that the first micro-step of construction can do when it answers a next state (R202). -/
theorem constructMicro_next {s u : State} (h : constructMicro Config.constants.initOrder s = .next u) :
    s.cfgRange.Ok ∧ u = ({ s with config := { range := s.cfgRange }, dir := 0b1111#4 } : State).nextChannel [1, 2, 3] := by
  by_cases hok : s.cfgRange.Ok
  · rw [constructMicro, beginConstruction_ok hok] at h; cases h; exact ⟨hok, rfl⟩
  · rw [constructMicro, beginConstruction_bad hok] at h; cases h

/-- A step at power-on, `rst` released, at the command level, is construction. -/
theorem step_construct {s : State} (hp : s.seq.phase = .powerOn) (hr : s.host.input.rst = false) (hg : s.host.grain = .command) :
    step s = advanceHostAfter (construct Config.constants.initOrder s) := by
  simp [step, hr, stepOut, hp, hg]

/-- The counts of construction's events (R203, R218). -/
theorem events_counts (order : List Int) (r : Range) :
    (constructionEvents order r).length = 145 * order.length ∧ (constructionEvents order r).countP Event.isWait = 57 * order.length ∧
    traceMicros (constructionEvents order r) = 285 * order.length ∧
    (constructionEvents order r).countP (fun e => Event.isSet e || Event.isWait e) = 144 * order.length := by
  have h144 : ∀ j, (Latch.write j).events.countP (fun e => Event.isSet e || Event.isWait e) = 144 := by
    intro j
    rw [Latch.events, Latch.ops, writeOps]
    simp only [List.map_append, List.countP_append, countP_bits (fun e => Event.isSet e || Event.isWait e) _ 5 (fun b => rfl), frameBits_length]
    rfl
  have wr : ∀ j, (Latch.write j).events.length = 145 := fun j => by simp [Latch.events, Latch.ops]
  induction order with
  | nil => simp [constructionEvents, constructionJobs]
  | cons k ks ih =>
    have : constructionEvents (k :: ks) r = (Latch.write (writeJob k r.minVal r)).events ++ constructionEvents ks r := by
      simp [constructionEvents, constructionJobs]
    rw [this]
    simp only [List.length_append, List.countP_append, traceMicros_append, wr, write_counts, traceMicros_write, h144, ih, List.length_cons]
    refine ⟨?_, ?_, ?_, ?_⟩ <;> omega

end Sys2Proof.Machine
end

