-- ==== Sys2Proof/Laws/PerInstr.lean ====
section
/-! SUPPORT. The family `OpField`: the `op` field of a command's word is the command's opcode (R80, R81). -/

/-- The word of a command carries its opcode in bits 47:44. -/
def Sys2Proof.Laws.OpField.Statement (i : Sys2Proof.Instr) : Prop := Sys2Proof.CmdWord.op (Sys2Proof.encode i) = i.op

namespace Sys2Proof.Laws.OpField

theorem reserved : Statement .reserved := assemble_op _ _ _ _
theorem clkl : Statement .clkl := assemble_op _ _ _ _
theorem clkh : Statement .clkh := assemble_op _ _ _ _
theorem datl : Statement .datl := assemble_op _ _ _ _
theorem dath : Statement .dath := assemble_op _ _ _ _
theorem dats (bit : Level) : Statement (.dats bit) := assemble_op _ _ _ _
theorem cs1l : Statement .cs1l := assemble_op _ _ _ _
theorem cs1h : Statement .cs1h := assemble_op _ _ _ _
theorem cs2l : Statement .cs2l := assemble_op _ _ _ _
theorem cs2h : Statement .cs2h := assemble_op _ _ _ _
theorem start : Statement .start := assemble_op _ _ _ _
theorem wbit (bit : Level) : Statement (.wbit bit) := assemble_op _ _ _ _
theorem stop : Statement .stop := assemble_op _ _ _ _
theorem wrch (ch : Int) (v : Value) : Statement (.wrch ch v) := assemble_op _ _ _ _
theorem awr (ch : Int) (v : Value) : Statement (.awr ch v) := assemble_op _ _ _ _
theorem dwr (ch : Int) (d : Int) : Statement (.dwr ch d) := assemble_op _ _ _ _

end Sys2Proof.Laws.OpField
end

