-- ==== Sys2Proof/Tests/Slice0.lean ====
section
/-! SUPPORT. The model's own tests. Expected results are written from `spec/95_test_vectors.md` (its row ids are in the names or
docstrings) or worked out by hand from the rule named. Then, for every statement with hypotheses, a witness that meets them. -/

namespace Sys2Proof.Tests

set_option Elab.async false

open Sys2Proof Sys2Proof.Machine

/-! ### Well-formed commands -/

theorem test_wf_boundaries : (Instr.wrch (-128) (-32768)).wellFormed = true ∧ (Instr.awr 127 (2147483647 / 65536)).wellFormed = true ∧
    (Instr.dwr (-128) (-2147483648)).wellFormed = true := by decide +kernel
theorem test_wf_refuses_channel_128 : (Instr.dwr 128 0).wellFormed = false := by decide
theorem test_wf_refuses_channel_below : (Instr.wrch (-129) 0).wellFormed = false := by decide +kernel
theorem test_wf_refuses_a_third : (Instr.wrch 1 (1 / 3)).wellFormed = false := by decide +kernel
theorem test_wf_refuses_32768 : (Instr.awr 1 32768).wellFormed = false := by decide +kernel
theorem test_wf_refuses_two_to_31 : (Instr.dwr 1 2147483648).wellFormed = false := by decide

/-! ### Decoding: every row of the opcode table, words of 2.1, 2.2 and 2.7 -/

theorem test_decode_reserved_K15 : decode 0x010300010000#48 = .reserved := by decide
theorem test_decode_clkl_L13 : decode 0x1F55DEADBEEF#48 = .clkl := by decide
theorem test_decode_clkl : decode 0x100000000000#48 = .clkl := by decide
theorem test_decode_clkh : decode 0x200000000000#48 = .clkh := by decide
theorem test_decode_datl : decode 0x300000000000#48 = .datl := by decide
theorem test_decode_dath : decode 0x400000000000#48 = .dath := by decide
theorem test_decode_dats : decode 0x510000000000#48 = .dats true ∧ decode 0x500000000000#48 = .dats false := by decide
theorem test_decode_cs1l : decode 0x600000000000#48 = .cs1l := by decide
theorem test_decode_cs1h : decode 0x700000000000#48 = .cs1h := by decide
theorem test_decode_cs2l : decode 0x800000000000#48 = .cs2l := by decide
theorem test_decode_cs2h : decode 0x900000000000#48 = .cs2h := by decide
theorem test_decode_start : decode 0xA00000000000#48 = .start := by decide
theorem test_decode_wbit : decode 0xB10000000000#48 = .wbit true ∧ decode 0xB00000000000#48 = .wbit false := by decide
theorem test_decode_stop : decode 0xC00000000000#48 = .stop := by decide
theorem test_decode_wrch_K3_K14 : decode 0xD0FFFFF70000#48 = .wrch (-1) (-9) ∧ decode 0xDB020000C000#48 = .wrch 2 (3 / 4) := by
  decide +kernel
theorem test_decode_awr_K7_K8 : decode 0xE00000005555#48 = .awr 0 (21845 / 65536) ∧ decode 0xE00700028000#48 = .awr 7 (5 / 2) := by
  decide +kernel
theorem test_decode_dwr_K9_K11 : decode 0xF00200000001#48 = .dwr 2 1 ∧ decode 0xF00180000000#48 = .dwr 1 (-2147483648) := by decide
theorem test_encode_K1_K11 : encode (.wrch 1 (1 / 2)) = 0xD00100008000#48 ∧ encode (.dwr 1 (-2147483648)) = 0xF00180000000#48 := by
  decide +kernel
theorem test_table_word_too_long : decodeTableWord 56 0 = none ∧ decodeTableWord 8 256 = none := by decide

/-! ### Clamp, scale, resolve, frame: 2.3 to 2.5 -/

theorem test_scale_unit_range : codeOf (1 / 2) ⟨0, 1⟩ = 2047 ∧ codeOf (1 / 4096) ⟨0, 1⟩ = 0 ∧ codeOf (1 / 4095) ⟨0, 1⟩ = 1 ∧
    codeOf (99999 / 100000) ⟨0, 1⟩ = 4094 ∧ codeOf 1 ⟨0, 1⟩ = 4095 := by decide +kernel
theorem test_scale_other_ranges : codeOf 0 ⟨-5, 5⟩ = 2047 ∧ codeOf (33 / 20) ⟨0, 33 / 10⟩ = 2047 ∧ codeOf (11 / 4) ⟨2, 3⟩ = 3071 ∧
    codeOf (-5000) ⟨-5, 5⟩ = 0 := by decide +kernel
theorem test_scale_words_A23 : codeOfWords 0x00028000#32 0xFFFB0000#32 0x00050000#32 = 3071 := by decide
theorem test_clamp : clamp (-3) ⟨0, 1⟩ = 0 ∧ clamp 7 ⟨0, 1⟩ = 1 ∧ clamp (1 / 3) ⟨0, 1⟩ = 1 / 3 := by decide +kernel
theorem test_resolve : [-128, -1, 0, 1, 2, 3, 4, 127].map resolve = [.ch1, .ch1, .ch1, .ch1, .ch2, .ch3, .ch1, .ch1] := by decide
theorem test_frame_E13_E12 : frame true 0xA5C#12 = 0x6142AB9#27 ∧ frame false 0x800#12 = 0x6042201#27 := by decide
theorem test_frame_check_E5 : [0x6142AB9#27, 0x6101FFF#27, 0x6141FFE#27, 0x2141FFF#27, 0x61C1FFF#27].map frameFixedOk =
    [true, false, false, false, false] := by decide
theorem test_fixed_bits_R77 : fixedMask = 0x7EFC201#27 ∧ fixedBits = 0x6040201#27 := by decide
theorem test_frame_fields_E13 : frameAddr 0x6142AB9#27 = true ∧ frameCode 0x6142AB9#27 = 2652#12 := by decide

/-! ### One command each -/

/-- A constructed, idle state with the lines `(CLOCK, DATA, CS1, CS2)`, an empty history and the Range `(-5, 5)`. -/
def bench (clock data cs1 cs2 : Level) : State :=
  { State.reset with
    lines := ⟨clock, data, cs1, cs2⟩, config := ⟨⟨-5, 5⟩⟩, outCache := ⟨some (-5), some (-5), some (-5)⟩,
    hist := { trace := [], now := 0, dacLog := [], protoViolation := false, monitor := .closed } }

/-- The state a command ended in, if it ended in one. -/
def after (o : Host.Outcome State Fault Refusal) : Option State :=
  match o with
  | .next s => some s
  | .fault _ => none
  | .refused _ => none

/-- Lines, events and mark after a command. -/
def seen (o : Host.Outcome State Fault Refusal) : Option (Lines × List Event × Bool) :=
  (after o).map fun s => (s.lines, s.hist.trace, s.hist.protoViolation)

theorem test_reserved : seen (exec .reserved (bench true true true false)) = some (⟨true, true, true, false⟩, [], false) := by decide
theorem test_clkl_L2 : seen (exec .clkl (bench false true true false)) = some (⟨false, true, true, false⟩, [.set .clock false], true) := by
  decide
theorem test_clkh_L3 : seen (exec .clkh (bench false true true false)) = some (⟨true, true, true, false⟩, [.set .clock true], true) := by
  decide
theorem test_datl_L4 : seen (exec .datl (bench true true true false)) = some (⟨true, false, true, false⟩, [.set .data false], true) := by
  decide
theorem test_dath_L5 : seen (exec .dath (bench true false true false)) = some (⟨true, true, true, false⟩, [.set .data true], true) := by
  decide
theorem test_dats_L6_L7 : seen (exec (.dats true) (bench false false true true)) =
      some (⟨false, true, true, true⟩, [.set .data true], true) ∧
    seen (exec (.dats false) (bench false true true true)) = some (⟨false, false, true, true⟩, [.set .data false], true) := by decide
theorem test_cs1l_L8 : seen (exec .cs1l (bench true true true false)) = some (⟨true, true, false, false⟩, [.set .cs1 false], false) := by
  decide
theorem test_cs1h_L9 : seen (exec .cs1h (bench true true false true)) = some (⟨true, true, true, true⟩, [.set .cs1 true], false) := by
  decide
theorem test_cs2l_L10 : seen (exec .cs2l (bench true true true true)) = some (⟨true, true, true, false⟩, [.set .cs2 false], false) := by
  decide
theorem test_cs2h_L11 : seen (exec .cs2h (bench true true true false)) = some (⟨true, true, true, true⟩, [.set .cs2 true], false) := by
  decide
theorem test_start_T1 : seen (exec .start (bench true true true false)) =
    some (⟨false, false, true, false⟩, [.set .data false, .wait 5, .set .clock false], false) := by decide
theorem test_wbit_T5 : seen (exec (.wbit false) (bench true true true false)) =
    some (⟨false, false, true, false⟩, [.set .data false, .wait 5, .set .clock true, .wait 5, .set .clock false], true) := by decide
theorem test_stop_T7 : seen (exec .stop (bench false true true false)) =
    some (⟨true, true, true, false⟩, [.set .clock true, .wait 5, .set .data true, .wait 5], true) := by decide

/-- Lines, cache, last frame record and time after a command. -/
def written (o : Host.Outcome State Fault Refusal) : Option (Lines × OutCache × Option DacRecord × Nat) :=
  (after o).map fun s => (s.lines, s.outCache, s.hist.dacLog.getLast?, s.hist.now)

/-- A23: 5/2 in `(-5, 5)` is code 3071; M5: channel 2. -/
theorem test_wrch : written (exec (.wrch 2 (5 / 2)) (bench true true true true)) =
    some (⟨true, true, false, true⟩, ⟨some (-5), some (5 / 2), some (-5)⟩, some ⟨false, true, frame true 3071#12⟩, 285) := by
  decide +kernel
/-- A20 and M2: clamped low, channel number -1. -/
theorem test_wrch_clamped : written (exec (.wrch (-1) (-5000)) (bench true true true true)) =
    some (⟨true, true, true, false⟩, ⟨some (-5), some (-5), some (-5)⟩, some ⟨true, false, 0x6140201#27⟩, 285) := by decide +kernel
/-- A21 and M6. -/
theorem test_awr : written (exec (.awr 3 5) (bench true true true true)) =
    some (⟨true, true, true, true⟩, ⟨some (-5), some (-5), some 5⟩, some ⟨true, true, 0x6043FFF#27⟩, 285) := by decide +kernel
theorem test_dwr_G4_G5 : written (exec (.dwr 2 1) (bench true true true true)) =
      some (⟨true, true, false, true⟩, ⟨some (-5), some 5, some (-5)⟩, some ⟨false, true, 0x6143FFF#27⟩, 285) ∧
    written (exec (.dwr 2 0) (bench true true true true)) =
      some (⟨true, true, false, true⟩, ⟨some (-5), some (-5), some (-5)⟩, some ⟨false, true, 0x6140201#27⟩, 285) := by decide +kernel

/-! ### The monitor: 2.10 -/

/-- The mark after a list of commands. -/
def mark (is : List Instr) : Option Bool := (after (execAll is (bench true true true true))).map fun s => s.hist.protoViolation

theorem test_monitor_whole_frame_H2 :
    mark ([.cs1h, .cs2h, .start] ++ (frameBits 0x6042FFF#27).map Instr.wbit ++ [.stop]) = some false := by decide +kernel
theorem test_monitor_breaches : [[Instr.start, .wbit true, .stop], [.wbit true], [.stop], [.start, .start], [.start, .wbit true, .cs1l]].map mark =
    [some true, some true, some true, some true, some true] := by decide
theorem test_monitor_wrong_bits_H10 : mark (([.start] ++ List.replicate 27 (.wbit false)) ++ [.stop]) = some true := by decide +kernel
theorem test_monitor_28_bits_H9 : mark ([.start] ++ List.replicate 27 (.wbit false)) = some false ∧
    mark ([.start] ++ List.replicate 28 (.wbit false)) = some true := by decide +kernel

/-! ### Reset, construction, the micro level -/

/-- The power-on state with `rst` released and this Range on the ports. -/
def powered (lo hi : NumWord) : State :=
  { State.reset with
    lines := ⟨false, true, false, false⟩, dir := 0#4, config := ⟨q16Range lo hi⟩, outCache := .unwritten,
    seq := { phase := .powerOn, busy := false, upc := 0#8, cur := .idle, waitCnt := 0 },
    hist := { trace := [], now := 0, dacLog := [], protoViolation := false, monitor := .closed },
    host := { State.reset.host with input := { State.reset.host.input with cfgMin := lo, cfgMax := hi } } }

/-- R3 of 2.9. -/
theorem test_construction_R3 : (after (step (powered 0xFFFB0000#32 0x00050000#32))).map
      (fun s => (s.lines, s.dir, s.outCache, s.hist.trace.length, s.hist.now, s.ready)) =
    some (⟨true, true, true, true⟩, 0b1111#4, ⟨some (-5), some (-5), some (-5)⟩, 435, 855, true) := by decide +kernel
/-- R4 of 2.9. -/
theorem test_construction_R4 : (after (step (powered 0x00020000#32 0x00010000#32))).isNone = true := by decide +kernel
/-- R5 of 2.9. -/
theorem test_construction_R5 : (after (construct [3, 2, 1] (powered 0#32 0x00010000#32))).map (fun s => s.lines) =
    some ⟨true, true, true, false⟩ := by decide +kernel

/-- A state offered a command word at one of the two levels. -/
def offered (g : Grain) (w : CmdWord) (s : State) : State :=
  { s with host := { s.host with grain := g, input := { s.host.input with cmdValid := true, cmd := w } } }

/-- A state with a command in flight at an index, and this much time passing in the coming step. -/
def flying (l : Latch) (upc : BitVec 8) (elapsed : Nat) : State :=
  { bench true true true false with
    seq := { phase := .constructed, busy := true, upc := upc, cur := l, waitCnt := 0 },
    host := { State.reset.host with input := { State.reset.host.input with elapsed := elapsed } } }

/-- R6 of 2.9: `rst` at micro-operation 70. -/
theorem test_reset_in_flight_R6 :
    (after (step { flying (.write (writeJob 1 0 ⟨-5, 5⟩)) 70#8 5 with
      host := { State.reset.host with input := { State.reset.host.input with rst := true } } })).map
      (fun s => (s.seq.phase, s.outCache, s.hist.trace, s.hist.protoViolation)) = some (.powerOn, .unwritten, [], true) := by decide +kernel
/-- R90, R213: accepted at the micro level; a second word offered while busy is ignored. -/
theorem test_micro_acceptance : (after (step (offered .micro 0xA00000000000#48 (bench true true true false)))).map
      (fun s => (s.seq.busy, s.seq.upc, s.seq.cur, s.hist.trace)) = some (true, 0#8, .start, []) := by decide
/-- R33: two microseconds of a wait. -/
theorem test_wait_holds : (after (step (flying .start 1#8 2))).map (fun s => (s.seq.upc, s.seq.waitCnt, s.hist.trace)) =
    some (1#8, 3, []) := by decide
/-- R31: the last micro-operation of `START`. -/
theorem test_completion : (after (step (flying .start 2#8 0))).map (fun s => (s.seq.busy, s.seq.upc, s.lines.clock)) =
    some (false, 0#8, false) := by decide

theorem test_fetch_word_runs : (after (step (State.reset.withFetchWord 48 0x800000000000))).map (fun s => s.lines) =
    some ⟨true, true, true, false⟩ := by decide

/-! ### Witnesses: a concrete state and operands that meet the hypotheses of each statement -/

/-- The bench, ready. -/
def idle : State := bench true true true true
/-- The bench with a Range that no construction reaches. -/
def badRanged : State := { idle with config := ⟨⟨1, 1⟩⟩ }
theorem idle_ok : idle.config.range.Ok := by decide +kernel
theorem badRanged_bad : ¬ badRanged.config.range.Ok := by decide +kernel
theorem word_K1 : decode 0xD00100008000#48 = .wrch 1 (1 / 2) := by decide +kernel
theorem badRanged_refuses (g : Grain) : exec (decode 0xD00100008000#48) (offered g 0xD00100008000#48 badRanged) = .refused .badRange := by
  rw [word_K1]
  exact State.runWrite_bad (s := offered g 0xD00100008000#48 badRanged) 1 (1 / 2) badRanged_bad

theorem witness_StepRunsTheAcceptedCommand :
    (∃ s t : State, s.seq.phase = .constructed ∧ s.seq.busy = false ∧ s.host.input.rst = false ∧ s.host.input.cmdValid = true ∧
      s.host.grain = .command ∧ exec (decode s.host.input.cmd) s = .next t) ∧
    (∃ (s : State) (r : Refusal), s.seq.phase = .constructed ∧ s.seq.busy = false ∧ s.host.input.rst = false ∧
      s.host.input.cmdValid = true ∧ s.host.grain = .command ∧ exec (decode s.host.input.cmd) s = .refused r) ∧
    ∃ (s t : State) (w : CmdWord), exec (decode w) (s.withFetchWord 48 w.toNat) = .next t :=
  ⟨⟨offered .command 0x100000000000#48 idle, _, rfl, rfl, rfl, rfl, rfl, rfl⟩,
   ⟨offered .command 0xD00100008000#48 badRanged, .badRange, rfl, rfl, rfl, rfl, rfl,
     badRanged_refuses .command⟩,
   ⟨idle, _, 0xA00000000000#48, rfl⟩⟩
theorem witness_DecodeOfEncode : (Instr.wrch (-128) (-32768)).WellFormed ∧ (Instr.awr 127 (2147483647 / 65536)).WellFormed ∧
    (Instr.dwr 127 2147483647).WellFormed ∧ Instr.reserved.WellFormed := by decide +kernel
/-- One pair for each format: Z, B, CV. -/
theorem witness_IgnoredFieldsHaveNoEffect :
    [(0x1F55DEADBEEF#48, 0x100000000000#48), (0x5F00000000FF#48, 0x510000000000#48), (0xDB020000C000#48, 0xD0020000C000#48)].all
      (fun p => decide (p.1 ≠ p.2 ∧ p.1.extractLsb' 44 4 = p.2.extractLsb' 44 4 ∧
        (p.1.extractLsb' 44 4 = 0x5#4 ∨ p.1.extractLsb' 44 4 = 0xB#4 → p.1.getLsbD 40 = p.2.getLsbD 40) ∧
        (0xD#4 ≤ p.1.extractLsb' 44 4 → p.1.extractLsb' 32 8 = p.2.extractLsb' 32 8 ∧ p.1.extractLsb' 0 32 = p.2.extractLsb' 0 32))) =
      true := by decide
theorem witness_LastPrimitiveWins : ∀ i ∈ [Instr.clkl, .dats true, .cs1h, .clkh], primitiveWrite i ≠ none := by decide
theorem witness_PrimitivesAreIndependentAndIdempotent :
    primitiveWrite .clkl = some (.clock, false) ∧ primitiveWrite .cs2h = some (.cs2, true) ∧ Line.clock ≠ Line.cs2 ∧
    ∃ u, exec .clkl idle = .next u := ⟨rfl, rfl, by decide, _, rfl⟩
theorem witness_PrimitivesChangeOneBitOfOut : ∃ s t : State, primitiveWrite (.dats false) = some (.data, false) ∧
    exec (.dats false) s = .next t := ⟨idle, _, rfl, rfl⟩
/-- The three cases of the clamp, and both ends. -/
theorem witness_ClampIntoTheRange : (⟨0, 1⟩ : Range).Ok ∧ (-1 : Value) < 0 ∧ (1 : Value) < 2 ∧ (0 : Value) ≤ 0 ∧ (1 : Value) ≤ 1 := by
  decide +kernel
theorem witness_CodeIsTheFloorAndFits : (⟨-5, 5⟩ : Range).Ok := by decide +kernel
theorem witness_IntegerScaleIsExact :
    (0x80000000#32 : NumWord).toInt < (0x7FFFFFFF#32 : NumWord).toInt ∧
    (0x80000000#32 : NumWord).toInt ≤ 2147483647 ∧ 2147483647 ≤ (0x7FFFFFFF#32 : NumWord).toInt := by decide
/-- A value in each interval, the boundary values among them: below the first step, at `maxVal`, at the lower end of step 4094. -/
theorem witness_CodeIntervals : (⟨0, 1⟩ : Range).Ok ∧ (1 / 4096 : Value) < 0 + (1 - 0) / 4095 ∧ codeOf (1 / 4096) ⟨0, 1⟩ = 0 ∧
    (1 : Value) ≤ 1 ∧ codeOf 1 ⟨0, 1⟩ = 4095 ∧ 0 + 4094 * (1 - 0) / 4095 ≤ (4094 / 4095 : Value) ∧
    (4094 / 4095 : Value) < 0 + (4094 + 1) * (1 - 0) / 4095 ∧ codeOf (4094 / 4095) ⟨0, 1⟩ = 4094 := by decide +kernel
theorem witness_CodeIsMonotoneAndInvariant : (⟨0, 1⟩ : Range).Ok ∧ (0 : Value) ≤ 1 ∧ (0 : Value) < 3 := by decide +kernel
theorem witness_ChannelMapIsTotal : (3 : Int) = 3 ∧ (2 : Int) = 2 ∧ (-128 : Int) ≠ 2 ∧ (-128 : Int) ≠ 3 := by decide
theorem witness_WriteChannelRuns : idle.config.range.Ok := idle_ok
theorem witness_AnalogWriteDelegates : idle.config.range.Ok := idle_ok
theorem witness_DigitalWriteDelegates : idle.config.range.Ok ∧ (-1 : Int) ≠ 0 ∧ (0 : Int) = 0 := ⟨idle_ok, by decide, rfl⟩
theorem witness_WriteChannelMicroOperations : 0 < 27 ∧ 26 < 27 := by decide
/-- The first and the last bit; the start and the stop condition, where data changes with the clock high; both ends of the chip-selects'
clause; and a change of data with the clock low. -/
theorem witness_DataIsStableWhileTheClockIsHigh :
    let j : WriteJob := { slot := .ch1, cs1 := true, cs2 := false, frame := 0x4000000#27, value := 0 }
    let at' (n : Nat) := (idle.performAll ((Latch.write j).ops.take n)).lines
    0 < 27 ∧ 26 < 27 ∧ ((at' 3).data ≠ (at' 2).data ∧ (at' 2).clock = true) ∧ ((at' 143).data ≠ (at' 142).data ∧ (at' 142).clock = true) ∧
      ((at' 6).data ≠ (at' 5).data ∧ (at' 5).clock = false) ∧ 2 ≤ 2 ∧ 145 ≤ 145 := by decide +kernel
/-- The bench with a host-composed frame open, these bits sent, and a command word offered. -/
def composing (bits : List Level) (w : CmdWord) : State :=
  offered .command w { idle with hist := { idle.hist with monitor := .opened bits } }
/-- An open frame with no bit sent and its first bit offered, one with 26 sent, and one with all 27 sent and the stop condition offered. -/
theorem witness_HostComposedFrameEqualsWriteChannel :
    (∃ (s : State) (bits : List Level), s.hist.monitor = .opened bits ∧ bits.length = 0 ∧ s.NoPreempt ∧ s.ready = true ∧
      s.host.grain = .command) ∧
    (∃ (s : State) (bits : List Level), s.hist.monitor = .opened bits ∧ bits.length = 26 ∧ s.NoPreempt ∧ s.ready = true ∧
      s.host.grain = .command) ∧
    (∃ (s : State) (bits : List Level), s.hist.monitor = .opened bits ∧ bits.length = 27 ∧ s.NoPreempt ∧ s.ready = true ∧
      s.host.grain = .command) ∧
    ∃ u, idle.hist.monitor = .closed ∧ exec (.wrch 3 (1 / 2)) idle = .next u :=
  ⟨⟨composing [] 0xB10000000000#48, [], rfl, rfl, (by intro b h; cases h; exact ⟨rfl, fun _ => ⟨_, rfl, by decide⟩⟩), rfl, rfl⟩,
   ⟨composing (List.replicate 26 true) 0xB00000000000#48, List.replicate 26 true, rfl, rfl,
     (by intro b h; cases h; exact ⟨rfl, fun _ => ⟨_, rfl, by decide⟩⟩), rfl, rfl⟩,
   ⟨composing (List.replicate 27 true) 0xC00000000000#48, List.replicate 27 true, rfl, rfl,
     (by intro b h; cases h; exact ⟨rfl, fun _ => ⟨_, rfl, by decide⟩⟩), rfl, rfl⟩,
   ⟨_, rfl, State.runWrite_ok _ _ idle_ok⟩⟩
/-- An idle block with a frame open, offered the reserved command, does not meet `NoPreempt`; nor does one offered nothing. -/
theorem test_no_preempt_is_not_met_by_waiting : ¬ (composing [] 0x000000000000#48).NoPreempt ∧
    ¬ ({ idle with hist := { idle.hist with monitor := .opened [] } } : State).NoPreempt := by
  refine ⟨fun h => ?_, fun h => ?_⟩
  · obtain ⟨-, h⟩ := h [] rfl
    obtain ⟨w, hw, hg⟩ := h rfl
    cases hw; exact absurd hg (by decide)
  · obtain ⟨-, h⟩ := h [] rfl
    obtain ⟨w, hw, -⟩ := h rfl
    cases hw
theorem witness_EventsDoNotDependOnTheStartState : ∃ s s' t : State, s ≠ s' ∧ s.config.range = s'.config.range ∧ exec (.awr 2 0) s = .next t ∧
    primitiveWrite .clkh = some (.clock, true) ∧ exec .clkh s = .next (s.runCommand (.line .clock true)) :=
  ⟨idle, bench false false false false, _, by decide, rfl, State.runWrite_ok _ _ idle_ok, rfl, rfl⟩
theorem witness_TraceIsTheCommandsInOrder : ∃ s t : State, execAll [.start, .reserved, .wbit true] s = .next t := ⟨idle, _, rfl⟩
theorem witness_CommandCosts : ∃ s t : State, exec .stop s = .next t := ⟨idle, _, rfl⟩
theorem witness_OnlyABadRangeIsRefused : idle.config.range.Ok ∧ step (powered 0x00010000#32 0x00010000#32) = .refused .badRange ∧
    step (offered .command 0xD00100008000#48 badRanged) = .refused .badRange := by
  refine ⟨idle_ok, ?_, ?_⟩
  · rw [step_construct rfl rfl rfl, construct, beginConstruction_bad (by decide +kernel)]
    rfl
  · exact congrArg advanceHostAfter (badRanged_refuses .command)
theorem witness_IdleBlockHoldsItsState : idle.ready = true ∧ idle.host.input.cmdValid = false := ⟨rfl, rfl⟩
theorem witness_AcceptanceLatchesTheCommand :
    (∃ s : State, s.ready = true ∧ s.host.input.cmdValid = true ∧ s.host.grain = .micro ∧ s.config.range.Ok ∧
      decode s.host.input.cmd = .reserved) ∧
    ∃ s : State, s.ready = true ∧ s.host.input.cmdValid = true ∧ s.host.grain = .micro ∧ s.config.range.Ok ∧
      decode s.host.input.cmd ≠ .reserved :=
  ⟨⟨offered .micro 0x010300010000#48 idle, rfl, rfl, rfl, idle_ok, rfl⟩,
   ⟨offered .micro 0xC00000000000#48 idle, rfl, rfl, rfl, idle_ok, by decide⟩⟩
/-- A command in flight at its second micro-operation, a wait. -/
def midStart (elapsed : Nat) : State := flying .start 1#8 elapsed
theorem midStart_ok (elapsed : Nat) : (midStart elapsed).SequencerOk :=
  ⟨(by intro h; cases h), (by intro _; show 1 < 3; decide), (by show 3 ≤ 145; decide), (by intro h; exact absurd rfl h), (by intro h; cases h), (by intro _ h; cases h)⟩
theorem midStart_steps (elapsed : Nat) : step (midStart elapsed) = .next ((midStart elapsed).stepMicro elapsed).advanceHost := rfl

theorem witness_CommandInFlightIsNotDisturbed : ∃ s t : State, s.seq.phase = .constructed ∧ s.seq.busy = true ∧
    s.host.input.rst = false ∧ step s = .next t := ⟨midStart 5, _, rfl, rfl, rfl, midStart_steps 5⟩
theorem witness_CommandInFlightEnds : ∃ s : State, s.SequencerOk ∧ s.seq.phase = .constructed ∧ s.seq.busy = true ∧
    s.host.input.rst = false ∧ s.host.script = [] := ⟨midStart 0, midStart_ok 0, rfl, rfl, rfl, rfl⟩
/-- One microsecond short, and exactly enough; inside a list, and at its last micro-operation. -/
theorem witness_WaitHoldsTheSequencer :
    (∃ t, (midStart 4).seq.cur.ops[(midStart 4).seq.upc.toNat]? = some (.wait 5) ∧ step (midStart 4) = .next t ∧ 4 < 5) ∧
    (∃ t, step (midStart 5) = .next t ∧ 5 ≤ (midStart 5).host.input.elapsed ∧
      (midStart 5).seq.upc.toNat + 1 < (midStart 5).seq.cur.ops.length) ∧
    ∃ t, (flying .stop 3#8 5).seq.cur.ops[(flying .stop 3#8 5).seq.upc.toNat]? = some (.wait 5) ∧ step (flying .stop 3#8 5) = .next t ∧
      (flying .stop 3#8 5).seq.cur.ops.length ≤ (flying .stop 3#8 5).seq.upc.toNat + 1 :=
  ⟨⟨_, rfl, midStart_steps 4, by decide⟩, ⟨_, midStart_steps 5, by decide, by decide⟩, ⟨_, rfl, rfl, by decide⟩⟩
theorem witness_CommandPortIsIgnoredWhileNotReady : ∃ s t : State, s.ready = false ∧ step s = .next t := ⟨midStart 5, _, rfl, rfl⟩

theorem powered_atPowerOn (lo hi : NumWord) : (powered lo hi).AtPowerOn := ⟨rfl, rfl, rfl, rfl, rfl, rfl, rfl, rfl, rfl⟩
theorem powered_ok : (powered 0xFFFB0000#32 0x00050000#32).cfgRange.Ok := by decide +kernel

theorem witness_ConstructionReachesTheConstructedState : ∃ s : State, s.AtPowerOn ∧ s.host.input.rst = false ∧ s.host.grain = .command ∧
    s.host.input.cfgMin.toInt < s.host.input.cfgMax.toInt ∧ s.NoFaultRecorded :=
  ⟨powered 0x80000000#32 0x80000001#32, powered_atPowerOn _ _, rfl, rfl, by decide, rfl⟩
/-- A power-on state whose host, after construction, offers `CLKL` and then nothing. -/
def running : State :=
  { powered 0xFFFB0000#32 0x00050000#32 with
    host := { (powered 0xFFFB0000#32 0x00050000#32).host with
      script := [{ State.reset.host.input with cmdValid := true, cmd := 0x100000000000#48 }] } }
/-- Its run ends with that one command accepted; and the state with a command in flight ends no run. -/
theorem witness_EndOfRun : (∃ t, EndOfRun running [.clkl] t) ∧ ∀ s is e, ¬ EndOfRun s is (midStart e) := by
  refine ⟨?_, fun s is e h => absurd h.idle (by show ¬ true = false; decide)⟩
  obtain ⟨u, hu⟩ := construct_ok (order := Config.constants.initOrder) (s := running) powered_ok
  obtain ⟨-, -, ⟨l, d, c, o, q, h, x⟩, hv, rfl⟩ := construct_next hu
  have hx : x = running.host := hv.host
  subst hx
  have h1 := Run.step running running _ [] (.powerOn running ⟨rfl, rfl, rfl, rfl, rfl, rfl, rfl, rfl, rfl⟩) rfl
    ((step_construct rfl rfl rfl).trans (congrArg advanceHostAfter hu))
  generalize ht : State.advanceHost _ = t at h1
  have hc : decode t.host.input.cmd = .clkl := by
    rw [show t.host.input.cmd = 0x100000000000#48 by subst ht; rfl]; exact test_decode_clkl
  have hr : t.ready = true := by subst ht; rfl
  have ha : t.accepted = some t.host.input.cmd := by rw [State.accepted, hr]; subst ht; rfl
  obtain ⟨hb, hrst, hp⟩ := t.ready_iff.1 hr
  have hg : t.host.grain = .command := by subst ht; rfl
  have h2 := Run.step running t _ _ h1 hrst
    (show step t = .next (t.runCommand (.line .clock false)).advanceHost by
      simp [step, hrst, stepOut, hp, hb, ha, hg, hc, exec_primitive (i := .clkl) rfl, advanceHostAfter])
  rw [ha, Option.map_some, hc] at h2
  exact ⟨_, h2, by simp [hp], by simp [State.Idle]⟩
theorem witness_TwoLevelsAgree :
    (∃ s t : State, EndOfRun s [.clkl] t) ∧
    (∃ s t : State, s.ready = true ∧ s.host.input.cmdValid = true ∧ s.host.grain = .micro ∧ s.host.script = [] ∧
      exec (decode s.host.input.cmd) s = .next t) ∧
    ∃ s : State, s.ready = true ∧ s.host.input.cmdValid = true ∧ s.host.grain = .micro ∧ s.host.script = [] ∧
      exec (decode s.host.input.cmd) s = .refused .badRange :=
  ⟨⟨running, witness_EndOfRun.1⟩, ⟨offered .micro 0xB10000000000#48 idle, _, rfl, rfl, rfl, rfl, rfl⟩,
   ⟨offered .micro 0xD00100008000#48 badRanged, rfl, rfl, rfl, rfl, badRanged_refuses .micro⟩⟩

theorem witness_BadRangeIsRefusedAtConstruction : ∃ s : State, s.seq.phase = .powerOn ∧ s.host.input.rst = false ∧
    s.host.input.cfgMax.toInt ≤ s.host.input.cfgMin.toInt := ⟨powered 0x00010000#32 0x00010000#32, rfl, rfl, by decide⟩
theorem witness_ConstructionIsIdempotent : ∃ s s' t : State, s.lines ≠ s'.lines ∧ s.AtPowerOn ∧ s'.AtPowerOn ∧
    s.host.input.rst = false ∧ s'.host.input.rst = false ∧ s.host.grain = .command ∧ s'.host.grain = .command ∧
    s.host.input.cfgMin = s'.host.input.cfgMin ∧ s.host.input.cfgMax = s'.host.input.cfgMax ∧
    s.hist.protoViolation = s'.hist.protoViolation ∧ step s = .next t := by
  obtain ⟨t, ht⟩ := construct_ok (order := Config.constants.initOrder) powered_ok
  exact ⟨powered 0xFFFB0000#32 0x00050000#32, { powered 0xFFFB0000#32 0x00050000#32 with lines := ⟨true, true, true, true⟩ }, _, by decide,
    powered_atPowerOn _ _, ⟨rfl, rfl, rfl, rfl, rfl, rfl, rfl, rfl, rfl⟩, rfl, rfl, rfl, rfl, rfl, rfl, rfl,
    by rw [step_construct rfl rfl rfl, ht]; rfl⟩
theorem witness_LastChannelOfInitOrderSetsTheChipSelects : (powered 0xFFFB0000#32 0x00050000#32).cfgRange.Ok := powered_ok
theorem witness_ConstructionTwoLevelsAgree : ∃ s t : State, s.seq.phase = .powerOn ∧ s.host.input.rst = false ∧ s.host.grain = .micro ∧
    s.host.script = [] ∧ construct Config.constants.initOrder s = .next t := by
  obtain ⟨t, ht⟩ := construct_ok (order := Config.constants.initOrder)
    (s := { powered 0xFFFB0000#32 0x00050000#32 with host := { (powered 0xFFFB0000#32 0x00050000#32).host with grain := .micro } }) powered_ok
  exact ⟨_, t, rfl, rfl, rfl, rfl, ht⟩

/-- The same state with `rst` asserted. -/
def resetting (s : State) : State := { s with host := { s.host with input := { s.host.input with rst := true } } }

/-- Reset of a command in flight, of an idle block, and `rst` held at power-on. -/
theorem witness_ResetAbandonsTheCommand :
    (∃ s : State, s.host.input.rst = true ∧ s.seq.busy = true) ∧
    (∃ s : State, s.host.input.rst = true ∧ s.seq.phase = .constructed ∧ s.seq.busy = false) ∧
    ∃ s : State, s.host.input.rst = true ∧ s.seq.phase = .powerOn ∧ s.seq.busy = false :=
  ⟨⟨resetting (midStart 5), rfl, rfl⟩, ⟨resetting idle, rfl, rfl, rfl⟩, ⟨resetting (powered 0#32 0x00010000#32), rfl, rfl, rfl⟩⟩
/-- R79, R39: `rst` held at power-on, and new constructor's arguments on the ports for the step after: the block stays, the lines stay as
they are, and the Range is what the ports now show. -/
theorem test_reset_held_at_power_on :
    (after (step { resetting (powered 0#32 0x00010000#32) with
      host := { (resetting (powered 0#32 0x00010000#32)).host with
        script := [{ State.reset.host.input with cfgMin := 0xFFFB0000#32, cfgMax := 0x00050000#32 }] } })).map
      (fun s => (s.seq.phase, s.ready, s.lines, s.config.range)) = some (.powerOn, false, ⟨false, true, false, false⟩, ⟨-5, 5⟩) := by
  decide +kernel
/-- Not even reset clears the mark. -/
theorem witness_ProtoViolationIsSticky : ∃ s t : State, s.hist.protoViolation = true ∧ s.host.input.rst = true ∧ step s = .next t :=
  ⟨resetting { idle with hist := { idle.hist with protoViolation := true } }, _, rfl, rfl, rfl⟩
/-- A word that breaks the frame language, and one that does not. -/
theorem witness_MonitorRecognisesWholeFrames : ∃ s t u : State, s.hist.monitor = .closed ∧ s.hist.protoViolation = false ∧
    execAll [.reserved, .wbit true] s = .next t ∧ t.hist.protoViolation = true ∧
    execAll [.cs1h, .start, .wbit true] s = .next u ∧ u.hist.protoViolation = false := ⟨idle, _, _, rfl, rfl, rfl, rfl, rfl, rfl⟩
theorem witness_FrameCommandsNeverSetTheMark : (∀ i ∈ [Instr.wrch 1 (1 / 2), .awr 2 7, .dwr 9 0], isFrameCmd i = true) ∧
    idle.config.range.Ok ∧ idle.hist.monitor = .closed := ⟨(by intro i hi; fin_cases hi <;> rfl), idle_ok, rfl⟩
theorem witness_RangeIsFixed : ∃ s t : State, s.seq.phase ≠ .powerOn ∧ s.host.input.rst = false ∧ step s = .next t :=
  ⟨midStart 5, _, by decide, rfl, rfl⟩
theorem witness_DirIsFixed : (∃ s t : State, construct [1] s = .next t) ∧ (∃ s t : State, exec .cs2l s = .next t) ∧
    ∃ s t : State, s.seq.phase ≠ .powerOn ∧ s.host.input.rst = false ∧ step s = .next t :=
  ⟨⟨_, construct_ok powered_ok⟩, ⟨idle, _, rfl⟩, ⟨midStart 5, _, by decide, rfl, rfl⟩⟩
theorem witness_StepKeepsTheSequencerConsistent : ∃ s t : State, s.SequencerOk ∧ step s = .next t := ⟨midStart 5, _, midStart_ok 5, rfl⟩
theorem midStart_cache (elapsed : Nat) : (midStart elapsed).CacheOk :=
  ⟨fun _ => ⟨idle_ok, rfl⟩, (by intro j h; cases h),
   fun _ k => ⟨-5, (by cases k <;> rfl), (by show (-5 : Rat) ≤ -5; decide +kernel), (by show (-5 : Rat) ≤ 5; decide +kernel)⟩,
   (by intro _ h; cases h), (by intro h; cases h)⟩
theorem witness_StepKeepsTheCacheInRange : ∃ s t : State, s.SequencerOk ∧ s.CacheOk ∧ step s = .next t :=
  ⟨midStart 5, _, midStart_ok 5, midStart_cache 5, rfl⟩
theorem witness_StepKeepsTheTraceExact : ∃ s t : State, s.TraceOk ∧ s.host.input.rst = false ∧ step s = .next t :=
  ⟨{ midStart 5 with outCache := .unwritten }, _, ⟨(by intro n v h; cases h), (by intro k; cases k <;> rfl), rfl⟩, rfl, rfl⟩
theorem witness_StepKeepsTheFrameLogGenuine : ∃ s t : State, s.DacLogOk ∧ s.hist.dacLog ≠ [] ∧ step s = .next t :=
  ⟨{ midStart 5 with hist := { (midStart 5).hist with dacLog := [⟨true, false, 0x6140201#27⟩] } }, _,
   ⟨(by intro d hd; rw [List.mem_singleton.1 hd]; exact ⟨.ch1, 0#12, rfl, by decide⟩), (by intro j h; cases h)⟩, by decide, rfl⟩
theorem witness_StepKeepsTheMonitorMarked : ∃ s t : State, s.MonitorOk ∧ s.hist.monitor = .opened [true] ∧ step s = .next t :=
  ⟨{ midStart 5 with hist := { (midStart 5).hist with monitor := .opened [true] } }, _,
   ⟨(by intro h; cases h), (by intro b h; cases h; decide)⟩, rfl, rfl⟩
/-- A state for each value: busy, reset, not constructed, ready; and one in which a command is accepted. -/
theorem witness_ReadyIsTheComplementOfBusy :
    ((midStart 5).seq.busy = true ∧ (midStart 5).ready = false) ∧
    ((resetting idle).host.input.rst = true ∧ (resetting idle).ready = false) ∧
    ((powered 0#32 0x00010000#32).seq.phase ≠ .constructed ∧ (powered 0#32 0x00010000#32).ready = false) ∧
    (idle.seq.busy = false ∧ idle.host.input.rst = false ∧ idle.seq.phase = .constructed ∧ idle.ready = true) ∧
    (offered .micro 0xC00000000000#48 idle).accepted = some 0xC00000000000#48 := ⟨⟨rfl, rfl⟩, ⟨rfl, rfl⟩, ⟨by decide, rfl⟩, ⟨rfl, rfl, rfl, rfl⟩, rfl⟩

end Sys2Proof.Tests
end

section
/-! PROOFS of the family `00_scope.md`: the two levels of description agree, for a command, for construction and for a run (R10, R202,
R219, R220).

The idea: every state of a run has a state it SETTLES in, the one in which the command in flight and the channel writes that construction
has still to make will have completed. A step with a command in flight does not change it, whatever the ports show and however long
the step lasts; accepting a command moves it as the command level does. -/

namespace Sys2Proof.Machine

open Sys2Proof (Instr Level Value Line Channel Range)

/-! ### Changing only the host's side or only the sequencer -/

/-- The same block with another host. -/
def State.withHost (s : State) (h : HostSide) : State := { s with host := h }

/-- The same registers and history with another sequencer. -/
def State.withSeq (s : State) (q : Sequencer) : State := { s with seq := q }

@[simp] theorem State.withHost_seq (s : State) (h : HostSide) : (s.withHost h).seq = s.seq := rfl
@[simp] theorem State.withSeq_seq (s : State) (q : Sequencer) : (s.withSeq q).seq = q := rfl
@[simp] theorem State.withHost_withHost (s : State) (h h' : HostSide) : (s.withHost h).withHost h' = s.withHost h' := rfl
@[simp] theorem State.withHost_self (s : State) : s.withHost s.host = s := rfl
theorem State.withHost_of_eq {s : State} {h : HostSide} (hs : h = s.host) : s.withHost h = s := by rw [hs, State.withHost_self]

theorem State.advanceHost_eq_withHost (s : State) : s.advanceHost = s.withHost s.host.advance := rfl

theorem State.sameBlock_withHost (s : State) (h : HostSide) : SameBlock (s.withHost h) s := ⟨rfl, rfl, rfl, rfl, rfl, rfl⟩

theorem State.performAll_withHost (s : State) (h : HostSide) (ops : List MicroOp) :
    (s.withHost h).performAll ops = (s.performAll ops).withHost h := by
  rw [State.performAll_eq, State.performAll_eq]; rfl

theorem State.performAll_withSeq (s : State) (q : Sequencer) (ops : List MicroOp) :
    (s.withSeq q).performAll ops = (s.performAll ops).withSeq q := by
  rw [State.performAll_eq, State.performAll_eq]; rfl

theorem State.runLatched_withHost (s : State) (h : HostSide) (l : Latch) :
    (s.withHost h).runLatched l = (s.runLatched l).withHost h := by
  rw [State.runLatched_eq, State.runLatched_eq]; rfl

theorem State.runLatched_withSeq (s : State) (q : Sequencer) (l : Latch) :
    (s.withSeq q).runLatched l = (s.runLatched l).withSeq q.rest := by
  rw [State.runLatched_eq, State.runLatched_eq]; rfl

@[simp] theorem State.runLatched_host (s : State) (l : Latch) : (s.runLatched l).host = s.host := by rw [State.runLatched_eq]

theorem State.runCommand_withHost (s : State) (h : HostSide) (l : Latch) :
    (s.withHost h).runCommand l = (s.runCommand l).withHost h := (s.note l).runLatched_withHost h l

/-- The same command in flight, at another index and with another wait to last. -/
def Sequencer.moved (q : Sequencer) (upc : BitVec 8) (waitCnt : Nat) : Sequencer := { q with upc := upc, waitCnt := waitCnt }

/-- Completion erases the index and the wait timer. -/
theorem State.finish_performAll_moved (s : State) (upc : BitVec 8) (waitCnt : Nat) (ops : List MicroOp) :
    ((s.withSeq (s.seq.moved upc waitCnt)).performAll ops).finish = (s.performAll ops).finish := by
  rw [State.performAll_withSeq, State.performAll_eq]; rfl

/-! ### Construction, whatever the sequencer and the host -/

/-- Construction has completed, nothing is in flight (R202 step 4). -/
def State.atRest (s : State) : State := { s with seq := { phase := .constructed, busy := false, upc := 0#8, cur := .idle, waitCnt := 0 } }

/-- Steps 1 and 2 of construction (R202). -/
def State.begun (s : State) : State := { s with config := { range := s.cfgRange }, dir := 0b1111#4 }

theorem State.atRest_withHost (s : State) (h : HostSide) : (s.withHost h).atRest = s.atRest.withHost h := rfl

theorem State.writeMinVal_withHost (order : List Int) (s : State) (h : HostSide) :
    (s.withHost h).writeMinVal order = (s.writeMinVal order).withHost h := by
  induction order generalizing s with
  | nil => rfl
  | cons k ks ih => rw [State.writeMinVal_cons, State.runLatched_withHost, ih]; rfl

/-- Construction leaves the host's side as it was. -/
theorem State.writeMinVal_withHost_begun (order : List Int) (s : State) :
    (s.begun.writeMinVal order).atRest.withHost s.host = (s.begun.writeMinVal order).atRest := by
  rw [← State.atRest_withHost, ← State.writeMinVal_withHost]
  rfl

/-- The end of construction does not depend on the sequencer it started with. -/
theorem State.writeMinVal_withSeq (order : List Int) (s : State) (q : Sequencer) :
    ((s.withSeq q).writeMinVal order).atRest = (s.writeMinVal order).atRest := by
  induction order generalizing s q with
  | nil => rfl
  | cons k ks ih => rw [State.writeMinVal_cons, State.runLatched_withSeq, ih]; rfl

theorem State.nextChannel_withSeq (s : State) (q : Sequencer) (left : List Int) : (s.withSeq q).nextChannel left = s.nextChannel left := by
  cases left <;> rfl

theorem State.nextChannel_withHost (s : State) (h : HostSide) (left : List Int) :
    (s.withHost h).nextChannel left = (s.nextChannel left).withHost h := by
  cases left <;> rfl

/-- With a good Range the command level makes all channel writes and rests. -/
theorem construct_eq {s : State} (order : List Int) (h : s.cfgRange.Ok) : construct order s = .next (s.begun.writeMinVal order).atRest := by
  rw [construct, beginConstruction_ok h]; rfl

/-- With a good Range the micro level latches the first channel write. -/
theorem constructMicro_eq {s : State} (order : List Int) (h : s.cfgRange.Ok) :
    constructMicro order s = .next (s.begun.nextChannel order) := by
  rw [constructMicro, beginConstruction_ok h]; rfl

theorem construct_next_iff {s t : State} {order : List Int} :
    construct order s = .next t ↔ s.cfgRange.Ok ∧ t = (s.begun.writeMinVal order).atRest := by
  by_cases h : s.cfgRange.Ok
  · simp [construct_eq order h, h, eq_comm]
  · simp [construct, beginConstruction_bad h, h]

theorem constructMicro_next_iff {s t : State} {order : List Int} :
    constructMicro order s = .next t ↔ s.cfgRange.Ok ∧ t = s.begun.nextChannel order := by
  by_cases h : s.cfgRange.Ok
  · simp [constructMicro_eq order h, h, eq_comm]
  · simp [constructMicro, beginConstruction_bad h, h]

/-! ### Commands at both levels -/

theorem exec_of_latch {i : Instr} {s : State} {l : Latch} (hl : latchOf i s.config.range = .ok l) (hne : l ≠ .idle) :
    exec i s = .next (s.runCommand l) := by
  rw [exec_eq_latchOf, hl]
  cases l with
  | idle => exact absurd rfl hne
  | _ => rfl

theorem accept_of_latch {i : Instr} {s : State} {l : Latch} (hl : latchOf i s.config.range = .ok l) (hne : l ≠ .idle) :
    accept i s = .next ((s.note l).latch l) := by
  rw [accept, hl]
  cases l with
  | idle => exact absurd rfl hne
  | _ => rfl

/-- What the command level refuses, the micro level refuses at acceptance. -/
theorem accept_refused_of_exec {i : Instr} {s : State} {r : Refusal} (h : exec i s = .refused r) : accept i s = .refused r := by
  rw [exec_eq_latchOf] at h
  unfold accept
  cases hl : latchOf i s.config.range with
  | error e => rw [hl] at h; cases h; rfl
  | ok l => rw [hl] at h; cases l <;> cases h

/-- A latched command has as many micro-operations as R218 counts. -/
theorem latchOf_ops_length {i : Instr} {r : Range} {l : Latch} (h : latchOf i r = .ok l) : l.ops.length = microCount i := by
  have hwrite (ch : Int) (v : Value) (hl : latchOf (.wrch ch v) r = .ok l) : l.ops.length = writeMicroCount := by
    by_cases hr : r.Ok
    · rw [latchOf, if_pos hr] at hl; cases hl; exact writeOps_length _
    · rw [latchOf, if_neg hr] at hl; cases hl
  cases i with
  | wrch ch v => exact hwrite ch v h
  | awr ch v => exact hwrite ch v h
  | dwr ch d => exact hwrite ch _ h
  | _ => cases h; rfl

theorem exec_withHost {i : Instr} {s t : State} (hst : HostSide) (h : exec i s = .next t) :
    exec i (s.withHost hst) = .next (t.withHost hst) := by
  rcases exec_next_cases h with ⟨rfl, rfl⟩ | ⟨l, hne, hl, rfl⟩
  · rfl
  · rw [← State.runCommand_withHost]; exact exec_of_latch hl hne

theorem execAll_withHost {is : List Instr} {s t : State} (hst : HostSide) (h : execAll is s = .next t) :
    execAll is (s.withHost hst) = .next (t.withHost hst) := by
  induction is generalizing s with
  | nil => cases h; rfl
  | cons i is ih =>
    obtain ⟨u, hi, his⟩ := execAll_split (is := [i]) h
    rw [← List.singleton_append, execAll_append _ _ _ _ (execAll_one.2 (exec_withHost hst (execAll_one.1 hi)))]
    exact ih his

theorem exec_phase {i : Instr} {s t : State} (h : exec i s = .next t) : t.seq.phase = s.seq.phase := by
  rcases exec_next_cases h with ⟨-, rfl⟩ | ⟨l, -, -, rfl⟩ <;> simp

theorem execAll_phase {is : List Instr} {s t : State} (h : execAll is s = .next t) : t.seq.phase = s.seq.phase := by
  induction is generalizing s with
  | nil => cases h; rfl
  | cons i is ih =>
    obtain ⟨u, hi, his⟩ := execAll_split (is := [i]) h
    exact (ih his).trans (exec_phase (execAll_one.1 hi))

theorem exec_notBusy {i : Instr} {s t : State} (hb : s.seq.busy = false) (h : exec i s = .next t) : t.seq.busy = false := by
  rcases exec_next_cases h with ⟨-, rfl⟩ | ⟨l, -, -, rfl⟩
  · exact hb
  · simp

/-! ### What a state settles in -/

/-- A command or a channel write of construction is in flight, so the coming step without `rst` is one of the sequencer (R31, R202). -/
abbrev State.InFlight (s : State) : Prop := s.seq.phase ≠ .powerOn ∧ (s.seq.phase = .constructed → s.seq.busy = true)

/-- A command has completed: construction goes on to its next channel write (R202). -/
def State.goOn (s : State) : State :=
  match s.seq.phase with
  | .constructing left => s.nextChannel left
  | .powerOn => s
  | .constructed => s

/-- A command has completed: construction makes its other channel writes, each as one step (R202). -/
def State.wrapUp (s : State) : State :=
  match s.seq.phase with
  | .constructing left => (s.writeMinVal left).atRest
  | .powerOn => s
  | .constructed => s

/-- The state in which the command in flight, and what construction has still to write, will have completed. -/
def State.settled (s : State) : State := if s.InFlight then s.completed.wrapUp else s

theorem State.wrapUp_withHost (s : State) (h : HostSide) : (s.withHost h).wrapUp = s.wrapUp.withHost h := by
  unfold State.wrapUp
  rw [State.withHost_seq]
  split
  · rw [State.writeMinVal_withHost]; rfl
  · rfl
  · rfl

theorem State.completed_withHost (s : State) (h : HostSide) : (s.withHost h).completed = s.completed.withHost h := by
  have hp := s.performAll_withHost h s.remaining
  exact congrArg State.finish hp

theorem State.settled_withHost (s : State) (h : HostSide) : (s.withHost h).settled = s.settled.withHost h := by
  unfold State.settled
  rw [apply_ite (State.withHost · h), State.completed_withHost, State.wrapUp_withHost]
  rfl

theorem State.settled_of_inFlight {s : State} (h : s.InFlight) : s.settled = s.completed.wrapUp := if_pos h

theorem State.wrapUp_of_constructed {s : State} (hp : s.seq.phase = .constructed) : s.wrapUp = s := by
  unfold State.wrapUp; rw [hp]

theorem State.goOn_of_constructed {s : State} (hp : s.seq.phase = .constructed) : s.goOn = s := by
  unfold State.goOn; rw [hp]

theorem State.settled_of_powerOn {s : State} (hp : s.seq.phase = .powerOn) : s.settled = s := if_neg fun h => h.1 hp

theorem State.settled_of_idle {s : State} (hp : s.seq.phase = .constructed) (hb : s.seq.busy = false) : s.settled = s :=
  if_neg fun h => by simp [h.2 hp] at hb

theorem State.atRest_settled (s : State) : s.atRest.settled = s.atRest := State.settled_of_idle rfl rfl

/-- A command that has just been latched settles in what the command level gives (R10). -/
theorem State.completed_latch (s : State) (l : Latch) : (s.latch l).completed = s.runLatched l := rfl

/-- Construction settles in the end of the command level's construction, wherever among its channel writes it is (R202). -/
theorem State.nextChannel_settled (s : State) (left : List Int) : (s.nextChannel left).settled = (s.writeMinVal left).atRest := by
  cases left with
  | nil => exact s.atRest_settled
  | cons k ks =>
    have hf : (s.nextChannel (k :: ks)).InFlight := ⟨by simp [State.nextChannel], fun _ => rfl⟩
    rw [State.settled_of_inFlight hf, State.writeMinVal_cons]
    have hc : (s.nextChannel (k :: ks)).completed = (s.runLatched (.write (writeJob k s.config.range.minVal s.config.range))).withSeq
        { phase := .constructing ks, busy := false, upc := 0#8, cur := .idle, waitCnt := 0 } := s.runLatched_withSeq _ _
    rw [hc]
    exact State.writeMinVal_withSeq ks _ _

theorem State.finishMicro_eq_goOn (s : State) : s.finishMicro = s.finish.goOn := by
  cases h : s.seq.phase <;> simp only [State.finishMicro, State.goOn, State.finish_seq, Sequencer.rest_phase, h]

theorem State.goOn_settled {s : State} (hb : s.seq.busy = false) : s.goOn.settled = s.wrapUp := by
  unfold State.goOn State.wrapUp
  split
  case h_1 left _ => exact s.nextChannel_settled left
  case h_2 hp => exact State.settled_of_powerOn hp
  case h_3 hp => exact State.settled_of_idle hp hb

theorem State.finishMicro_settled (s : State) : s.finishMicro.settled = s.finish.wrapUp := by
  rw [State.finishMicro_eq_goOn]; exact State.goOn_settled rfl

/-! ### A step of the sequencer does not change what the state settles in -/

/-- The index goes on to the next micro-operation, and never wraps. -/
theorem State.advanceUpc_of_lt {s : State} (h : s.seq.upc.toNat + 1 < s.seq.cur.ops.length) :
    s.advanceUpc = s.withSeq (s.seq.moved (s.seq.upc + 1) s.seq.waitCnt) ∧ (s.seq.upc + 1).toNat = s.seq.upc.toNat + 1 := by
  have hlen := s.seq.cur.ops_length_le
  exact ⟨if_pos h, by bv_omega⟩

theorem State.advanceUpc_of_le {s : State} (h : s.seq.cur.ops.length ≤ s.seq.upc.toNat + 1) : s.advanceUpc = s.finishMicro :=
  if_neg (by omega)

theorem State.advanceUpc_settled {s : State} (hf : s.InFlight) :
    s.advanceUpc.settled = ((s.performAll (s.seq.cur.ops.drop (s.seq.upc.toNat + 1))).finish).wrapUp := by
  rcases Nat.lt_or_ge (s.seq.upc.toNat + 1) s.seq.cur.ops.length with h | h
  · obtain ⟨hadv, hupc⟩ := State.advanceUpc_of_lt h
    have hf' : (s.withSeq (s.seq.moved (s.seq.upc + 1) s.seq.waitCnt)).InFlight := hf
    rw [hadv, State.settled_of_inFlight hf', State.completed, State.finish_performAll_moved, ← hupc]
    rfl
  · rw [State.advanceUpc_of_le h, State.finishMicro_settled, List.drop_eq_nil_of_le h, State.performAll_nil]

/-- The micro-operation at the index is the first of what remains. -/
theorem State.remaining_eq_cons {s : State} {op : MicroOp} (hop : s.seq.cur.ops[s.seq.upc.toNat]? = some op) :
    s.remaining = op :: s.seq.cur.ops.drop (s.seq.upc.toNat + 1) := by
  obtain ⟨hlt, rfl⟩ := List.getElem?_eq_some_iff.1 hop
  exact List.drop_eq_getElem_cons hlt

theorem State.perform_advanceUpc_settled {s : State} {op : MicroOp} (hf : s.InFlight) (hop : s.seq.cur.ops[s.seq.upc.toNat]? = some op) :
    (s.perform op).advanceUpc.settled = s.settled := by
  have hf' : (s.perform op).InFlight := by rwa [State.InFlight, State.perform_seq]
  rw [State.advanceUpc_settled hf', State.settled_of_inFlight hf, State.completed, State.remaining_eq_cons hop, State.performAll_cons,
    State.perform_seq]

/-- The wait timer has no part in what the state settles in. -/
theorem State.settled_moved_waitCnt {s : State} (hf : s.InFlight) (n : Nat) :
    (s.withSeq (s.seq.moved s.seq.upc n)).settled = s.settled := by
  have hf' : (s.withSeq (s.seq.moved s.seq.upc n)).InFlight := hf
  rw [State.settled_of_inFlight hf, State.settled_of_inFlight hf', State.completed, State.finish_performAll_moved]
  rfl

/-- R31: a step of the sequencer, however long it lasts, neither skips nor repeats anything. -/
theorem State.stepMicro_settled {s : State} (hf : s.InFlight) (elapsed : Nat) : (s.stepMicro elapsed).settled = s.settled := by
  rcases s.stepMicro_cases elapsed with ⟨us, -, -, h⟩ | ⟨us, hop, -, h⟩ | ⟨op, hop, -, h⟩ | ⟨hop, h⟩ <;> rw [h]
  · exact State.settled_moved_waitCnt hf _
  · have hf' : (s.withSeq (s.seq.moved s.seq.upc 0)).InFlight := hf
    exact (State.perform_advanceUpc_settled hf' hop).trans (State.settled_moved_waitCnt hf 0)
  · exact State.perform_advanceUpc_settled hf hop
  · rw [State.finishMicro_settled, State.settled_of_inFlight hf, State.completed, State.remaining,
      List.drop_eq_nil_of_le (List.getElem?_eq_none_iff.1 hop), State.performAll_nil]

/-! ### A run settles in what the command level gives -/

theorem State.accepted_of_not_ready {s : State} (h : s.ready = false) : s.accepted = none := by simp [State.accepted, h]

theorem State.accepted_of_invalid {s : State} (h : s.host.input.cmdValid = false) : s.accepted = none := by simp [State.accepted, h]

theorem State.accepted_of_ready {s : State} (h : s.ready = true) (hv : s.host.input.cmdValid = true) :
    s.accepted = some s.host.input.cmd := by simp [State.accepted, h, hv]

theorem State.ready_of_inFlight {s : State} (hf : s.InFlight) : s.ready = false := by
  rw [← Bool.not_eq_true, State.ready_iff]
  rintro ⟨hb, -, hp⟩
  simp [hf.2 hp] at hb

/-- A command accepted at the micro level settles in what the command level gives. -/
theorem exec_of_accept {i : Instr} {s t : State} (hp : s.seq.phase = .constructed) (hb : s.seq.busy = false)
    (h : accept i s = .next t) : exec i s = .next t.settled := by
  rcases accept_next_cases h with ⟨rfl, rfl⟩ | ⟨l, hne, hl, rfl⟩
  · rw [State.settled_of_idle hp hb]; rfl
  · have hf : ((s.note l).latch l).InFlight := ⟨by simp [hp], fun _ => rfl⟩
    have hphase : (s.runCommand l).seq.phase = .constructed := by simp [hp]
    rw [exec_of_latch hl hne, State.settled_of_inFlight hf, State.completed_latch, ← State.runCommand,
      State.wrapUp_of_constructed hphase]

/-- What is executed from an idle state is executed from what it settles in. -/
theorem execAll_settled_of_exec {i : Instr} {s t : State} (hp : s.seq.phase = .constructed) (hb : s.seq.busy = false)
    (h : exec i s = .next t) : execAll [i] s.settled = .next (t.withHost s.host) := by
  rw [State.settled_of_idle hp hb]
  exact execAll_one.2 (exec_withHost s.host h)

/-- R10, R31, R90: after power-on, a step at either level moves what the state settles in by the command it accepts, if it accepts one, and
by nothing else. -/
theorem step_settled {s t : State} (hp : s.seq.phase ≠ .powerOn) (hr : s.host.input.rst = false) (h : step s = .next t) :
    execAll (s.accepted.map decode).toList s.settled = .next (t.settled.withHost s.host) := by
  have hmicro (hf : s.InFlight) :
      execAll (s.accepted.map decode).toList s.settled = .next ((s.stepMicro s.host.input.elapsed).settled.withHost s.host) := by
    rw [State.accepted_of_not_ready (State.ready_of_inFlight hf), State.stepMicro_settled hf, ← State.settled_withHost]
    rfl
  rcases step_next_cases h with ⟨hr', -⟩ | ⟨-, u, rfl, hu⟩
  · rw [hr] at hr'; cases hr'
  rw [State.advanceHost_eq_withHost, State.settled_withHost, State.withHost_withHost]
  rcases hu with ⟨hp', -⟩ | ⟨hp', -⟩ | ⟨⟨left, hc⟩, rfl⟩ | ⟨hc, hb, rfl⟩ | ⟨-, -, hv, rfl⟩ | ⟨hc, hb, hv, -, hx⟩ | ⟨hc, hb, hv, -, hx⟩
  · exact absurd hp' hp
  · exact absurd hp' hp
  · exact hmicro ⟨hp, by simp [hc]⟩
  · exact hmicro ⟨hp, fun _ => hb⟩
  · rw [State.accepted_of_invalid hv, ← State.settled_withHost]; rfl
  · rw [State.accepted_of_ready (s.ready_iff.2 ⟨hb, hr, hc⟩) hv,
      State.settled_of_idle ((exec_phase hx).trans hc) (exec_notBusy hb hx)]
    exact execAll_settled_of_exec hc hb hx
  · rw [State.accepted_of_ready (s.ready_iff.2 ⟨hb, hr, hc⟩) hv]
    exact execAll_settled_of_exec hc hb (exec_of_accept hc hb hx)

/-- R202: the first step from power-on, at either level, settles in the end of construction, and accepts no command. -/
theorem step_powerOn_settled {s t : State} (hp : s.seq.phase = .powerOn) (hr : s.host.input.rst = false) (h : step s = .next t) :
    construct Config.constants.initOrder s = .next (t.settled.withHost s.host) := by
  rcases step_next_cases h with ⟨hr', -⟩ | ⟨-, u, rfl, hu⟩
  · rw [hr] at hr'; cases hr'
  rw [State.advanceHost_eq_withHost, State.settled_withHost, State.withHost_withHost, construct_next_iff]
  rcases hu with ⟨-, -, hx⟩ | ⟨-, -, hx⟩ | ⟨⟨left, hc⟩, -⟩ | ⟨hc, -⟩ | ⟨hc, -⟩ | ⟨hc, -⟩ | ⟨hc, -⟩
  · obtain ⟨hok, hu⟩ := construct_next_iff.1 hx
    exact ⟨hok, by rw [hu, State.atRest_settled, State.writeMinVal_withHost_begun]⟩
  · obtain ⟨hok, hu⟩ := constructMicro_next_iff.1 hx
    exact ⟨hok, by rw [hu, State.nextChannel_settled, State.writeMinVal_withHost_begun]⟩
  all_goals rw [hp] at hc; cases hc

/-- A state that settles in a constructed one has left power-on. -/
theorem State.left_powerOn_of_settled {s : State} (h : s.settled.seq.phase = .constructed) : s.seq.phase ≠ .powerOn := by
  intro hp
  rw [State.settled_of_powerOn hp, hp] at h
  cases h

/-- R220: a run that has left power-on settles in what construction and then the accepted commands leave, at the command level. -/
theorem run_settled {s t : State} {is : List Instr} (h : Run s is t) :
    (s.seq.phase = .powerOn ∧ is = [] ∧ t = s) ∨
    t.seq.phase ≠ .powerOn ∧
      ∃ c, construct Config.constants.initOrder s = .next c ∧ execAll is c = .next (t.settled.withHost s.host) := by
  induction h with
  | powerOn hs => exact .inl ⟨hs.phase, rfl, rfl⟩
  | step t u is _ hr hstep ih =>
    right
    rcases ih with ⟨hp, rfl, rfl⟩ | ⟨hp, c, hc, hcs⟩
    · have hcon := step_powerOn_settled hp hr hstep
      have hready : t.ready = false := by simp [State.ready, hp]
      refine ⟨State.left_powerOn_of_settled ?_, _, hcon, by rw [State.accepted_of_not_ready hready]; rfl⟩
      exact congrArg Sequencer.phase (construct_next hcon).2.1
    · have hx := execAll_withHost s.host (step_settled hp hr hstep)
      rw [State.withHost_withHost] at hx
      have hall := (execAll_append is _ c _ hcs).trans hx
      refine ⟨State.left_powerOn_of_settled ?_, c, hc, hall⟩
      exact (execAll_phase hall).trans (congrArg Sequencer.phase (construct_next hc).2.1)

theorem endOfRun_observation {s t : State} {is : List Instr} (h : EndOfRun s is t) :
    ∃ c u, construct Config.constants.initOrder s = .next c ∧ execAll is c = .next u ∧ t.observation = u.observation := by
  rcases run_settled h.run with ⟨hp, -, rfl⟩ | ⟨-, c, hc, hcs⟩
  · rw [h.constructed] at hp; cases hp
  · rw [State.settled_of_idle h.constructed h.idle] at hcs
    exact ⟨c, _, hc, hcs, rfl⟩

/-! ### A host that shows nothing more: one step a micro-operation -/

/-- The host has reached the end of its script, and its ports show what they go on to show (`notes/assumptions/2.md`, `3.md`). -/
structure HostSide.Quiet (h : HostSide) : Prop where
  script : h.script = []
  noReset : h.input.rst = false
  noCommand : h.input.cmdValid = false
  elapsed : h.input.elapsed = 5

theorem HostSide.quiet_advance {h : HostSide} (hs : h.script = []) : h.advance.Quiet := by
  rw [h.advance_end hs]; exact ⟨hs, rfl, rfl, rfl⟩

theorem HostSide.Quiet.advance_eq {h : HostSide} (hq : h.Quiet) : h.advance = h := by
  obtain ⟨hs, hr, hc, he⟩ := hq
  cases h with | mk input _ _ _ => cases input; simp_all [HostSide.advance]

theorem State.advanceHost_of_quiet {s : State} (hq : s.host.Quiet) : s.advanceHost = s :=
  State.withHost_of_eq hq.advance_eq

/-- With a quiet host a step in flight performs the micro-operation at the index. -/
theorem step_quiet {s : State} {op : MicroOp} (hf : s.InFlight) (hq : s.host.Quiet) (hw : s.seq.waitCnt = 0)
    (hop : s.seq.cur.ops[s.seq.upc.toNat]? = some op) : step s = .next (s.perform op).advanceUpc.advanceHost := by
  have hfive : ∀ us, op = .wait us → us ≤ s.host.input.elapsed := by
    rintro us rfl
    rw [hq.elapsed, s.seq.cur.waits_are_five us (List.mem_of_getElem? hop)]
  rw [step_inFlight hq.noReset hf.1 hf.2, stepMicro_go _ hw hop hfive]

theorem State.finishMicro_congr {s t : State} (h : s.finish = t.finish) : s.finishMicro = t.finishMicro := by
  rw [State.finishMicro_eq_goOn, State.finishMicro_eq_goOn, h]

theorem State.finishMicro_host (s : State) : s.finishMicro.host = s.host := by
  unfold State.finishMicro
  split
  case h_1 left _ => cases left <;> rfl
  all_goals rfl

/-- R31, R219: with a quiet host, as many steps as micro-operations remain perform them all and complete the command. -/
theorem run_remaining {n : Nat} {s : State} (hf : s.InFlight) (hq : s.host.Quiet) (hw : s.seq.waitCnt = 0)
    (hn : s.seq.upc.toNat + (n + 1) = s.seq.cur.ops.length) :
    Host.Core.run Sys2Proof.core (n + 1) s = .next (s.performAll s.remaining).finishMicro := by
  induction n generalizing s with
  | zero =>
    have hop := List.getElem?_eq_getElem (show s.seq.upc.toNat < s.seq.cur.ops.length by omega)
    have hlast : (s.perform s.seq.cur.ops[s.seq.upc.toNat]).seq.cur.ops.length ≤
        (s.perform s.seq.cur.ops[s.seq.upc.toNat]).seq.upc.toNat + 1 := by rw [State.perform_seq]; omega
    rw [run_succ 0 (step_quiet hf hq hw hop), run_zero, State.advanceUpc_of_le hlast, State.remaining_eq_cons hop,
      List.drop_eq_nil_of_le (by omega), State.advanceHost_of_quiet (by rwa [State.finishMicro_host, State.perform_host])]
    rfl
  | succ n ih =>
    have hop := List.getElem?_eq_getElem (show s.seq.upc.toNat < s.seq.cur.ops.length by omega)
    rw [run_succ _ (step_quiet hf hq hw hop), State.remaining_eq_cons hop, State.performAll_cons]
    have hseq : (s.perform s.seq.cur.ops[s.seq.upc.toNat]).seq = s.seq := State.perform_seq _ _
    have hhost : (s.perform s.seq.cur.ops[s.seq.upc.toNat]).host = s.host := State.perform_host _ _
    generalize s.perform s.seq.cur.ops[s.seq.upc.toNat] = v at hseq hhost
    have hf' : v.InFlight := by rwa [State.InFlight, hseq]
    rw [← hseq] at hw hn ⊢
    rw [← hhost] at hq
    obtain ⟨hadv, hupc⟩ := State.advanceUpc_of_lt (s := v) (by omega)
    have hquiet : v.advanceUpc.advanceHost = v.withSeq (v.seq.moved (v.seq.upc + 1) v.seq.waitCnt) := by
      rw [hadv]; exact State.advanceHost_of_quiet hq
    have hn' : (v.seq.upc + 1).toNat + (n + 1) = v.seq.cur.ops.length := by omega
    rw [hquiet, ih (s := v.withSeq (v.seq.moved (v.seq.upc + 1) v.seq.waitCnt)) hf' hq hw hn',
      State.finishMicro_congr (State.finish_performAll_moved v _ _ _), ← hupc]
    rfl

/-- With a quiet host, a latched command takes one step a micro-operation. -/
theorem run_latched {s : State} {l : Latch} (hne : l ≠ .idle) (hp : s.seq.phase ≠ .powerOn) (hq : s.host.Quiet) :
    Host.Core.run Sys2Proof.core l.ops.length (s.latch l) = .next (s.runLatched l).goOn := by
  obtain ⟨n, hn⟩ : ∃ n, l.ops.length = n + 1 := Nat.exists_eq_succ_of_ne_zero (Latch.ops_length_pos hne).ne'
  have hupc : (s.latch l).seq.upc.toNat + (n + 1) = (s.latch l).seq.cur.ops.length := by simp [hn]
  rw [hn, run_remaining (s := s.latch l) ⟨hp, fun _ => rfl⟩ hq rfl hupc, State.finishMicro_eq_goOn]
  rfl

/-- R202, R218: with a quiet host, construction takes 145 steps for each channel write. -/
theorem run_nextChannel (order : List Int) {s : State} (hq : s.host.Quiet) :
    Host.Core.run Sys2Proof.core (145 * order.length) (s.nextChannel order) = .next (s.writeMinVal order).atRest := by
  induction order generalizing s with
  | nil => rfl
  | cons k ks ih =>
    have hone : Host.Core.run Sys2Proof.core 145 (s.nextChannel (k :: ks)) =
        .next ((s.runLatched (.write (writeJob k s.config.range.minVal s.config.range))).nextChannel ks) := by
      have hrun := run_latched (s := s.withSeq { s.seq with phase := .constructing ks })
        (l := .write (writeJob k s.config.range.minVal s.config.range)) (by simp) (by simp) hq
      rw [Latch.ops, writeOps_length, State.runLatched_withSeq] at hrun
      exact hrun.trans (congrArg _ (State.nextChannel_withSeq _ _ ks))
    rw [List.length_cons, Nat.mul_succ, Nat.add_comm, run_add _ _ hone, State.writeMinVal_cons]
    exact ih (by rwa [State.runLatched_host])

/-! ### The first step, and the obligations -/

/-- A command offered to the ready block at the micro level is accepted in the coming step (R90). -/
theorem step_accept {s : State} (hready : s.ready = true) (hv : s.host.input.cmdValid = true) (hg : s.host.grain = .micro) :
    step s = advanceHostAfter (accept (decode s.host.input.cmd) s) := by
  obtain ⟨hb, hr, hp⟩ := s.ready_iff.1 hready
  simp [step, stepOut, hr, hp, hb, State.accepted_of_ready hready hv, hg]

/-- A step at power-on at the micro level begins construction (R202). -/
theorem step_constructMicro {s : State} (hp : s.seq.phase = .powerOn) (hr : s.host.input.rst = false) (hg : s.host.grain = .micro) :
    step s = advanceHostAfter (constructMicro Config.constants.initOrder s) := by
  simp [step, stepOut, hr, hp, hg]

/-- R10, R219: a command accepted at the micro level ends, a step for its acceptance and one a micro-operation, in the state of the command
level. -/
theorem run_accepted {s t : State} (hready : s.ready = true) (hv : s.host.input.cmdValid = true) (hg : s.host.grain = .micro)
    (hs : s.host.script = []) (h : exec (decode s.host.input.cmd) s = .next t) :
    Host.Core.run Sys2Proof.core (microCount (decode s.host.input.cmd) + 1) s = .next (t.withHost s.host.advance) := by
  obtain ⟨-, -, hp⟩ := s.ready_iff.1 hready
  have hstep := step_accept hready hv hg
  rcases exec_next_cases h with ⟨hi, rfl⟩ | ⟨l, hne, hl, rfl⟩
  · rw [hi] at hstep ⊢
    exact (run_succ 0 hstep).trans rfl
  · rw [accept_of_latch hl hne] at hstep
    have hp' : ((s.note l).advanceHost).seq.phase ≠ .powerOn := by simp [hp]
    have hphase : (((s.note l).advanceHost).runLatched l).seq.phase = .constructed := by simp [State.runLatched_eq, hp]
    rw [← latchOf_ops_length hl, run_succ _ hstep]
    refine (run_latched (s := (s.note l).advanceHost) hne hp' (HostSide.quiet_advance hs)).trans ?_
    rw [State.goOn_of_constructed hphase, ← State.runCommand_withHost]
    rfl

/-- Settles O37: every step of a run keeps what the run settles in (`run_settled`); a command alone takes one step a micro-operation
(`run_accepted`). -/
theorem twoLevelsAgree : Obligations.TwoLevelsAgree := by
  refine ⟨fun s t is h => endOfRun_observation h, fun s hready hv hg hs => ⟨fun t h => run_accepted hready hv hg hs h, fun r h => ?_⟩⟩
  rw [step_accept hready hv hg, accept_refused_of_exec h]
  rfl

/-- Settles O46: after the first step, 145 steps for each of the three channel writes of construction (`run_nextChannel`). -/
theorem constructionTwoLevelsAgree : Obligations.ConstructionTwoLevelsAgree := by
  intro s t hp hr hg hs hc
  obtain ⟨hok, rfl⟩ := construct_next_iff.1 hc
  have hq : s.host.advance.Quiet := HostSide.quiet_advance hs
  have hstep : step s = .next ((s.begun.withHost s.host.advance).nextChannel Config.constants.initOrder) := by
    rw [step_constructMicro hp hr hg, constructMicro_eq _ hok, State.nextChannel_withHost]
    rfl
  refine ⟨((s.begun.withHost s.host.advance).writeMinVal Config.constants.initOrder).atRest, ?_, ?_, ?_⟩
  · exact (run_succ 435 hstep).trans (run_nextChannel Config.constants.initOrder (s := s.begun.withHost s.host.advance) hq)
  · rw [State.writeMinVal_withHost, State.atRest_withHost]
    exact State.sameBlock_withHost _ _
  · rw [State.ready_iff, State.writeMinVal_withHost]
    exact ⟨rfl, hq.noReset, rfl⟩

end Sys2Proof.Machine
end

section
/-! PROOFS of the family `10_state.md`: the registers, the sequencer, and what every step keeps (R20 to R40, R202, R203, R212 to R214).

The idea: a step is made of a few operations on the state (`step_operations`). What each of them keeps is kept by every step
without `rst` (`KeptByOperations.through_step`). The sequencer and the cache need more: where in its list the command in flight stands
(`State.stepMicro_inversion`). -/

namespace Sys2Proof.Machine

open Sys2Proof (Instr Level Value Line Channel Range)

/-! ### What a latch holds -/

/-- What a channel write latches was computed from operands and a Range, by R146. -/
def Latch.Computed (l : Latch) : Prop := ∀ j, l = .write j → ∃ ch v r, j = writeJob ch v r

theorem Latch.idle_computed : Latch.idle.Computed := fun _ h => by cases h

theorem Latch.writeJob_computed (ch : Int) (v : Value) (r : Range) : (Latch.write (writeJob ch v r)).Computed := fun _ h => by
  cases h; exact ⟨ch, v, r, rfl⟩

/-- A channel write latched at acceptance has a good Range and is that of its operands (R32, R146). -/
theorem latchOf_write {i : Instr} {r : Range} {j : WriteJob} (h : latchOf i r = .ok (.write j)) :
    r.Ok ∧ ∃ ch v, j = writeJob ch v r := by
  rcases latchOf_cases i r with ⟨_, hl⟩ | ⟨_, _, _, hl⟩ | ⟨_, hl⟩ | ⟨_, _, hl⟩ | ⟨_, hl⟩ | ⟨_, _, hl⟩ | ⟨_, hr, ch, v, hl⟩ <;>
    rw [hl] at h <;> cases h
  exact ⟨hr, ch, v, rfl⟩

theorem latchOf_computed {i : Instr} {r : Range} {l : Latch} (h : latchOf i r = .ok l) : l.Computed := by
  rintro j rfl
  obtain ⟨-, ch, v, hj⟩ := latchOf_write h
  exact ⟨ch, v, r, hj⟩

/-! ### What a step is made of -/

theorem State.finishMicro_of_constructed {s : State} (hp : s.seq.phase = .constructed) : s.finishMicro = s.finish := by
  rw [State.finishMicro_eq_goOn]; exact State.goOn_of_constructed hp

/-- One step of the sequencer as operations on the state: it holds on a wait; performs the micro-operation at the index and goes on;
performs the last one and completes; or completes because the index is outside the list. -/
theorem State.stepMicro_inversion (s : State) (elapsed : Nat) :
    (∃ us, s.seq.cur.ops[s.seq.upc.toNat]? = some (.wait us) ∧ elapsed < s.seq.waitLeft us ∧
      s.stepMicro elapsed = s.withSeq (s.seq.moved s.seq.upc (s.seq.waitLeft us - elapsed))) ∨
    (∃ op w, s.seq.cur.ops[s.seq.upc.toNat]? = some op ∧ (∀ us, op = .wait us → s.seq.waitLeft us ≤ elapsed) ∧
      (w = 0 ∨ w = s.seq.waitCnt ∧ ∀ us, op ≠ .wait us) ∧
      s.seq.upc.toNat + 1 < s.seq.cur.ops.length ∧ (s.seq.upc + 1).toNat = s.seq.upc.toNat + 1 ∧
      s.stepMicro elapsed = (s.perform op).withSeq (s.seq.moved (s.seq.upc + 1) w)) ∨
    (∃ op, s.seq.cur.ops[s.seq.upc.toNat]? = some op ∧ (∀ us, op = .wait us → s.seq.waitLeft us ≤ elapsed) ∧
      s.seq.cur.ops.length ≤ s.seq.upc.toNat + 1 ∧ s.stepMicro elapsed = (s.perform op).finishMicro) ∨
    (s.seq.cur.ops[s.seq.upc.toNat]? = none ∧ s.stepMicro elapsed = s.finishMicro) := by
  rcases s.stepMicro_cases elapsed with ⟨us, hop, hlt, h⟩ | ⟨us, hop, hle, h⟩ | ⟨op, hop, hne, h⟩ | ⟨hop, h⟩
  · exact .inl ⟨us, hop, hlt, h⟩
  · have htime : ∀ us', MicroOp.wait us = .wait us' → s.seq.waitLeft us' ≤ elapsed := by rintro _ ⟨⟩; exact hle
    rcases Nat.lt_or_ge (s.seq.upc.toNat + 1) s.seq.cur.ops.length with hlen | hlen
    · obtain ⟨hadv, hupc⟩ :=
        State.advanceUpc_of_lt (s := (s.withSeq (s.seq.moved s.seq.upc 0)).perform (.wait us)) hlen
      exact .inr (.inl ⟨.wait us, 0, hop, htime, .inl rfl, hlen, hupc, h.trans hadv⟩)
    · have hfin : ((s.withSeq (s.seq.moved s.seq.upc 0)).perform (.wait us)).finish = (s.perform (.wait us)).finish :=
        s.finish_performAll_moved _ _ [.wait us]
      have hdone := (State.advanceUpc_of_le (s := (s.withSeq (s.seq.moved s.seq.upc 0)).perform (.wait us)) hlen).trans
        (State.finishMicro_congr hfin)
      exact .inr (.inr (.inl ⟨.wait us, hop, htime, hlen, h.trans hdone⟩))
  · have htime : ∀ us, op = .wait us → s.seq.waitLeft us ≤ elapsed := fun us heq => absurd heq (hne us)
    have hseq : (s.perform op).seq = s.seq := s.perform_seq op
    rcases Nat.lt_or_ge (s.seq.upc.toNat + 1) s.seq.cur.ops.length with hlen | hlen
    · obtain ⟨hadv, hupc⟩ := State.advanceUpc_of_lt (s := s.perform op) (by rwa [hseq])
      rw [hseq] at hadv hupc
      exact .inr (.inl ⟨op, s.seq.waitCnt, hop, htime, .inr ⟨rfl, hne⟩, hlen, hupc, h.trans hadv⟩)
    · exact .inr (.inr (.inl ⟨op, hop, htime, hlen, h.trans (State.advanceUpc_of_le (by rwa [hseq]))⟩))
  · exact .inr (.inr (.inr ⟨hop, h⟩))

/-- A step that answers a next state, as operations on the state: reset, construction at one of the two levels, a step of the command in
flight, or nothing or one accepted command at one of the two levels; and then the ports move on. -/
theorem step_operations {s t : State} (h : step s = .next t) :
    (s.host.input.rst = true ∧ t = s.advanceHost.holdReset) ∨
    (s.host.input.rst = false ∧ ∃ u, t = u.advanceHost ∧
      ((s.seq.phase = .powerOn ∧ s.cfgRange.Ok ∧
          (u = (s.begun.writeMinVal Config.constants.initOrder).atRest ∨ u = s.begun.nextChannel Config.constants.initOrder)) ∨
       (s.InFlight ∧ u = s.stepMicro s.host.input.elapsed) ∨
       (s.seq.phase = .constructed ∧ s.seq.busy = false ∧
          (u = s ∨ ∃ i l, l ≠ .idle ∧ latchOf i s.config.range = .ok l ∧ (u = s.runCommand l ∨ u = (s.note l).latch l))))) := by
  rcases step_next_cases h with hreset | ⟨hr, u, ht, hu⟩
  · exact .inl hreset
  refine .inr ⟨hr, u, ht, ?_⟩
  rcases hu with ⟨hp, -, hx⟩ | ⟨hp, -, hx⟩ | ⟨⟨left, hp⟩, hx⟩ | ⟨hp, hb, hx⟩ | ⟨hp, hb, -, hx⟩ | ⟨hp, hb, -, -, hx⟩ | ⟨hp, hb, -, -, hx⟩
  · obtain ⟨hok, hu⟩ := construct_next_iff.1 hx
    exact .inl ⟨hp, hok, .inl hu⟩
  · obtain ⟨hok, hu⟩ := constructMicro_next_iff.1 hx
    exact .inl ⟨hp, hok, .inr hu⟩
  · exact .inr (.inl ⟨⟨by simp [hp], by simp [hp]⟩, hx⟩)
  · exact .inr (.inl ⟨⟨by simp [hp], fun _ => hb⟩, hx⟩)
  · exact .inr (.inr ⟨hp, hb, .inl hx⟩)
  · rcases exec_next_cases hx with ⟨-, hu⟩ | ⟨l, hne, hl, hu⟩
    · exact .inr (.inr ⟨hp, hb, .inl hu⟩)
    · exact .inr (.inr ⟨hp, hb, .inr ⟨_, l, hne, hl, .inl hu⟩⟩)
  · rcases accept_next_cases hx with ⟨-, hu⟩ | ⟨l, hne, hl, hu⟩
    · exact .inr (.inr ⟨hp, hb, .inl hu⟩)
    · exact .inr (.inr ⟨hp, hb, .inr ⟨_, l, hne, hl, .inr hu⟩⟩)

/-! ### What the operations keep, every step keeps -/

/-- The operations that a step without `rst` is made of keep `P`. -/
structure KeptByOperations (P : State → Prop) : Prop where
  withHost : ∀ s h, P s → P (s.withHost h)
  withSeq : ∀ s q, (q.cur = s.seq.cur ∨ q.cur.Computed) → P s → P (s.withSeq q)
  begun : ∀ s, P s → P s.begun
  note : ∀ s l, P s → P (s.note l)
  perform : ∀ s op, P s → P (s.perform op)
  finish : ∀ s, P s → P s.finish

namespace KeptByOperations

variable {P : State → Prop}

theorem latch (hP : KeptByOperations P) {s : State} {l : Latch} (hl : l.Computed) (hs : P s) : P (s.latch l) :=
  hP.withSeq s (s.seq.begin l) (.inr hl) hs

theorem performAll (hP : KeptByOperations P) {s : State} (ops : List MicroOp) (hs : P s) : P (s.performAll ops) := by
  induction ops generalizing s with
  | nil => exact hs
  | cons op ops ih => exact ih (hP.perform s op hs)

theorem runLatched (hP : KeptByOperations P) {s : State} {l : Latch} (hl : l.Computed) (hs : P s) : P (s.runLatched l) :=
  hP.finish _ (hP.performAll l.ops (hP.latch hl hs))

theorem runCommand (hP : KeptByOperations P) {s : State} {l : Latch} (hl : l.Computed) (hs : P s) : P (s.runCommand l) :=
  hP.runLatched hl (hP.note s l hs)

theorem atRest (hP : KeptByOperations P) {s : State} (hs : P s) : P s.atRest := hP.withSeq s _ (.inr Latch.idle_computed) hs

theorem writeMinVal (hP : KeptByOperations P) {s : State} (order : List Int) (hs : P s) : P (s.writeMinVal order) := by
  induction order generalizing s with
  | nil => exact hs
  | cons k ks ih => exact ih (hP.runLatched (Latch.writeJob_computed _ _ _) hs)

theorem nextChannel (hP : KeptByOperations P) {s : State} (left : List Int) (hs : P s) : P (s.nextChannel left) := by
  cases left with
  | nil => exact hP.withSeq s _ (.inr Latch.idle_computed) hs
  | cons k ks => exact hP.withSeq s _ (.inr (Latch.writeJob_computed _ _ _)) hs

theorem finishMicro (hP : KeptByOperations P) {s : State} (hs : P s) : P s.finishMicro := by
  unfold State.finishMicro
  split
  · exact hP.nextChannel _ (hP.finish s hs)
  · exact hP.finish s hs
  · exact hP.finish s hs

theorem stepMicro (hP : KeptByOperations P) {s : State} (elapsed : Nat) (hs : P s) : P (s.stepMicro elapsed) := by
  rcases s.stepMicro_inversion elapsed with ⟨us, -, -, h⟩ | ⟨op, w, -, -, -, -, -, h⟩ | ⟨op, -, -, -, h⟩ | ⟨-, h⟩ <;> rw [h]
  · exact hP.withSeq s _ (.inl rfl) hs
  · exact hP.withSeq _ _ (.inl (by rw [State.perform_seq]; rfl)) (hP.perform s op hs)
  · exact hP.finishMicro (hP.perform s op hs)
  · exact hP.finishMicro hs

/-- A step without `rst` keeps what its operations keep. -/
theorem through_step (hP : KeptByOperations P) {s t : State} (hr : s.host.input.rst = false) (h : step s = .next t) (hs : P s) : P t := by
  rcases step_operations h with ⟨hr', -⟩ | ⟨-, u, rfl, hu⟩
  · rw [hr] at hr'; cases hr'
  refine hP.withHost u _ ?_
  rcases hu with ⟨-, -, rfl | rfl⟩ | ⟨-, rfl⟩ | ⟨-, -, rfl | ⟨i, l, -, hl, rfl | rfl⟩⟩
  · exact hP.atRest (hP.writeMinVal _ (hP.begun s hs))
  · exact hP.nextChannel _ (hP.begun s hs)
  · exact hP.stepMicro _ hs
  · exact hs
  · exact hP.runCommand (latchOf_computed hl) hs
  · exact hP.latch (latchOf_computed hl) (hP.note s l hs)

/-- Every step keeps what its operations and reset keep. -/
theorem through_any_step (hP : KeptByOperations P) (hreset : ∀ s, P s → P s.holdReset) {s t : State} (h : step s = .next t)
    (hs : P s) : P t := by
  rcases step_operations h with ⟨-, rfl⟩ | ⟨hr, -⟩
  · exact hreset _ (hP.withHost s _ hs)
  · exact hP.through_step hr h hs

end KeptByOperations

/-! ### The mark and the monitor (R37, R212) -/

@[simp] theorem History.complete_mark (h : History) (l : Latch) (hm : h.protoViolation = true) :
    (h.complete l).protoViolation = true := by
  cases l <;> simp [hm]

theorem protoViolation_kept : KeptByOperations fun s => s.hist.protoViolation = true where
  withHost _ _ hs := hs
  withSeq _ _ _ hs := hs
  begun _ hs := hs
  note _ _ hs := by simp [hs]
  perform _ _ hs := by simp [hs]
  finish _ hs := by simp [hs]

/-- Settles O49: no operation clears the mark, and reset keeps it (R206). -/
theorem protoViolationIsSticky : Obligations.ProtoViolationIsSticky := fun _ _ hs h =>
  protoViolation_kept.through_any_step (fun s hm => by simp [hm]) h hs

/-- The monitor stands so that the mark is set where it has given up, and an open frame has at most 27 bits. -/
theorem State.MonitorOk.of_moveMonitor {s t : State} {m : FrameMonitor} (hm : ∀ bits, m = .opened bits → bits.length ≤ 27)
    (ht : t.hist = s.hist.moveMonitor m) : t.MonitorOk where
  marked hb := by rw [ht] at hb ⊢; simp_all
  short bits hb := by rw [ht] at hb; exact hm bits hb

/-- A frame that is open after acceptance was open with the same bits, has just begun, or has got one bit more (R212). -/
theorem FrameMonitor.accept_opened {m : FrameMonitor} {l : Latch} {bits : List Level} (h : m.accept l = .opened bits) :
    m = .opened bits ∨ bits = [] ∨ ∃ sent b, m = .opened sent ∧ sent.length < 27 ∧ bits = sent ++ [b] := by
  unfold FrameMonitor.accept at h
  split at h
  case h_1 => exact .inl h
  case h_3 => cases h; exact .inr (.inl rfl)
  case h_7 sent b =>
    split at h
    case isTrue hlt => cases h; exact .inr (.inr ⟨sent, b, rfl, hlt, rfl⟩)
    case isFalse => cases h
  case h_8 sent =>
    split at h
    case isTrue => exact .inl h
    case isFalse => cases h
  case h_2 => split at h <;> cases h
  all_goals cases h

/-- Acceptance never lets an open frame grow beyond 27 bits. -/
theorem FrameMonitor.accept_short {m : FrameMonitor} {l : Latch} (hm : ∀ bits, m = .opened bits → bits.length ≤ 27) :
    ∀ bits, m.accept l = .opened bits → bits.length ≤ 27 := by
  intro bits h
  rcases FrameMonitor.accept_opened h with h | rfl | ⟨sent, b, -, hlt, rfl⟩
  · exact hm bits h
  · simp
  · simpa using hlt

/-- The stop condition of a host-composed frame closes or breaks it. -/
theorem FrameMonitor.complete_stop_not_opened (m : FrameMonitor) (bits : List Level) : m.complete .stop ≠ .opened bits := by
  cases m with
  | opened sent => simp only [FrameMonitor.complete]; split <;> simp
  | closed => simp [FrameMonitor.complete]
  | broken => simp [FrameMonitor.complete]

theorem monitorOk_kept : KeptByOperations State.MonitorOk where
  withHost _ _ hs := ⟨hs.marked, hs.short⟩
  withSeq _ _ _ hs := ⟨hs.marked, hs.short⟩
  begun _ hs := ⟨hs.marked, hs.short⟩
  note s l hs := .of_moveMonitor (FrameMonitor.accept_short hs.short) (s.note_hist l)
  perform s op hs := ⟨by simpa using hs.marked, by simpa using hs.short⟩
  finish s hs := by
    cases hcur : s.seq.cur with
    | stop =>
      exact .of_moveMonitor (s := s) (fun bits h => absurd h (FrameMonitor.complete_stop_not_opened _ bits))
        (by rw [State.finish_hist, hcur, History.complete_stop])
    | _ => exact ⟨by simpa [hcur] using hs.marked, by simpa [hcur] using hs.short⟩

/-- Settles O59: the monitor moves by acceptance and completion only, and the mark moves with it. -/
theorem stepKeepsTheMonitorMarked : Obligations.StepKeepsTheMonitorMarked := fun _ _ hs h =>
  monitorOk_kept.through_any_step (fun s _ => ⟨by simp, by simp⟩) h hs

/-! ### The frame log (R37, R57, R154) -/

/-- The record of a channel write is genuine, whatever the operands (R144, R146). -/
theorem writeJob_record_genuine (ch : Int) (v : Value) (r : Range) : (writeJob ch v r).record.Genuine :=
  ⟨resolve ch, codeBitsOf v r, rfl, rfl⟩

theorem dacLogOk_kept : KeptByOperations State.DacLogOk where
  withHost _ _ hs := ⟨hs.log, hs.inFlight⟩
  withSeq s q hq hs := by
    refine ⟨hs.log, fun j hj => ?_⟩
    rcases hq with hq | hq
    · exact hs.inFlight j (hq.symm.trans hj)
    · obtain ⟨ch, v, r, rfl⟩ := hq j hj
      exact writeJob_record_genuine ch v r
  begun _ hs := ⟨hs.log, hs.inFlight⟩
  note _ _ hs := ⟨hs.log, hs.inFlight⟩
  perform s op hs := ⟨by simpa using hs.log, by simpa using hs.inFlight⟩
  finish s hs := by
    refine ⟨fun d hd => ?_, by simp⟩
    cases hcur : s.seq.cur with
    | write j =>
      simp only [State.finish_hist, hcur, History.complete_write, List.mem_append, List.mem_singleton] at hd
      rcases hd with hd | rfl
      · exact hs.log d hd
      · exact hs.inFlight j hcur
    | _ => exact hs.log d (by simpa [hcur] using hd)

/-- Settles O58: a record is written where a channel write completes, and what is in flight was computed by R146. -/
theorem stepKeepsTheFrameLogGenuine : Obligations.StepKeepsTheFrameLogGenuine := fun _ _ hs h =>
  dacLogOk_kept.through_any_step (fun s _ => ⟨by simp, by simp⟩) h hs

/-! ### The trace (R34 to R36, R214) -/

/-- A line holds what its own event says, or what it held. -/
theorem Lines.get_perform (l : Lines) (op : MicroOp) (n : Line) :
    (l.perform op).get n = (lastLevel n [op.event]).getD (l.get n) := by
  cases op with
  | set m v => simp only [Lines.perform_set, Lines.get_set, MicroOp.event, lastLevel]; split <;> rfl
  | wait us => rfl
  | cache k q => rfl

/-- A slot holds what its own event says, or what it held. -/
theorem OutCache.get_perform (c : OutCache) (op : MicroOp) (k : Channel) :
    (c.perform op).get k = (lastCached k [op.event]).orElse fun _ => c.get k := by
  cases op with
  | set m v => rfl
  | wait us => rfl
  | cache j q => simp only [OutCache.perform_cache, OutCache.get_set, MicroOp.event, lastCached]; split <;> rfl

theorem traceOk_kept : KeptByOperations State.TraceOk where
  withHost _ _ hs := ⟨hs.lines, hs.cache, hs.time⟩
  withSeq _ _ _ hs := ⟨hs.lines, hs.cache, hs.time⟩
  begun _ hs := ⟨hs.lines, hs.cache, hs.time⟩
  note _ _ hs := ⟨hs.lines, hs.cache, hs.time⟩
  perform s op hs := by
    refine ⟨fun n v h => ?_, fun k => ?_, ?_⟩
    · simp only [State.perform_hist, History.emit_trace, lastLevel_append] at h
      rw [State.perform_lines, Lines.get_perform]
      cases he : lastLevel n [op.event] with
      | some w => simpa [he] using h
      | none => exact hs.lines n v (by simpa [he] using h)
    · rw [State.perform_outCache, OutCache.get_perform, State.perform_hist, History.emit_trace, lastCached_append, hs.cache k]
    · simp [hs.time]
  finish _ hs := ⟨by simpa using hs.lines, by simpa using hs.cache, by simpa using hs.time⟩

/-- From `s` on, the lines have moved by appended events only. -/
theorem soleDriver_kept (s : State) : KeptByOperations (SoleDriver s) where
  withHost _ _ ht := ht
  withSeq _ _ _ ht := ht
  begun _ ht := ht
  note _ _ ht := ht
  perform t op ht := by
    obtain ⟨es, htrace, hlines⟩ := ht
    refine ⟨es ++ [op.event], by simp [htrace], fun n => ?_⟩
    rw [State.perform_lines, Lines.get_perform, lastLevel_append, hlines n]
    cases lastLevel n [op.event] <;> rfl
  finish t ht := by
    obtain ⟨es, htrace, hlines⟩ := ht
    exact ⟨es, by simpa using htrace, hlines⟩

theorem soleDriver_refl (s : State) : SoleDriver s s := ⟨[], by simp, fun _ => rfl⟩

theorem traceOk_holdReset (s : State) : s.holdReset.TraceOk := ⟨by simp [lastLevel], by simp [lastCached], by simp⟩

/-- Settles O57: only a micro-operation moves a line, a slot or the time, and it appends the event that says so. -/
theorem stepKeepsTheTraceExact : Obligations.StepKeepsTheTraceExact :=
  ⟨fun _ _ hs h => traceOk_kept.through_any_step (fun s _ => traceOk_holdReset s) h hs,
    fun s _ hr h => (soleDriver_kept s).through_step hr h (soleDriver_refl s)⟩

/-! ### The sequencer (R29 to R33) -/

theorem State.SequencerOk.of_seq_eq {s t : State} (hs : s.SequencerOk) (h : t.seq = s.seq) : t.SequencerOk :=
  ⟨by rw [h]; exact hs.idle, by rw [h]; exact hs.inFlight, by rw [h]; exact hs.listFits, by rw [h]; exact hs.waiting,
    by rw [h]; exact hs.powerOn, by rw [h]; exact hs.constructing⟩

/-- Outside construction a sequencer with nothing in flight is consistent. -/
theorem State.SequencerOk.of_rest {t : State} {q : Sequencer} (h : t.seq = q.rest) (hp : ∀ left, q.phase ≠ .constructing left) :
    t.SequencerOk := by
  constructor <;> simp [h, hp, Latch.ops]

/-- A sequencer that has just latched a command is consistent; in construction the command is a channel write. -/
theorem State.SequencerOk.of_begin {t : State} {q : Sequencer} {l : Latch} (h : t.seq = q.begin l) (hne : l ≠ .idle)
    (hp : q.phase ≠ .powerOn) (hw : ∀ left, q.phase = .constructing left → ∃ j, l = .write j) : t.SequencerOk where
  idle hb := by rw [h] at hb; cases hb
  inFlight _ := by rw [h]; exact Latch.ops_length_pos hne
  listFits := Latch.ops_length_le _
  waiting hw := by rw [h] at hw; exact absurd rfl hw
  powerOn hp' := by rw [h] at hp'; exact absurd hp' hp
  constructing left hc := by rw [h] at hc ⊢; exact ⟨rfl, hw left hc⟩

/-- The same command in flight stays consistent at another index inside its list, with the timer 0 or running on a wait. -/
theorem State.SequencerOk.of_moved {s t : State} {upc : BitVec 8} {w : Nat} (hs : s.SequencerOk) (hb : s.seq.busy = true)
    (h : t.seq = s.seq.moved upc w) (hupc : upc.toNat < s.seq.cur.ops.length)
    (hw : w ≠ 0 → w ≤ 5 ∧ s.seq.cur.ops[upc.toNat]? = some waitOp) : t.SequencerOk where
  idle hb' := by rw [h] at hb'; exact absurd (hb.symm.trans hb') (by simp)
  inFlight _ := by rw [h]; exact hupc
  listFits := Latch.ops_length_le _
  waiting hw' := by rw [h] at hw' ⊢; exact hw hw'
  powerOn hp := by rw [h] at hp ⊢; exact hs.powerOn hp
  constructing left hc := by rw [h] at hc ⊢; exact hs.constructing left hc

theorem State.nextChannel_sequencerOk (s : State) (left : List Int) : (s.nextChannel left).SequencerOk := by
  cases left with
  | nil => exact .of_rest (q := { s.seq with phase := .constructed }) rfl (by simp)
  | cons k ks =>
    exact .of_begin (q := { s.seq with phase := .constructing ks }) rfl (by simp) (by simp) fun _ _ => ⟨_, rfl⟩

/-- Completion leaves the sequencer consistent, whatever it was. -/
theorem State.finishMicro_sequencerOk (s : State) : s.finishMicro.SequencerOk := by
  unfold State.finishMicro
  split
  case h_1 left _ => exact s.finish.nextChannel_sequencerOk left
  case h_2 hp => exact .of_rest (q := s.seq) rfl (by simp [hp])
  case h_3 hp => exact .of_rest (q := s.seq) rfl (by simp [hp])

theorem State.SequencerOk.busy_of_inFlight {s : State} (hs : s.SequencerOk) (hf : s.InFlight) : s.seq.busy = true := by
  cases hp : s.seq.phase with
  | powerOn => exact absurd hp hf.1
  | constructing left => exact (hs.constructing left hp).1
  | constructed => exact hf.2 hp

/-- The wait still to last is at most a whole wait (R33). -/
theorem State.SequencerOk.waitLeft_le {s : State} {us : Nat} (hs : s.SequencerOk)
    (hop : s.seq.cur.ops[s.seq.upc.toNat]? = some (.wait us)) : s.seq.waitLeft us ≤ 5 := by
  unfold Sequencer.waitLeft
  split
  · exact (Latch.waits_are_five _ us (List.mem_of_getElem? hop)).le
  · exact (hs.waiting ‹_›).1

theorem State.SequencerOk.stepMicro {s : State} (hs : s.SequencerOk) (hf : s.InFlight) (elapsed : Nat) :
    (s.stepMicro elapsed).SequencerOk := by
  have hb := hs.busy_of_inFlight hf
  rcases s.stepMicro_inversion elapsed with ⟨us, hop, -, h⟩ | ⟨op, w, hop, -, hw, hlt, hupc, h⟩ | ⟨op, -, -, -, h⟩ | ⟨-, h⟩ <;> rw [h]
  · refine hs.of_moved hb rfl (hs.inFlight hb) fun _ => ⟨(Nat.sub_le _ _).trans (hs.waitLeft_le hop), ?_⟩
    rw [hop, Latch.waits_are_five _ us (List.mem_of_getElem? hop), waitOp_eq]
  · refine hs.of_moved hb rfl (by omega) fun hne => ?_
    rcases hw with hw | ⟨rfl, hnot⟩
    · exact absurd hw hne
    · have hwait := (hs.waiting hne).2
      exact absurd (Option.some.inj (hop.symm.trans hwait)) (hnot 5)
  · exact State.finishMicro_sequencerOk _
  · exact State.finishMicro_sequencerOk _

/-- Settles O55: a step rests the sequencer, latches a command, or moves its index inside the list. -/
theorem stepKeepsTheSequencerConsistent : Obligations.StepKeepsTheSequencerConsistent := by
  intro s t hs h
  rcases step_operations h with ⟨-, rfl⟩ | ⟨-, u, rfl, hu⟩
  · exact .of_rest (q := { s.seq with phase := .powerOn }) (State.holdReset_seq _) (by simp)
  refine State.SequencerOk.of_seq_eq ?_ u.advanceHost_seq
  rcases hu with ⟨-, -, rfl | rfl⟩ | ⟨hf, rfl⟩ | ⟨hp, -, rfl | ⟨i, l, hne, -, rfl | rfl⟩⟩
  · exact .of_rest (q := { s.seq with phase := .constructed }) rfl (by simp)
  · exact State.nextChannel_sequencerOk _ _
  · exact hs.stepMicro hf _
  · exact hs
  · exact .of_rest (State.runCommand_seq s l) (by simp [hp])
  · exact .of_begin (q := s.seq) rfl hne (by simp [hp]) (by simp [hp])

/-- A wait that is held keeps the index; one that has passed moves it on or completes the command. -/
theorem State.stepMicro_wait {s : State} (hop : s.seq.cur.ops[s.seq.upc.toNat]? = some (.wait 5)) (elapsed : Nat) :
    (elapsed < s.seq.waitLeft 5 ∧ s.stepMicro elapsed = s.withSeq (s.seq.moved s.seq.upc (s.seq.waitLeft 5 - elapsed))) ∨
    (s.seq.waitLeft 5 ≤ elapsed ∧ s.seq.upc.toNat + 1 < s.seq.cur.ops.length ∧ (s.seq.upc + 1).toNat = s.seq.upc.toNat + 1 ∧
      s.stepMicro elapsed = (s.waitFor 5).withSeq (s.seq.moved (s.seq.upc + 1) 0)) ∨
    (s.seq.waitLeft 5 ≤ elapsed ∧ s.seq.cur.ops.length ≤ s.seq.upc.toNat + 1 ∧ s.stepMicro elapsed = (s.waitFor 5).finishMicro) := by
  rcases s.stepMicro_inversion elapsed with ⟨us, hop', hlt, h⟩ | ⟨op, w, hop', hle, hw, hlt, hupc, h⟩ | ⟨op, hop', hle, hlen, h⟩ | ⟨hop', -⟩ <;>
    rw [hop] at hop' <;> cases hop'
  · exact .inl ⟨hlt, h⟩
  · rcases hw with rfl | ⟨-, hnot⟩
    · exact .inr (.inl ⟨hle 5 rfl, hlt, hupc, h⟩)
    · exact absurd rfl (hnot 5)
  · exact .inr (.inr ⟨hle 5 rfl, hlen, h⟩)

/-- Settles O40, by the three things a wait can do (`State.stepMicro_wait`). -/
theorem waitHoldsTheSequencer : Obligations.WaitHoldsTheSequencer := by
  intro s t left hp hb hr hop hleft hstep
  rw [step_inFlight hr (by simp [hp]) fun _ => hb] at hstep
  cases hstep
  change left = s.seq.waitLeft 5 at hleft
  rw [hleft]
  rcases State.stepMicro_wait hop s.host.input.elapsed with ⟨hlt, h⟩ | ⟨hle, hlt, hupc, h⟩ | ⟨hle, hlen, h⟩ <;> rw [h]
  · exact ⟨fun _ => ⟨rfl, rfl, rfl, rfl⟩, fun hle => by omega⟩
  · exact ⟨fun _ => by omega, fun _ => ⟨rfl, rfl, rfl, rfl, rfl, fun _ => ⟨hupc, hb⟩, fun _ => by omega⟩⟩
  · rw [State.finishMicro_of_constructed (s := s.waitFor 5) hp]
    exact ⟨fun _ => by omega, fun _ => ⟨rfl, rfl, by simp, by simp [Event.micros], rfl, fun _ => by omega, fun _ => ⟨rfl, rfl⟩⟩⟩

/-! ### The command in flight is not disturbed (R31) -/

/-- With nothing in flight there is nothing to complete. -/
theorem State.completed_of_rest {s : State} (h : s.seq = s.seq.rest) : s.completed = s := by
  have hcur : s.seq.cur = .idle := by rw [h]; rfl
  have hrem : s.remaining = [] := by rw [State.remaining, hcur]; simp [Latch.ops]
  rw [State.completed, hrem, State.performAll_nil, State.finish, hcur, History.complete_idle, ← h]

/-- After a step of a command of the host, the command is still in flight or the sequencer rests. -/
theorem State.stepMicro_busy_or_rest {s : State} (hp : s.seq.phase = .constructed) (hb : s.seq.busy = true) (elapsed : Nat) :
    (s.stepMicro elapsed).seq.phase = .constructed ∧
      ((s.stepMicro elapsed).seq.busy = true ∨ (s.stepMicro elapsed).seq = (s.stepMicro elapsed).seq.rest) := by
  have hfin (v : State) (hv : v.seq = s.seq) : v.finishMicro.seq = s.seq.rest := by
    rw [State.finishMicro_of_constructed (by rw [hv, hp]), State.finish_seq, hv]
  rcases s.stepMicro_inversion elapsed with ⟨us, -, -, h⟩ | ⟨op, w, -, -, -, -, -, h⟩ | ⟨op, -, -, -, h⟩ | ⟨-, h⟩ <;> rw [h]
  · exact ⟨hp, .inl hb⟩
  · exact ⟨hp, .inl hb⟩
  · rw [hfin _ (s.perform_seq op)]; exact ⟨hp, .inr rfl⟩
  · rw [hfin s rfl]; exact ⟨hp, .inr rfl⟩

/-- A constructed block settles in the state in which the command in flight will have completed. -/
theorem State.settled_eq_completed {s : State} (hp : s.seq.phase = .constructed) (h : s.seq.busy = true ∨ s.seq = s.seq.rest) :
    s.settled = s.completed := by
  rcases h with hb | hrest
  · have hphase : s.completed.seq.phase = .constructed := by simp [State.completed, State.performAll_eq, hp]
    rw [State.settled_of_inFlight ⟨by simp [hp], fun _ => hb⟩, State.wrapUp_of_constructed hphase]
  · rw [State.settled_of_idle hp (by rw [hrest]; rfl), State.completed_of_rest hrest]

/-- Settles O38: a step of the sequencer keeps what the state settles in (`State.stepMicro_settled`). -/
theorem commandInFlightIsNotDisturbed : Obligations.CommandInFlightIsNotDisturbed := by
  intro s t hp hb hr hstep
  have hf : s.InFlight := ⟨by simp [hp], fun _ => hb⟩
  rw [step_inFlight hr hf.1 hf.2] at hstep
  cases hstep
  obtain ⟨hp', hb'⟩ := State.stepMicro_busy_or_rest hp hb s.host.input.elapsed
  have hkept : (s.stepMicro s.host.input.elapsed).completed = s.completed := by
    rw [← State.settled_eq_completed hp' hb', State.stepMicro_settled hf, State.settled_eq_completed hp (.inl hb)]
  rw [State.advanceHost_eq_withHost, State.completed_withHost, hkept]
  exact State.sameBlock_withHost _ _

/-! ### The cache, the Range and `DIR` (R23, R24, R27) -/

/-- A cache slot holds a value in the Range (R24). -/
def State.Filled (s : State) (k : Channel) : Prop := ∃ q, s.outCache.get k = some q ∧ InRange s.config.range q

/-- What a channel write latches lies in a good Range (R141). -/
theorem writeJob_inRange (ch : Int) (v : Value) {r : Range} (h : r.Ok) : InRange r (writeJob ch v r).value := clamp_mem v r h

/-- Only a channel write writes the cache: its own slot, with its own value (R148). -/
theorem Latch.cache_mem_ops {l : Latch} {k : Channel} {q : Value} (h : .cache k q ∈ l.ops) :
    ∃ j, l = .write j ∧ k = j.slot ∧ q = j.value := by
  cases l with
  | write j => exact ⟨j, rfl, by simpa [Latch.ops, writeOps, startOps, bitOps, stopOps] using h⟩
  | idle => simp [Latch.ops] at h
  | line n v => simp [Latch.ops] at h
  | start => simp [Latch.ops, startOps] at h
  | bit b => simp [Latch.ops, bitOps] at h
  | stop => simp [Latch.ops, stopOps] at h

/-- The last micro-operation of a channel write is the cache write (R147, R148). -/
theorem Latch.write_last_op {j : WriteJob} {i : Nat} {op : MicroOp} (h : (Latch.write j).ops[i]? = some op)
    (hlen : (Latch.write j).ops.length ≤ i + 1) : op = .cache j.slot j.value := by
  have hlast : (Latch.write j).ops.getLast? = some (.cache j.slot j.value) := by
    rw [Latch.ops, writeOps, List.getLast?_concat]
  have hi : i = (Latch.write j).ops.length - 1 := by
    have := (List.getElem?_eq_some_iff.1 h).1
    omega
  rw [List.getLast?_eq_getElem?, ← hi, h] at hlast
  exact Option.some.inj hlast

/-- A micro-operation of the command in flight keeps a slot in the Range. -/
theorem State.CacheOk.filled_perform {s : State} {op : MicroOp} {k : Channel} (hs : s.CacheOk) (hop : op ∈ s.seq.cur.ops)
    (hk : s.Filled k) : (s.perform op).Filled k := by
  unfold State.Filled
  rw [State.perform_outCache, State.perform_config]
  cases op with
  | set n v => exact hk
  | wait us => exact hk
  | cache k' q =>
    rw [OutCache.perform_cache, OutCache.get_set]
    obtain ⟨j, hj, -, rfl⟩ := Latch.cache_mem_ops hop
    split
    · exact ⟨_, rfl, hs.inFlight j hj⟩
    · exact hk

theorem State.CacheOk.perform {s : State} {op : MicroOp} (hs : s.CacheOk) (hop : op ∈ s.seq.cur.ops) : (s.perform op).CacheOk where
  range := by simpa using hs.range
  inFlight := by simpa using hs.inFlight
  slots hp k := by rw [State.perform_seq] at hp; exact hs.filled_perform hop (hs.slots hp k)
  slotsSoFar left hp k := by
    rw [State.perform_seq] at hp ⊢
    exact (hs.slotsSoFar left hp k).imp_left (hs.filled_perform hop)
  atPowerOn := by simpa [State.cfgRange] using hs.atPowerOn

theorem State.CacheOk.performAll {s : State} {ops : List MicroOp} (hs : s.CacheOk) (hops : ∀ op ∈ ops, op ∈ s.seq.cur.ops) :
    (s.performAll ops).CacheOk := by
  induction ops generalizing s with
  | nil => exact hs
  | cons op ops ih =>
    refine ih (hs.perform (hops op (by simp))) fun op' h => ?_
    rw [State.perform_seq]
    exact hops op' (by simp [h])

/-- The place in the list of the command in flight has no part in the cache. -/
theorem State.CacheOk.withSeq {s : State} {q : Sequencer} (hs : s.CacheOk) (hp : q.phase = s.seq.phase) (hcur : q.cur = s.seq.cur) :
    (s.withSeq q).CacheOk where
  range h := hs.range (by rwa [← hp])
  inFlight j h := hs.inFlight j (by rwa [← hcur])
  slots h := hs.slots (hp.symm.trans h)
  slotsSoFar left h k := by rw [State.withSeq_seq, hcur]; exact hs.slotsSoFar left (hp.symm.trans h) k
  atPowerOn h := hs.atPowerOn (hp.symm.trans h)

/-- A constructed block accepts a command: what a channel write latches lies in the Range. -/
theorem State.CacheOk.accept {s : State} {i : Instr} {l : Latch} (hs : s.CacheOk) (hp : s.seq.phase = .constructed)
    (hl : latchOf i s.config.range = .ok l) : ((s.note l).latch l).CacheOk where
  range := hs.range
  inFlight j h := by
    obtain ⟨hr, ch, v, rfl⟩ := latchOf_write (hl.trans (congrArg _ h))
    exact writeJob_inRange ch v hr
  slots := hs.slots
  slotsSoFar left h := by cases hp.symm.trans h
  atPowerOn := hs.atPowerOn

/-- A constructed block completes a command. -/
theorem State.CacheOk.finish {s : State} (hs : s.CacheOk) (hp : s.seq.phase = .constructed) : s.finish.CacheOk where
  range := hs.range
  inFlight j h := by cases h
  slots := hs.slots
  slotsSoFar left h := by cases hp.symm.trans h
  atPowerOn := hs.atPowerOn

/-- Construction goes on: every slot is in the Range already, or still to be written (R202). -/
theorem State.cacheOk_nextChannel {s : State} {left : List Int} (hr : s.config.range.Ok) (hd : s.dir = 0b1111#4)
    (hk : ∀ k, s.Filled k ∨ k ∈ left.map resolve) : (s.nextChannel left).CacheOk := by
  cases left with
  | nil =>
    exact
      { range := fun _ => ⟨hr, hd⟩
        inFlight := fun j h => by cases h
        slots := fun _ k => (hk k).resolve_right (by simp)
        slotsSoFar := fun left h => by cases h
        atPowerOn := fun h => by cases h }
  | cons n ns =>
    refine
      { range := fun _ => ⟨hr, hd⟩
        inFlight := fun j h => by cases h; exact writeJob_inRange n _ hr
        slots := fun h => by cases h
        slotsSoFar := fun left h k => ?_
        atPowerOn := fun h => by cases h }
    cases h
    rcases hk k with hk | hk
    · exact .inl hk
    · rcases List.mem_cons.1 hk with rfl | hk
      · exact .inr (.inl ⟨_, rfl, rfl⟩)
      · exact .inr (.inr hk)

/-- The command in flight completes, its slot in the Range. -/
theorem State.CacheOk.finishMicro {s : State} (hs : s.CacheOk) (hp : s.seq.phase ≠ .powerOn)
    (hslot : ∀ j, s.seq.cur = .write j → s.Filled j.slot) : s.finishMicro.CacheOk := by
  cases hph : s.seq.phase with
  | powerOn => exact absurd hph hp
  | constructed => rw [State.finishMicro_of_constructed hph]; exact hs.finish hph
  | constructing left =>
    obtain ⟨hr, hd⟩ := hs.range hp
    rw [State.finishMicro, hph]
    refine State.cacheOk_nextChannel hr hd fun k => ?_
    rcases hs.slotsSoFar left hph k with hk | ⟨j, hj, rfl⟩ | hk
    · exact .inl hk
    · exact .inl (hslot j hj)
    · exact .inr hk

/-- The last micro-operation of a channel write has put a value of the Range into its slot. -/
theorem State.CacheOk.filled_of_last {s : State} {op : MicroOp} (hs : s.CacheOk) (hop : s.seq.cur.ops[s.seq.upc.toNat]? = some op)
    (hlen : s.seq.cur.ops.length ≤ s.seq.upc.toNat + 1) {j : WriteJob} (hj : s.seq.cur = .write j) : (s.perform op).Filled j.slot := by
  have hr := hs.inFlight j hj
  rw [hj] at hop hlen
  rw [Latch.write_last_op hop hlen]
  exact ⟨j.value, by simp, by simpa using hr⟩

theorem State.CacheOk.stepMicro {s : State} (hq : s.SequencerOk) (hs : s.CacheOk) (hf : s.InFlight) (elapsed : Nat) :
    (s.stepMicro elapsed).CacheOk := by
  rcases s.stepMicro_inversion elapsed with ⟨us, -, -, h⟩ | ⟨op, w, hop, -, -, -, -, h⟩ | ⟨op, hop, -, hlen, h⟩ | ⟨hop, -⟩
  · rw [h]; exact hs.withSeq rfl rfl
  · rw [h]; exact (hs.perform (List.mem_of_getElem? hop)).withSeq (by rw [State.perform_seq]; rfl) (by rw [State.perform_seq]; rfl)
  · rw [h]
    refine (hs.perform (List.mem_of_getElem? hop)).finishMicro (by rw [State.perform_seq]; exact hf.1) fun j hj => ?_
    rw [State.perform_seq] at hj
    exact hs.filled_of_last hop hlen hj
  · have hin := hq.inFlight (hq.busy_of_inFlight hf)
    have hout := List.getElem?_eq_none_iff.1 hop
    omega

/-- Construction leaves `minVal` in every slot (R202, R203). -/
theorem State.writeMinVal_initOrder_get {s : State} (hr : s.config.range.Ok) (k : Channel) :
    (s.writeMinVal Config.constants.initOrder).outCache.get k = some s.config.range.minVal := by
  rw [(writeMinVal_written _ s).cache, clamp_min _ hr]
  cases k <;> rfl

/-- Construction's channel writes leave all lines outputs, in any order of channels (R23, R202). -/
theorem State.begun_writeMinVal_dir (s : State) (order : List Int) : (s.begun.writeMinVal order).dir = 0b1111#4 :=
  (writeMinVal_written order s.begun).dir

/-- Construction's channel writes leave the Range that was sampled (R26, R202). -/
theorem State.begun_writeMinVal_range (s : State) (order : List Int) : (s.begun.writeMinVal order).config.range = s.cfgRange :=
  congrArg Configuration.range (writeMinVal_written order s.begun).config

theorem State.nextChannel_nil (s : State) : s.nextChannel [] = s.atRest := rfl

/-- The end of construction at the command level (R202, R203). -/
theorem State.cacheOk_constructed {s : State} (hr : s.cfgRange.Ok) : (s.begun.writeMinVal Config.constants.initOrder).atRest.CacheOk := by
  have hrange := s.begun_writeMinVal_range Config.constants.initOrder
  rw [← State.nextChannel_nil]
  refine State.cacheOk_nextChannel (by rwa [hrange]) (s.begun_writeMinVal_dir _) fun k => .inl ⟨s.cfgRange.minVal, ?_, ?_⟩
  · exact State.writeMinVal_initOrder_get (s := s.begun) hr k
  · rw [hrange]; exact ⟨le_refl _, le_of_lt hr⟩

/-- Outside power-on the ports have no part in the cache. -/
theorem State.CacheOk.withHost {s : State} (hs : s.CacheOk) (hp : s.seq.phase ≠ .powerOn) (h : HostSide) : (s.withHost h).CacheOk :=
  ⟨hs.range, hs.inFlight, hs.slots, hs.slotsSoFar, fun h => absurd h hp⟩

theorem State.nextChannel_phase (s : State) (left : List Int) : (s.nextChannel left).seq.phase ≠ .powerOn := by
  cases left <;> simp [State.nextChannel]

theorem State.finishMicro_phase {s : State} (hp : s.seq.phase ≠ .powerOn) : s.finishMicro.seq.phase ≠ .powerOn := by
  unfold State.finishMicro
  split
  · exact State.nextChannel_phase _ _
  · exact hp
  · exact hp

theorem State.stepMicro_phase {s : State} (hp : s.seq.phase ≠ .powerOn) (elapsed : Nat) : (s.stepMicro elapsed).seq.phase ≠ .powerOn := by
  rcases s.stepMicro_inversion elapsed with ⟨us, -, -, h⟩ | ⟨op, w, -, -, -, -, -, h⟩ | ⟨op, -, -, -, h⟩ | ⟨-, h⟩ <;> rw [h]
  · exact hp
  · exact hp
  · exact State.finishMicro_phase (by rwa [State.perform_seq])
  · exact State.finishMicro_phase hp

/-- Settles O56: only the cache write of a channel write changes a slot, and its value was clamped (R141). -/
theorem stepKeepsTheCacheInRange : Obligations.StepKeepsTheCacheInRange := by
  intro s t hq hs h
  rcases step_operations h with ⟨-, rfl⟩ | ⟨-, u, rfl, hu⟩
  · exact ⟨by simp, by simp, by simp, by simp, by simp⟩
  suffices hok : u.CacheOk ∧ u.seq.phase ≠ .powerOn from hok.1.withHost hok.2 _
  rcases hu with ⟨-, hr, rfl | rfl⟩ | ⟨hf, rfl⟩ | ⟨hp, -, rfl | ⟨i, l, -, hl, rfl | rfl⟩⟩
  · exact ⟨State.cacheOk_constructed hr, by simp [State.atRest]⟩
  · refine ⟨State.cacheOk_nextChannel hr rfl fun k => .inr ?_, State.nextChannel_phase _ _⟩
    cases k <;> decide
  · exact ⟨hs.stepMicro hq hf _, State.stepMicro_phase hf.1 _⟩
  · exact ⟨hs, by simp [hp]⟩
  · have hdone := (hs.accept hp hl).performAll (ops := l.ops) fun _ hop => hop
    exact ⟨hdone.finish (by rw [State.performAll_eq]; exact hp), by simp [hp]⟩
  · exact ⟨hs.accept hp hl, by simp [hp]⟩

/-- Settles O53: of all operations only the beginning of construction writes `DIR`. -/
theorem dirIsFixed : Obligations.DirIsFixed := by
  refine ⟨fun order s t h => ?_, fun i s t h => (exec_frame h).1, fun s t hp hr h => ?_⟩
  · obtain ⟨-, rfl⟩ := construct_next_iff.1 h
    exact s.begun_writeMinVal_dir order
  · rcases step_operations h with ⟨hr', -⟩ | ⟨-, u, rfl, hu⟩
    · rw [hr] at hr'; cases hr'
    rw [State.advanceHost_dir]
    rcases hu with ⟨hp', -⟩ | ⟨-, rfl⟩ | ⟨-, -, rfl | ⟨i, l, -, -, rfl | rfl⟩⟩
    · exact absurd hp' hp
    · exact (stepMicro_frame s _).1
    · rfl
    · exact State.runCommand_dir s l
    · rfl

/-! ### `OUT` and the events of one command (R22, R35) -/

/-- In the default layout `CS2`, `CS1`, `DATA`, `CLOCK` are bits 3 to 0 (R22). -/
theorem Lines.out_eq (l : Lines) :
    l.out = BitVec.ofBool l.cs2 ++ BitVec.ofBool l.cs1 ++ BitVec.ofBool l.data ++ BitVec.ofBool l.clock := rfl

/-- Each line is the bit of `OUT` it is wired to. -/
theorem Lines.out_wiring (l : Lines) (n : Line) : l.out.getLsbD (Config.constants.wiring n) = l.get n := by
  obtain ⟨clock, data, cs1, cs2⟩ := l
  cases n <;> (revert clock data cs1 cs2; decide)

theorem wiring_injective : Function.Injective Config.constants.wiring := by
  intro m n
  cases m <;> cases n <;> decide

theorem wiring_surjective : Function.Surjective Config.constants.wiring := by
  intro k
  fin_cases k
  exacts [⟨.clock, rfl⟩, ⟨.data, rfl⟩, ⟨.cs1, rfl⟩, ⟨.cs2, rfl⟩]

/-- Settles O12: a primitive sets its line (`Lines.get_set`), and each line is one bit of `OUT`. -/
theorem primitivesChangeOneBitOfOut : Obligations.PrimitivesChangeOneBitOfOut := by
  refine ⟨Lines.out_eq, fun i n v s t hi ht k => ?_⟩
  rw [exec_primitive hi] at ht
  cases ht
  obtain ⟨m, rfl⟩ := wiring_surjective k
  rw [Lines.out_wiring, Lines.out_wiring, State.runCommand_lines]
  simp only [Latch.ops, Lines.performAll_cons, Lines.performAll_nil, Lines.perform_set, Lines.get_set, wiring_injective.eq_iff, eq_comm]

/-- Settles O31: the events are those of the latched list, and the latch is computed from the command and the Range. -/
theorem eventsDoNotDependOnTheStartState : Obligations.EventsDoNotDependOnTheStartState := by
  refine ⟨fun i n v s t hi ht => ?_, fun i s s' t hr ht => ?_⟩
  · rw [exec_primitive hi] at ht
    cases ht
    exact ⟨by simp [Latch.ops], by simp [Latch.events, Latch.ops, MicroOp.event]⟩
  · rcases exec_next_cases ht with ⟨rfl, rfl⟩ | ⟨l, hne, hl, rfl⟩
    · exact ⟨s', [], rfl, by simp, by simp⟩
    · rw [hr] at hl
      exact ⟨s'.runCommand l, l.events, exec_of_latch hl hne, by simp, by simp⟩

/-! ### Construction and the launch state (R27, R39, R202, R203) -/

/-- The chip-select levels of a channel number (R57, R144). -/
theorem csLevel_resolve (ch : Int) :
    Config.constants.csLevel (resolve ch) = if ch = 3 then (true, true) else if ch = 2 then (false, true) else (true, false) := by
  rw [resolve_eq]; split_ifs <;> rfl

/-- After the channel writes of construction the lines stand as the last one left them. -/
theorem State.writeMinVal_lines (s : State) (order : List Int) (last : Int) :
    (s.writeMinVal (order ++ [last])).lines = .written (resolve last) := by
  rw [(writeMinVal_written _ s).lines, List.foldl_append]
  rfl

/-- Settles O45, for every order, by the lines the last channel write leaves (`State.writeMinVal_lines`). -/
theorem lastChannelOfInitOrderSetsTheChipSelects : Obligations.LastChannelOfInitOrderSetsTheChipSelects := by
  intro order last s hok
  refine ⟨_, construct_eq _ hok, ?_⟩
  have hlines : (s.begun.writeMinVal (order ++ [last])).atRest.lines = .written (resolve last) := State.writeMinVal_lines _ _ _
  rw [hlines]
  exact ⟨rfl, rfl, csLevel_resolve last⟩

/-- Settles O43: both levels begin construction with the same check (R202 step 1). -/
theorem badRangeIsRefusedAtConstruction : Obligations.BadRangeIsRefusedAtConstruction := by
  intro s hp hr hle
  have hbad : ¬ s.cfgRange.Ok := by rw [State.cfgRange, q16Range_ok_iff]; omega
  cases hg : s.host.grain with
  | command => rw [step_construct hp hr hg, construct, beginConstruction_bad hbad]; rfl
  | micro => rw [step_constructMicro hp hr hg, constructMicro, beginConstruction_bad hbad]; rfl

theorem constructionRecords_genuine (order : List Int) (r : Range) : ∀ d ∈ constructionRecords order r, d.Genuine := by
  intro d hd
  simp only [constructionRecords, constructionJobs, List.map_map, List.mem_map] at hd
  obtain ⟨k, -, rfl⟩ := hd
  exact writeJob_record_genuine k _ r

/-- The same block with an unwritten cache and nothing recorded. -/
def State.forgetful (s : State) : State :=
  { s with
    outCache := .unwritten
    hist := { trace := [], now := 0, dacLog := [], protoViolation := s.hist.protoViolation, monitor := s.hist.monitor } }

/-- The trace of a constructed block is exact, because construction from nothing recorded keeps it so (R203). -/
theorem State.Constructed.traceOk {s : State} (h : s.Constructed) : s.TraceOk := by
  have hw := writeMinVal_written Config.constants.initOrder s.forgetful
  have hnew : s.forgetful.TraceOk := ⟨by simp [State.forgetful, lastLevel], by simp [State.forgetful, lastCached], by simp [State.forgetful]⟩
  have hok := traceOk_kept.writeMinVal Config.constants.initOrder hnew
  have htrace : (s.forgetful.writeMinVal Config.constants.initOrder).hist.trace = s.hist.trace := by
    rw [hw.trace, h.trace]; rfl
  refine ⟨fun n v hv => ?_, fun k => ?_, by rw [h.time, h.trace]⟩
  · rw [h.lines, ← hok.lines n v (by rwa [htrace]), hw.lines]
    rfl
  · rw [h.cache k, ← htrace, ← hok.cache k]
    exact (State.writeMinVal_initOrder_get (s := s.forgetful) h.rangeOk k).symm

/-- A constructed block with an empty latch meets every invariant (R203, R222). -/
theorem State.Constructed.inv {s : State} (h : s.Constructed) (hrest : s.seq = s.seq.rest) : s.Inv where
  sequencer := .of_rest hrest (by simp [h.phase])
  cache :=
    { range := fun _ => ⟨h.rangeOk, h.dir⟩
      inFlight := fun j hj => by rw [hrest] at hj; cases hj
      slots := fun _ k => ⟨_, h.cache k, le_refl _, le_of_lt h.rangeOk⟩
      slotsSoFar := fun left hp => by cases h.phase.symm.trans hp
      atPowerOn := fun hp => by cases h.phase.symm.trans hp }
  trace := h.traceOk
  dacLog := ⟨by rw [h.dacLog]; exact constructionRecords_genuine _ _, fun j hj => by rw [hrest] at hj; cases hj⟩
  monitor := ⟨by simp [h.noFrame], by simp [h.noFrame]⟩

/-- The default Range is good (R27). -/
theorem rangeDefault_ok : Config.constants.rangeDefault.Ok := by simp [Range.Ok]

theorem reset_constructed : State.reset.Constructed where
  phase := rfl
  notBusy := rfl
  atStart := rfl
  rangeOk := rangeDefault_ok
  lines := rfl
  dir := rfl
  cache k := by cases k <;> rfl
  trace := by simp only [State.reset]
  time := by simp only [State.reset]
  dacLog := by simp only [State.reset]
  noMark := rfl
  noFrame := rfl

/-- The frame of code 0: what construction writes to every channel (R203). -/
theorem constructionRecords_default :
    constructionRecords Config.constants.initOrder Config.constants.rangeDefault =
      [{ cs1 := true, cs2 := false, frame := 0x6140201#27 }, { cs1 := false, cs2 := true, frame := 0x6140201#27 },
       { cs1 := true, cs2 := true, frame := 0x6040201#27 }] := by
  decide +kernel

/-- Settles O48: the counts are those of three channel writes (`events_counts`). -/
theorem launchStateValues : Obligations.LaunchStateValues := by
  obtain ⟨hlength, -, hmicros, -⟩ := events_counts Config.constants.initOrder Config.constants.rangeDefault
  exact ⟨reset_constructed, rfl, rfl, rfl, fun k => by cases k <;> rfl, rfl, rfl, rfl, hmicros, hlength, constructionRecords_default, rfl⟩

/-- Settles O54: the launch state is a constructed state with an empty latch. -/
theorem launchStateMeetsTheInvariants : Obligations.LaunchStateMeetsTheInvariants := reset_constructed.inv rfl

/-! ### `ready` (R29, R79, R90) -/

theorem State.accepted_eq_some_iff (s : State) (w : CmdWord) :
    s.accepted = some w ↔ s.ready = true ∧ s.host.input.cmdValid = true ∧ s.host.input.cmd = w := by
  simp [State.accepted, and_assoc]

/-- Settles O60: `ready` is the conjunction of `State.ready_iff`, and acceptance is `State.accepted_eq_some_iff`. -/
theorem readyIsTheComplementOfBusy : Obligations.ReadyIsTheComplementOfBusy := by
  intro s
  have hnot {p : Prop} (h : s.ready = true → p) (hp : ¬ p) : s.ready = false := by
    rw [← Bool.not_eq_true]; exact fun hr => hp (h hr)
  refine ⟨fun hb => hnot (fun h => (s.ready_iff.1 h).1) (by simp [hb]), fun hr => hnot (fun h => (s.ready_iff.1 h).2.1) (by simp [hr]),
    fun hp => hnot (fun h => (s.ready_iff.1 h).2.2) hp, fun hb hr hp => s.ready_iff.2 ⟨hb, hr, hp⟩, ⟨?_, ?_⟩, fun w hw => ?_⟩
  · rintro ⟨w, hw⟩
    obtain ⟨hr, hv, -⟩ := (s.accepted_eq_some_iff w).1 hw
    exact ⟨hr, hv⟩
  · rintro ⟨hr, hv⟩
    exact ⟨_, (s.accepted_eq_some_iff _).2 ⟨hr, hv, rfl⟩⟩
  · obtain ⟨-, -, hcmd⟩ := (s.accepted_eq_some_iff w).1 hw
    exact hcmd.symm

end Sys2Proof.Machine
end

section
/-! PROOFS of the family `20_memory.md`: the channel map and the order of the trace (R56, R59, R144). -/

namespace Sys2Proof.Machine

open Sys2Proof (Instr Level Value Code Channel Range)

/-! ### The channel map (R56, R144) -/

/-- `A` is bit 20 of the frame, whatever the code (R77). -/
@[simp] theorem frameAddr_frame (a : Level) (code : Code) : frameAddr (frame a code) = a := by
  simp only [frameAddr, frame, BitVec.getLsbD_append]
  simp

/-- Settles O21: the three cases are those of the resolved channel (`resolve_eq`), which fixes the slot, `A` and the levels. -/
theorem channelMapIsTotal : Obligations.ChannelMapIsTotal := by
  intro ch v r
  refine ⟨fun h3 => ?_, fun h2 => ?_, fun h2 h3 => ?_⟩
  · have hk : resolve ch = .ch3 := by rw [resolve_eq, if_pos h3]
    simp [writeJob, hk]
  · have hk : resolve ch = .ch2 := by rw [resolve_eq, if_neg (by omega), if_pos h2]
    simp [writeJob, hk]
  · have hk : resolve ch = .ch1 := by rw [resolve_eq, if_neg h3, if_neg h2]
    simp [writeJob, hk]

/-! ### The order of the trace (R59) -/

/-- A command that ran latched something, and appended the events of its list. -/
theorem exec_trace {i : Instr} {s t : State} (h : exec i s = .next t) :
    ∃ l, latchOf i s.config.range = .ok l ∧ t.hist.trace = s.hist.trace ++ l.events := by
  rcases exec_next_cases h with ⟨rfl, rfl⟩ | ⟨l, -, hl, rfl⟩
  · exact ⟨.idle, rfl, by simp [Latch.events, Latch.ops]⟩
  · exact ⟨l, hl, s.runCommand_trace l⟩

/-- Settles O32, by induction on the commands: each appends its events (`exec_trace`) and keeps the Range (`exec_frame`), so the next
latches what the first Range gives. -/
theorem traceIsTheCommandsInOrder : Obligations.TraceIsTheCommandsInOrder := by
  intro is
  induction is with
  | nil =>
    intro s t h
    cases h
    exact ⟨[], rfl, by simp, rfl⟩
  | cons i is ih =>
    intro s t h
    obtain ⟨u, hi, his⟩ := execAll_split (is := [i]) h
    rw [execAll_one] at hi
    obtain ⟨l, hlatch, htrace⟩ := exec_trace hi
    obtain ⟨-, hrange⟩ := exec_frame hi
    obtain ⟨latches, hlatches, htraces, hranges⟩ := ih u t his
    rw [hrange] at hlatches hranges
    refine ⟨l :: latches, by simp [hlatch, hlatches], ?_, hranges⟩
    rw [htraces, htrace, List.append_assoc, List.flatMap_cons, Latch.events]

end Sys2Proof.Machine
end

section
/-! PROOFS of the family `30_encoding.md`: the command word (R80 to R87), the bits of a frame (R70 to R77), acceptance (R90), and the
frame a host composes (R210, R212). -/

namespace Sys2Proof.Machine

open Sys2Proof (Instr Level Value NumWord CmdWord Code Frame Line Channel Range)

/-! ### What the command word can carry (R80, R83) -/

theorem wellFormed_wrch_iff (ch : Int) (v : Value) : (Instr.wrch ch v).WellFormed ↔ ChanFits ch ∧ NumFits v := by
  simp [Instr.WellFormed, Instr.wellFormed]

theorem wellFormed_awr_iff (ch : Int) (v : Value) : (Instr.awr ch v).WellFormed ↔ ChanFits ch ∧ NumFits v := by
  simp [Instr.WellFormed, Instr.wellFormed]

theorem wellFormed_dwr_iff (ch d : Int) : (Instr.dwr ch d).WellFormed ↔ ChanFits ch ∧ IntFits d := by
  simp [Instr.WellFormed, Instr.wellFormed]

/-! ### `decode` after `encode` (R80 to R83) -/

/-- Settles O2: the word carries the opcode (`Laws.OpField`), which selects the decoder's arm, and each operand that fits its field is
read back from it. -/
theorem decodeOfEncode : Obligations.DecodeOfEncode := by
  intro i hi
  cases i with
  | reserved => exact decode_reserved Laws.OpField.reserved
  | clkl => exact decode_clkl Laws.OpField.clkl
  | clkh => exact decode_clkh Laws.OpField.clkh
  | datl => exact decode_datl Laws.OpField.datl
  | dath => exact decode_dath Laws.OpField.dath
  | dats b => rw [decode_dats (Laws.OpField.dats b), encode, assemble_bit]
  | cs1l => exact decode_cs1l Laws.OpField.cs1l
  | cs1h => exact decode_cs1h Laws.OpField.cs1h
  | cs2l => exact decode_cs2l Laws.OpField.cs2l
  | cs2h => exact decode_cs2h Laws.OpField.cs2h
  | start => exact decode_start Laws.OpField.start
  | wbit b => rw [decode_wbit (Laws.OpField.wbit b), encode, assemble_bit]
  | stop => exact decode_stop Laws.OpField.stop
  | wrch ch v =>
    obtain ⟨hch, hv⟩ := (wellFormed_wrch_iff ch v).1 hi
    rw [decode_wrch (Laws.OpField.wrch ch v), encode, assemble_chan, assemble_value, toInt_ofInt_8 hch, q16_encodeNum hv]
  | awr ch v =>
    obtain ⟨hch, hv⟩ := (wellFormed_awr_iff ch v).1 hi
    rw [decode_awr (Laws.OpField.awr ch v), encode, assemble_chan, assemble_value, toInt_ofInt_8 hch, q16_encodeNum hv]
  | dwr ch d =>
    obtain ⟨hch, hd⟩ := (wellFormed_dwr_iff ch d).1 hi
    rw [decode_dwr (Laws.OpField.dwr ch d), encode, assemble_chan, assemble_value, toInt_ofInt_8 hch, toInt_ofInt_32 hd]

/-! ### `encode` after `decode` (R80 to R86) -/

/-- The word of a Q16.16 number read from a word is that word (R28). -/
@[simp] theorem encodeNum_q16 (n : NumWord) : encodeNum (q16 n) = n := by
  rw [encodeNum, q16Units_q16, BitVec.ofInt_toInt]

/-- The word decodes to a well-formed command of its own opcode, whose word keeps exactly the fields the operation reads. -/
def EncodesBack (w : CmdWord) : Prop :=
  (decode w).WellFormed ∧ (decode w).op = w.op ∧ encode (decode w) = w &&& usedBits w.op

/-- A word of a format, whose mask is the used bits of the opcode, encodes back (R82). -/
theorem encodesBack_of_decode {w mask : CmdWord} {i : Instr} {bit : Level} {chan : BitVec 8} {value : NumWord} (hd : decode w = i)
    (hop : w.op = i.op) (hwf : i.WellFormed) (hformat : assemble w.op bit chan value = w &&& mask)
    (henc : encode i = assemble i.op bit chan value) (hused : usedBits i.op = mask) : EncodesBack w := by
  rw [EncodesBack, hd, hop, hused, henc, ← hop, hformat]
  exact ⟨hwf, rfl, rfl⟩

/-- Every one of the sixteen opcodes has one of the three formats (R81, R82). -/
theorem encodesBack (w : CmdWord) : EncodesBack w := by
  have hchan := chanFits_toInt w.chan
  have hnum := numFits_q16 w.value
  have hint := intFits_toInt w.value
  rcases op_cases w.op with h | h | h | h | h | h | h | h | h | h | h | h | h | h | h | h
  · exact encodesBack_of_decode (decode_reserved h) h rfl (assemble_formatZ w) rfl rfl
  · exact encodesBack_of_decode (decode_clkl h) h rfl (assemble_formatZ w) rfl rfl
  · exact encodesBack_of_decode (decode_clkh h) h rfl (assemble_formatZ w) rfl rfl
  · exact encodesBack_of_decode (decode_datl h) h rfl (assemble_formatZ w) rfl rfl
  · exact encodesBack_of_decode (decode_dath h) h rfl (assemble_formatZ w) rfl rfl
  · exact encodesBack_of_decode (decode_dats h) h rfl (assemble_formatB w) rfl rfl
  · exact encodesBack_of_decode (decode_cs1l h) h rfl (assemble_formatZ w) rfl rfl
  · exact encodesBack_of_decode (decode_cs1h h) h rfl (assemble_formatZ w) rfl rfl
  · exact encodesBack_of_decode (decode_cs2l h) h rfl (assemble_formatZ w) rfl rfl
  · exact encodesBack_of_decode (decode_cs2h h) h rfl (assemble_formatZ w) rfl rfl
  · exact encodesBack_of_decode (decode_start h) h rfl (assemble_formatZ w) rfl rfl
  · exact encodesBack_of_decode (decode_wbit h) h rfl (assemble_formatB w) rfl rfl
  · exact encodesBack_of_decode (decode_stop h) h rfl (assemble_formatZ w) rfl rfl
  · exact encodesBack_of_decode (decode_wrch h) h ((wellFormed_wrch_iff _ _).2 ⟨hchan, hnum⟩) (assemble_formatCV w) (by simp [encode]) rfl
  · exact encodesBack_of_decode (decode_awr h) h ((wellFormed_awr_iff _ _).2 ⟨hchan, hnum⟩) (assemble_formatCV w) (by simp [encode]) rfl
  · exact encodesBack_of_decode (decode_dwr h) h ((wellFormed_dwr_iff _ _).2 ⟨hchan, hint⟩) (assemble_formatCV w) (by simp [encode]) rfl

/-- Settles O3, opcode by opcode, each in one of the three formats of R82 (`encodesBack`). -/
theorem encodeOfDecodeClearsIgnoredFields : Obligations.EncodeOfDecodeClearsIgnoredFields := encodesBack

theorem decode_wellFormed (w : CmdWord) : (decode w).WellFormed := (encodesBack w).1

@[simp] theorem decode_op (w : CmdWord) : (decode w).op = w.op := (encodesBack w).2.1

theorem encode_decode (w : CmdWord) : encode (decode w) = w &&& usedBits w.op := (encodesBack w).2.2

/-! ### Ignored fields (R84) -/

/-- Two words with the same used bits are the same command: both decode to what the masked word decodes to. -/
theorem decode_congr {w w' : CmdWord} (h : w &&& usedBits w.op = w' &&& usedBits w'.op) : decode w = decode w' := by
  calc decode w = decode (encode (decode w)) := (decodeOfEncode _ (decode_wellFormed w)).symm
    _ = decode (encode (decode w')) := by rw [encode_decode, encode_decode, h]
    _ = decode w' := decodeOfEncode _ (decode_wellFormed w')

/-- Settles O4: by format, the fields that are read agree, so the used bits do (`decode_congr`). -/
theorem ignoredFieldsHaveNoEffect : Obligations.IgnoredFieldsHaveNoEffect := by
  intro w w' hop hbit hcv
  change w.op = w'.op at hop
  apply decode_congr
  rw [← hop, usedBits]
  split_ifs with hB hCV
  · have hlevel : w.bit = w'.bit := hbit hB
    rw [← assemble_formatB, ← assemble_formatB, hop, hlevel]
  · have hfrom : 0xD#4 ≤ w.op := by rcases hCV with h | h | h <;> rw [h] <;> decide
    obtain ⟨hchan, hvalue⟩ : w.chan = w'.chan ∧ w.value = w'.value := hcv hfrom
    rw [← assemble_formatCV, ← assemble_formatCV, hop, hchan, hvalue]
  · rw [← assemble_formatZ, ← assemble_formatZ, hop]

/-! ### Table words and the reserved opcode (R85, R87) -/

/-- A number below `2 ^ 48`, declared 48 bits long, is read as the command word it is. -/
theorem decodeTableWord_eq_some {n : Nat} {i : Instr} (hn : n < 2 ^ 48) (h : decode (BitVec.ofNat 48 n) = i) :
    decodeTableWord 48 n = some i := by
  rw [decodeTableWord, decodeBits, if_neg (Nat.lt_irrefl 48), if_neg (Nat.not_le.2 hn), h]

/-- Settles O5: each word's opcode selects its arm, and the operands are computed from the fields. -/
theorem wordsOfTheSpecDecode : Obligations.WordsOfTheSpecDecode :=
  ⟨decodeTableWord_eq_some (by decide) (decode_clkl rfl),
   decodeTableWord_eq_some (by decide) (decode_dats rfl),
   decodeTableWord_eq_some (by decide) (decode_cs1h rfl),
   decodeTableWord_eq_some (by decide) (decode_wbit rfl),
   decodeTableWord_eq_some (by decide) (decode_stop rfl),
   decodeTableWord_eq_some (by decide) (by decide +kernel),
   decodeTableWord_eq_some (by decide) (by decide +kernel),
   decodeTableWord_eq_some (by decide) (by decide +kernel),
   decodeTableWord_eq_some (by decide) (decode_dwr rfl),
   decodeTableWord_eq_some (by decide) (decode_reserved rfl)⟩

/-- Settles O6: a word decodes to a command of its own opcode (`decode_op`), and only the reserved command has opcode 0. -/
theorem reservedDoesNothing : Obligations.ReservedDoesNothing := by
  refine ⟨fun w => ⟨fun h => ?_, decode_reserved⟩, fun s => ⟨rfl, rfl⟩⟩
  have hop := decode_op w
  rw [h] at hop
  exact hop.symm

/-! ### The bits of a frame (R70 to R77) -/

/-- Settles O22, position by position in sending order (`frameBits_eq`, `frame_getLsbD`). -/
theorem frameFieldsInSendingOrder : Obligations.FrameFieldsInSendingOrder := by
  intro a code
  rw [frameBits_eq]
  simp [List.range, List.range.loop, frame_getLsbD]

/-- A concatenation as a number: the left part stands above the bits of the right one. -/
theorem toNat_append_eq_add {m n : Nat} (x : BitVec m) (y : BitVec n) : (x ++ y).toNat = x.toNat * 2 ^ n + y.toNat := by
  rw [BitVec.toNat_append, ← Nat.shiftLeft_add_eq_or_of_lt y.isLt, Nat.shiftLeft_eq]

/-- Settles O23: each field counts with the weight of its place (`toNat_append_eq_add`). -/
theorem frameAsNumber : Obligations.FrameAsNumber := by
  intro a code
  have hcode : code.toNat < 4096 := code.isLt
  have hhigh : (code.extractLsb' 8 4).toNat = code.toNat / 256 := by
    rw [BitVec.extractLsb'_toNat, Nat.shiftRight_eq_div_pow]; omega
  have hlow : (code.extractLsb' 0 8).toNat = code.toNat % 256 := by simp
  simp only [frame, toNat_append_eq_add, hhigh, hlow, BitVec.toNat_ofBool]
  norm_num
  omega

/-- The code is read back from the frame, whatever `A` (R77). -/
@[simp] theorem frameCode_frame (a : Level) (code : Code) : frameCode (frame a code) = code := by
  apply BitVec.eq_of_getLsbD_eq
  intro i hi
  simp only [frameCode, BitVec.getLsbD_append, BitVec.getLsbD_extractLsb', frame_getLsbD]
  change i < 12 at hi
  interval_cases i <;> simp

/-- The fixed bits of a frame are those R77 prints. -/
theorem frame_and_fixedMask (a : Level) (code : Code) : frame a code &&& 0x7EFC201#27 = 0x6040201#27 := by
  apply BitVec.eq_of_getLsbD_eq
  intro i hi
  rw [BitVec.getLsbD_and, frame_getLsbD]
  change i < 27 at hi
  interval_cases i <;> simp

/-- A pattern with the fixed bits of a frame is the frame of the `A` and the code read from it (R77): each position is fixed by the
mask or belongs to one of the two fields. -/
theorem eq_frame_of_fixedBits {f : Frame} (h : f &&& 0x7EFC201#27 = 0x6040201#27) : f = frame (frameAddr f) (frameCode f) := by
  apply BitVec.eq_of_getLsbD_eq
  intro i hi
  have hi' : i < 27 := hi
  have hbit : (f &&& 0x7EFC201#27).getLsbD i = (0x6040201#27).getLsbD i := by rw [h]
  rw [BitVec.getLsbD_and] at hbit
  rw [frame_getLsbD]
  simp only [frameAddr, frameCode, BitVec.getLsbD_append, BitVec.getLsbD_extractLsb']
  interval_cases i <;> simp at hbit ⊢ <;> exact hbit

theorem frameFixedOk_eq (f : Frame) : frameFixedOk f = decide (f &&& 0x7EFC201#27 = 0x6040201#27) := by
  rw [frameFixedOk, fixedMask_eq, fixedBits_eq, beq_eq_decide]

@[simp] theorem frameFixedOk_frame (a : Level) (code : Code) : frameFixedOk (frame a code) = true := by
  rw [frameFixedOk_eq, frame_and_fixedMask, decide_eq_true rfl]

/-- Settles O24: the two fields are read back from a frame, and a pattern that passes the check is the frame of its own fields
(`eq_frame_of_fixedBits`). -/
theorem framesAreRecovered : Obligations.FramesAreRecovered := by
  refine ⟨fun a code => ⟨frameAddr_frame a code, frameCode_frame a code⟩, fun f => ⟨fun h => ⟨_, _, eq_frame_of_fixedBits h⟩, ?_⟩,
    frameFixedOk_eq⟩
  rintro ⟨a, code, rfl⟩
  exact frame_and_fixedMask a code

/-! ### Acceptance at both levels (R10, R90) -/

/-- A command offered to the ready block at the command level is executed in the coming step (R90). -/
theorem step_exec {s : State} (hready : s.ready = true) (hv : s.host.input.cmdValid = true) (hg : s.host.grain = .command) :
    step s = advanceHostAfter (exec (decode s.host.input.cmd) s) := by
  obtain ⟨hb, hr, hp⟩ := s.ready_iff.1 hready
  simp [step, stepOut, hr, hp, hb, State.accepted_of_ready hready hv, hg]

/-- `withFetchWord` makes the block ready and offers exactly the word given, at the command level. -/
theorem step_withFetchWord (s : State) (w : CmdWord) :
    step (s.withFetchWord 48 w.toNat) = advanceHostAfter (exec (decode w) (s.withFetchWord 48 w.toNat)) := by
  have hcmd : (s.withFetchWord 48 w.toNat).host.input.cmd = w := by
    rw [State.withFetchWord, Nat.mod_eq_of_lt w.isLt, BitVec.ofNat_toNat, BitVec.setWidth_eq]
  have hstep := step_exec (s := s.withFetchWord 48 w.toNat) ((State.ready_iff _).2 ⟨rfl, rfl, rfl⟩) rfl rfl
  rwa [hcmd] at hstep

/-- Settles O1: a ready block at the command level answers what `exec` answers (`step_exec`). -/
theorem stepRunsTheAcceptedCommand : Obligations.StepRunsTheAcceptedCommand := by
  refine ⟨fun s hp hb hr hv hg => ?_, fun s w t h => ?_⟩
  · have hstep := step_exec (s.ready_iff.2 ⟨hb, hr, hp⟩) hv hg
    exact ⟨fun t h => by rw [hstep, h]; rfl, fun r h => by rw [hstep, h]; rfl⟩
  · rw [step_withFetchWord, h]; rfl

/-- With a good Range every command latches something, and only the reserved one nothing to do (R32, R85). -/
theorem latchOf_total (i : Instr) {r : Range} (hr : r.Ok) (hi : i ≠ .reserved) : ∃ l, l ≠ .idle ∧ latchOf i r = .ok l := by
  rcases latchOf_cases i r with ⟨h, -⟩ | ⟨_, _, -, hl⟩ | ⟨-, hl⟩ | ⟨_, -, hl⟩ | ⟨-, hl⟩ | ⟨-, hbad, -⟩ | ⟨-, -, _, _, hl⟩
  case inl => exact absurd h hi
  case inr.inr.inr.inr.inr.inl => exact absurd hr hbad
  all_goals exact ⟨_, by simp, hl⟩

/-- Settles O36: acceptance notes and latches the command, and touches nothing else (`accept_of_latch`). -/
theorem acceptanceLatchesTheCommand : Obligations.AcceptanceLatchesTheCommand := by
  intro s hready hv hg hr
  rw [step_accept hready hv hg]
  by_cases hi : decode s.host.input.cmd = .reserved
  · rw [hi]
    exact ⟨s.advanceHost, rfl, fun _ => rfl, fun h => absurd rfl h⟩
  · obtain ⟨l, hne, hl⟩ := latchOf_total _ hr hi
    rw [accept_of_latch hl hne]
    exact ⟨((s.note l).latch l).advanceHost, rfl, fun h => absurd h hi, fun _ =>
      ⟨rfl, rfl, hl, latchOf_ops_length hl, rfl, rfl, rfl, rfl, rfl, rfl, rfl, rfl⟩⟩

/-! ### Lists of latched commands, run one after another (R10, R59) -/

/-- Latched commands of the host, each run to its end before the next. -/
def State.runCommands (s : State) (ls : List Latch) : State := ls.foldl State.runCommand s

/-- How the monitor moves over a whole command: accepted, then completed (R212). -/
def FrameMonitor.pass (m : FrameMonitor) (l : Latch) : FrameMonitor := (m.accept l).complete l

theorem State.runCommands_cons (s : State) (l : Latch) (ls : List Latch) :
    s.runCommands (l :: ls) = (s.runCommand l).runCommands ls := rfl

/-- A list of commands is the list of what they latch, run one after another. -/
theorem execAll_eq_runCommands {is : List Instr} {ls : List Latch} {s : State}
    (h : is.map (latchOf · s.config.range) = ls.map .ok) (hne : .idle ∉ ls) : execAll is s = .next (s.runCommands ls) := by
  induction is generalizing s ls with
  | nil =>
    obtain rfl : ls = [] := by simpa using h.symm
    rfl
  | cons i is ih =>
    cases ls with
    | nil => simp at h
    | cons l ls =>
      simp only [List.map_cons, List.cons.injEq, List.mem_cons, not_or] at h hne
      obtain ⟨hl, hls⟩ := h
      have hi := execAll_one.2 (exec_of_latch hl (Ne.symm hne.1))
      rw [← List.singleton_append, execAll_append _ _ _ _ hi]
      exact ih (by rwa [State.runCommand_config]) hne.2

theorem State.runCommands_lines (s : State) (ls : List Latch) :
    (s.runCommands ls).lines = s.lines.performAll (ls.flatMap Latch.ops) := by
  induction ls generalizing s with
  | nil => rfl
  | cons l ls ih => rw [State.runCommands_cons, ih, State.runCommand_lines, List.flatMap_cons, Lines.performAll_append]

theorem State.runCommands_outCache (s : State) (ls : List Latch) :
    (s.runCommands ls).outCache = s.outCache.performAll (ls.flatMap Latch.ops) := by
  induction ls generalizing s with
  | nil => rfl
  | cons l ls ih => rw [State.runCommands_cons, ih, State.runCommand_outCache, List.flatMap_cons, OutCache.performAll_append]

theorem State.runCommands_trace (s : State) (ls : List Latch) :
    (s.runCommands ls).hist.trace = s.hist.trace ++ (ls.flatMap Latch.ops).map MicroOp.event := by
  induction ls generalizing s with
  | nil => simp [State.runCommands]
  | cons l ls ih => rw [State.runCommands_cons, ih, State.runCommand_trace, List.flatMap_cons, List.map_append, List.append_assoc]; rfl

theorem State.runCommands_now (s : State) (ls : List Latch) :
    (s.runCommands ls).hist.now = s.hist.now + traceMicros ((ls.flatMap Latch.ops).map MicroOp.event) := by
  induction ls generalizing s with
  | nil => rfl
  | cons l ls ih =>
    rw [State.runCommands_cons, ih, State.runCommand_now, List.flatMap_cons, List.map_append, traceMicros_append, Nat.add_assoc]; rfl

/-! ### The frame log and the monitor over a list of commands (R37, R212) -/

theorem FrameMonitor.complete_of_ne_stop (m : FrameMonitor) {l : Latch} (h : l ≠ .stop) : m.complete l = m := by
  cases l with
  | stop => exact absurd rfl h
  | _ => cases m <;> rfl

theorem FrameMonitor.pass_of_ne_stop (m : FrameMonitor) {l : Latch} (h : l ≠ .stop) : m.pass l = m.accept l :=
  (m.accept l).complete_of_ne_stop h

/-- The stop condition after the last bit of a host-composed frame: its fixed bits decide (R77, R212). -/
theorem FrameMonitor.pass_stop {bits : List Level} (h : bits.length = 27) :
    (FrameMonitor.opened bits).pass .stop = if frameFixedOk (frameOfBits bits) then .closed else .broken := by
  simp [FrameMonitor.pass, FrameMonitor.accept, FrameMonitor.complete, h]

/-- A broken monitor stays broken. -/
theorem FrameMonitor.pass_broken (l : Latch) : FrameMonitor.broken.pass l = .broken := by cases l <;> rfl

theorem FrameMonitor.foldl_pass_broken (ls : List Latch) : ls.foldl FrameMonitor.pass .broken = .broken := by
  induction ls with
  | nil => rfl
  | cons l ls ih => rw [List.foldl_cons, FrameMonitor.pass_broken, ih]

/-- The bits of a host-composed frame are gathered in sending order (R212). -/
theorem FrameMonitor.foldl_pass_bits {sent bits : List Level} (h : sent.length + bits.length ≤ 27) :
    (bits.map Latch.bit).foldl FrameMonitor.pass (.opened sent) = .opened (sent ++ bits) := by
  induction bits generalizing sent with
  | nil => simp
  | cons b bits ih =>
    rw [List.length_cons] at h
    have hb : (FrameMonitor.opened sent).pass (.bit b) = .opened (sent ++ [b]) := by
      rw [FrameMonitor.pass_of_ne_stop _ (by simp), FrameMonitor.accept, if_pos (show sent.length < 27 by omega)]
    rw [List.map_cons, List.foldl_cons, hb, ih (by simp; omega), List.append_assoc, List.singleton_append]

theorem State.runCommand_monitor (s : State) (l : Latch) : (s.runCommand l).hist.monitor = s.hist.monitor.pass l := by
  rw [State.runCommand_hist]
  cases l with
  | stop => rfl
  | _ => rw [FrameMonitor.pass_of_ne_stop _ (by simp)]; rfl

theorem State.runCommands_monitor (s : State) (ls : List Latch) :
    (s.runCommands ls).hist.monitor = ls.foldl FrameMonitor.pass s.hist.monitor := by
  induction ls generalizing s with
  | nil => rfl
  | cons l ls ih => rw [State.runCommands_cons, ih, State.runCommand_monitor, List.foldl_cons]

/-- A command that does not leave the monitor broken sets no mark (R37, R212). -/
theorem State.runCommand_protoViolation {s : State} {l : Latch} (h : s.hist.monitor.pass l ≠ .broken) :
    (s.runCommand l).hist.protoViolation = s.hist.protoViolation := by
  have haccept : s.hist.monitor.accept l ≠ .broken := by
    intro hb
    rw [FrameMonitor.pass, hb] at h
    exact h rfl
  rw [State.runCommand_hist]
  cases l with
  | stop =>
    have hcomplete : (s.hist.monitor.accept .stop).complete .stop ≠ .broken := h
    simp [haccept, hcomplete]
  | _ => simp [haccept]

theorem State.runCommands_protoViolation {s : State} {ls : List Latch} (h : ls.foldl FrameMonitor.pass s.hist.monitor ≠ .broken) :
    (s.runCommands ls).hist.protoViolation = s.hist.protoViolation := by
  induction ls generalizing s with
  | nil => rfl
  | cons l ls ih =>
    rw [List.foldl_cons] at h
    have hl : s.hist.monitor.pass l ≠ .broken := fun hb => h (by rw [hb, FrameMonitor.foldl_pass_broken])
    rw [State.runCommands_cons, ih (by rwa [State.runCommand_monitor]), State.runCommand_protoViolation hl]

theorem State.runCommand_dacLog (s : State) {l : Latch} (h : ∀ j, l ≠ .write j) : (s.runCommand l).hist.dacLog = s.hist.dacLog := by
  rw [State.runCommand_hist]
  cases l with
  | write j => exact absurd rfl (h j)
  | _ => rfl

/-- Only a channel write leaves a record in the frame log (R37). -/
theorem State.runCommands_dacLog (s : State) {ls : List Latch} (h : ∀ j, .write j ∉ ls) :
    (s.runCommands ls).hist.dacLog = s.hist.dacLog := by
  induction ls generalizing s with
  | nil => rfl
  | cons l ls ih =>
    simp only [List.mem_cons, not_or] at h
    rw [State.runCommands_cons, ih _ fun j => (h j).2, State.runCommand_dacLog _ fun j hj => (h j).1 hj.symm]

/-! ### A frame the host composes (R89, R146, R210, R212) -/

/-- The commands with which a host composes the frame of a channel write (`95_test_vectors.md` section 3). -/
def composedFrame (j : WriteJob) : List Instr :=
  [if j.cs1 then .cs1h else .cs1l, if j.cs2 then .cs2h else .cs2l, .start] ++ (frameBits j.frame).map Instr.wbit ++ [.stop]

/-- What those commands latch. -/
def composedLatches (j : WriteJob) : List Latch :=
  [.line .cs1 j.cs1, .line .cs2 j.cs2, .start] ++ (frameBits j.frame).map Latch.bit ++ [.stop]

theorem latchOf_composedFrame (j : WriteJob) (r : Range) : (composedFrame j).map (latchOf · r) = (composedLatches j).map .ok := by
  have hcs1 : latchOf (if j.cs1 then .cs1h else .cs1l) r = .ok (.line .cs1 j.cs1) := by cases j.cs1 <;> rfl
  have hcs2 : latchOf (if j.cs2 then .cs2h else .cs2l) r = .ok (.line .cs2 j.cs2) := by cases j.cs2 <;> rfl
  simp only [composedFrame, composedLatches, List.map_append, List.map_cons, List.map_map, hcs1, hcs2]
  rfl

/-- A channel write is its host-composed frame, then the cache write (R146). -/
theorem writeOps_eq_composedLatches (j : WriteJob) :
    writeOps j = (composedLatches j).flatMap Latch.ops ++ [.cache j.slot j.value] := by
  simp [writeOps, composedLatches, Latch.ops, List.flatMap_map]

/-- A host-composed frame writes no cache slot (R89). -/
theorem OutCache.performAll_composed (c : OutCache) (j : WriteJob) : c.performAll ((composedLatches j).flatMap Latch.ops) = c := by
  have hbits : ((frameBits j.frame).map Latch.bit).flatMap Latch.ops = (frameBits j.frame).flatMap bitOps := List.flatMap_map ..
  simp only [composedLatches, List.flatMap_append, OutCache.performAll_append, hbits, OutCache.performAll_bits]
  rfl

/-- From between frames, a host-composed frame whose fixed bits are right closes the monitor again (R212). -/
theorem FrameMonitor.foldl_pass_composed {j : WriteJob} (h : frameFixedOk j.frame = true) :
    (composedLatches j).foldl FrameMonitor.pass .closed = .closed := by
  have hbits := FrameMonitor.foldl_pass_bits (sent := []) (bits := frameBits j.frame) (by simp)
  rw [composedLatches, List.foldl_append, List.foldl_append]
  change [Latch.stop].foldl FrameMonitor.pass (((frameBits j.frame).map Latch.bit).foldl FrameMonitor.pass (.opened [])) = _
  rw [hbits, List.foldl_cons, List.nil_append, FrameMonitor.pass_stop (frameBits_length _), frameOfBits_frameBits, if_pos h]
  rfl

/-- The command an open frame goes on with: `WBIT`, or `STOP` after the last bit (R210). -/
theorem frameGoesOn_cases {bits : List Level} {i : Instr} (h : frameGoesOn bits i = true) :
    (∃ b, i = .wbit b ∧ bits.length < 27) ∨ (i = .stop ∧ bits.length = 27) := by
  cases i with
  | wbit b => exact .inl ⟨b, rfl, of_decide_eq_true h⟩
  | stop => exact .inr ⟨rfl, of_decide_eq_true h⟩
  | _ => cases h

/-- `NoPreempt`: a ready block with a host-composed frame open is offered the frame's next command (R174, R210). -/
theorem State.NoPreempt.offers {s : State} {bits : List Level} (h : s.NoPreempt) (hopen : s.hist.monitor = .opened bits)
    (hready : s.ready = true) : s.host.input.cmdValid = true ∧ frameGoesOn bits (decode s.host.input.cmd) = true := by
  obtain ⟨w, haccepted, hgoes⟩ := (h bits hopen).2 hready
  obtain ⟨-, hv, rfl⟩ := (s.accepted_eq_some_iff w).1 haccepted
  exact ⟨hv, hgoes⟩

/-- R210: with `NoPreempt`, the coming step of the ready block runs the open frame's next command. -/
theorem noPreempt_step {s : State} {bits : List Level} (hopen : s.hist.monitor = .opened bits) (hnp : s.NoPreempt)
    (hready : s.ready = true) (hg : s.host.grain = .command) :
    ∃ t, step s = .next t ∧
      (bits.length < 27 → ∃ b, decode s.host.input.cmd = .wbit b ∧ t.hist.monitor = .opened (bits ++ [b]) ∧
        t.hist.trace = s.hist.trace ++ (Latch.bit b).events) ∧
      (bits.length = 27 → decode s.host.input.cmd = .stop ∧ (t.hist.monitor = .closed ∨ t.hist.monitor = .broken) ∧
        t.hist.trace = s.hist.trace ++ Latch.stop.events) := by
  obtain ⟨hv, hgoes⟩ := hnp.offers hopen hready
  rw [step_exec hready hv hg]
  rcases frameGoesOn_cases hgoes with ⟨b, hi, hlt⟩ | ⟨hi, hlen⟩
  · refine ⟨(s.runCommand (.bit b)).advanceHost, by rw [hi]; rfl, fun _ => ⟨b, hi, ?_, s.runCommand_trace _⟩, fun h => by omega⟩
    rw [State.advanceHost_hist, State.runCommand_monitor, hopen]
    exact FrameMonitor.foldl_pass_bits (bits := [b]) (by simp; omega)
  · refine ⟨(s.runCommand .stop).advanceHost, by rw [hi]; rfl, fun h => by omega, fun _ => ⟨hi, ?_, s.runCommand_trace _⟩⟩
    rw [State.advanceHost_hist, State.runCommand_monitor, hopen, FrameMonitor.pass_stop hlen]
    cases frameFixedOk (frameOfBits bits) <;> simp

/-- A channel write that answers a next state has run its job (R146). -/
theorem exec_wrch_next {ch : Int} {v : Value} {s u : State} (h : exec (.wrch ch v) s = .next u) :
    u = s.runCommand (.write (writeJob ch v s.config.range)) := by
  change s.runWrite ch v = .next u at h
  by_cases hr : s.config.range.Ok
  · rw [State.runWrite_ok ch v hr] at h; exact (Host.Outcome.next.inj h).symm
  · rw [State.runWrite_bad ch v hr] at h; cases h

/-- Settles O30: the host-composed frame performs the channel write's list without its cache write (`writeOps_eq_composedLatches`), and
the monitor, which sees a frame's fixed bits, closes again. -/
theorem hostComposedFrameEqualsWriteChannel : Obligations.HostComposedFrameEqualsWriteChannel := by
  refine ⟨fun s bits hopen _ hnp hready hg => noPreempt_step hopen hnp hready hg, fun s ch v u hclosed hu => ?_⟩
  obtain rfl := exec_wrch_next hu
  have hslot : (writeJob ch v s.config.range).slot = resolve ch := rfl
  have hvalue : (writeJob ch v s.config.range).value = clamp v s.config.range := rfl
  have hframe : frameFixedOk (writeJob ch v s.config.range).frame = true := frameFixedOk_frame _ _
  rw [← hslot, ← hvalue]
  generalize writeJob ch v s.config.range = j at hframe ⊢
  have hmonitor : (composedLatches j).foldl FrameMonitor.pass s.hist.monitor = .closed := by
    rw [hclosed]; exact FrameMonitor.foldl_pass_composed hframe
  have hops : (Latch.write j).ops = (composedLatches j).flatMap Latch.ops ++ [.cache j.slot j.value] := writeOps_eq_composedLatches j
  refine ⟨s.runCommands (composedLatches j),
    execAll_eq_runCommands (latchOf_composedFrame j _) (by simp [composedLatches]), ?_, ?_, ?_, ?_, ?_, ?_, ?_⟩
  · rw [State.runCommands_lines, State.runCommand_lines, hops, Lines.performAll_append, Lines.performAll_cons, Lines.perform_cache,
      Lines.performAll_nil]
  · rw [State.runCommands_now, State.runCommand_now, Latch.events, hops, List.map_append, traceMicros_append,
      show traceMicros ([MicroOp.cache j.slot j.value].map MicroOp.event) = 0 from rfl, Nat.add_zero]
  · rw [State.runCommands_trace, State.runCommand_trace, Latch.events, hops, List.map_append, List.append_assoc, List.map_singleton,
      MicroOp.event]
  · rw [State.runCommands_outCache, OutCache.performAll_composed]
  · exact s.runCommands_dacLog (by simp [composedLatches])
  · rw [State.runCommands_monitor, hmonitor]
  · exact State.runCommands_protoViolation (by simp [hmonitor])

end Sys2Proof.Machine
end

section
/-! PROOFS of the family `40_signal_line_primitives.md`: the signal-line primitives, alone and in lists (R100 to R110).

The idea: every primitive is one line write run as a command (`exec_primitive`), so each statement is about that write. -/

namespace Sys2Proof.Machine

open Sys2Proof (Instr Level Line)

/-! ### One line write (R100) -/

@[simp] theorem Latch.ops_line (n : Line) (v : Level) : (Latch.line n v).ops = [.set n v] := rfl
@[simp] theorem Latch.events_line (n : Line) (v : Level) : (Latch.line n v).events = [.set n v] := rfl

/-- The second of two writes of one line decides. -/
@[simp] theorem Lines.set_set_same (l : Lines) (n : Line) (v w : Level) : (l.set n v).set n w = l.set n w := by
  cases n <;> rfl

/-- Writes of different lines commute. -/
theorem Lines.set_comm (l : Lines) {m n : Line} (v w : Level) (h : m ≠ n) : (l.set m v).set n w = (l.set n w).set m v := by
  apply Lines.ext_get
  intro k
  simp only [Lines.get_set]
  split_ifs with hn hm
  · exact absurd (hm.trans hn.symm) h
  all_goals rfl

/-- A command that stands for a line write writes that line, appends that event, and keeps every other register; the monitor apart. -/
theorem runsAs_primitive {i : Instr} (n : Line) (v : Level) (h : primitiveWrite i = some (n, v)) :
    RunsAs i (fun l => l.set n v) [.set n v] 0 :=
  fun s => ⟨s.runCommand (.line n v), exec_primitive h s, s.runCommand_lines _, s.runCommand_trace _, s.runCommand_now _,
    by simp, by simp, by simp, s.runCommand_dir _, by simp, s.runCommand_outCache _, s.runCommand_dacLog (by simp),
    s.runCommand_host _⟩

/-- Two commands that stand for the same line write have the same meaning. -/
theorem exec_congr_primitive {i j : Instr} {n : Line} {v : Level} (hi : primitiveWrite i = some (n, v))
    (hj : primitiveWrite j = some (n, v)) (s : State) : exec i s = exec j s := by
  rw [exec_primitive hi, exec_primitive hj]

/-! ### The primitives one by one (R101 to R109) -/

/-- Settles O7: the words' opcodes select the arms, and both commands are line writes (`runsAs_primitive`). -/
theorem clockPrimitivesWriteTheClockLine : Obligations.ClockPrimitivesWriteTheClockLine :=
  ⟨decode_clkl rfl, decode_clkh rfl, runsAs_primitive .clock false rfl, runsAs_primitive .clock true rfl⟩

/-- Settles O8, as O7; `dataSet` stands for the same write as `dataHigh` or `dataLow` (`exec_congr_primitive`). -/
theorem dataPrimitivesWriteTheDataLine : Obligations.DataPrimitivesWriteTheDataLine := by
  refine ⟨decode_datl rfl, decode_dath rfl, decode_dats rfl, decode_dats rfl,
    runsAs_primitive .data false rfl, runsAs_primitive .data true rfl, fun b => ⟨runsAs_primitive .data b rfl, ?_⟩⟩
  cases b with
  | false => exact exec_congr_primitive rfl rfl
  | true => exact exec_congr_primitive rfl rfl

/-- Settles O9, as O7. -/
theorem chipSelectPrimitivesWriteTheirLine : Obligations.ChipSelectPrimitivesWriteTheirLine :=
  ⟨decode_cs1l rfl, decode_cs1h rfl, decode_cs2l rfl, decode_cs2h rfl,
   runsAs_primitive .cs1 false rfl, runsAs_primitive .cs1 true rfl, runsAs_primitive .cs2 false rfl, runsAs_primitive .cs2 true rfl⟩

/-! ### Lists of primitives (R110) -/

/-- A list that begins with a primitive: the line write, then the rest. -/
theorem execAll_cons_primitive {i : Instr} {n : Line} {v : Level} (h : primitiveWrite i = some (n, v)) (is : List Instr) (s : State) :
    execAll (i :: is) s = execAll is (s.runCommand (.line n v)) :=
  execAll_append [i] is s _ (execAll_one.2 (exec_primitive h s))

theorem execAll_two_primitives {i j : Instr} {m n : Line} {v w : Level} (hi : primitiveWrite i = some (m, v))
    (hj : primitiveWrite j = some (n, w)) (s : State) :
    execAll [i, j] s = .next ((s.runCommand (.line m v)).runCommand (.line n w)) := by
  rw [execAll_cons_primitive hi, execAll_one, exec_primitive hj]

theorem lastPrimitive_cons {i : Instr} {m : Line} {v : Level} (h : primitiveWrite i = some (m, v)) (n : Line) (was : Level)
    (is : List Instr) : lastPrimitive n was (i :: is) = lastPrimitive n (if m = n then v else was) is := by
  rw [lastPrimitive, h]

/-- Settles O10, by induction on the list: its first primitive sets its line (`Lines.get_set`) and appends one event, and the rest
starts from there. -/
theorem lastPrimitiveWins : Obligations.LastPrimitiveWins := by
  intro is s h
  induction is generalizing s with
  | nil => exact ⟨s, rfl, fun _ => rfl, rfl⟩
  | cons i is ih =>
    obtain ⟨⟨m, v⟩, hi⟩ := Option.ne_none_iff_exists'.1 (h i List.mem_cons_self)
    obtain ⟨t, ht, hlines, hlength⟩ := ih (s.runCommand (.line m v)) fun j hj => h j (List.mem_cons_of_mem i hj)
    refine ⟨t, by rw [execAll_cons_primitive hi, ht], fun n => ?_, ?_⟩
    · rw [hlines, lastPrimitive_cons hi, ← Lines.get_set, State.runCommand_lines]
      rfl
    · have htrace : (s.runCommand (.line m v)).hist.trace.length = s.hist.trace.length + 1 := by simp
      rw [hlength, htrace, List.length_cons]
      omega

/-- Settles O11: a repeated line write is one (`Lines.set_set_same`), and writes of different lines commute (`Lines.set_comm`). -/
theorem primitivesAreIndependentAndIdempotent : Obligations.PrimitivesAreIndependentAndIdempotent := by
  intro i j m n v w s hi hj
  refine ⟨⟨_, execAll_two_primitives hi hi s, by simp, fun u hu => ?_⟩, fun hmn =>
    ⟨_, _, execAll_two_primitives hi hj s, execAll_two_primitives hj hi s, ?_, by simp, by simp, by simp, by simp, by simp⟩⟩
  · rw [exec_primitive hi] at hu
    cases hu
    simp
  · simpa using s.lines.set_comm v w hmn

end Sys2Proof.Machine
end

section
/-! PROOFS of the family `41_bit_level_transmitter.md`: start condition, one bit, stop condition, and the lines in the course of a channel
write (R120 to R126, R215).

The idea: a channel write is the chip-selects and the start condition, then a block of five micro-operations for each bit, then the stop
condition and the cache write. Each block starts with the clock low and known chip-selects, so the lines inside it are those of its own
short list. -/

namespace Sys2Proof.Machine

open Sys2Proof (Instr Level Line)

/-! ### The operations one by one (R122 to R124) -/

/-- A command that always runs one latched list, no channel write's and with no cache write in it, moves the lines by that list, appends
its events, and keeps every other register; the monitor apart. -/
theorem runsAs_latch {i : Instr} {l : Latch} (hexec : ∀ s, exec i s = .next (s.runCommand l))
    (hcache : ∀ c : OutCache, c.performAll l.ops = c) (hwrite : ∀ j, l ≠ .write j) :
    RunsAs i (fun lines => lines.performAll l.ops) l.events (traceMicros l.events) :=
  fun s => ⟨s.runCommand l, hexec s, s.runCommand_lines l, s.runCommand_trace l, s.runCommand_now l,
    by simp, by simp, by simp, s.runCommand_dir l, by simp, by rw [s.runCommand_outCache, hcache], s.runCommand_dacLog hwrite,
    s.runCommand_host l⟩

/-- Settles O13: the latched list is `startOps`. -/
theorem startConditionRuns : Obligations.StartConditionRuns :=
  ⟨decode_start rfl, rfl, runsAs_latch (l := .start) (fun _ => rfl) (fun _ => rfl) (by simp)⟩

/-- Settles O14: the latched list is `bitOps b`. -/
theorem writeBitRuns : Obligations.WriteBitRuns :=
  ⟨decode_wbit rfl, decode_wbit rfl, fun b => ⟨rfl, runsAs_latch (l := .bit b) (fun _ => rfl) (fun _ => rfl) (by simp)⟩⟩

/-- Settles O15: the latched list is `stopOps`. -/
theorem stopConditionRuns : Obligations.StopConditionRuns :=
  ⟨decode_stop rfl, rfl, runsAs_latch (l := .stop) (fun _ => rfl) (fun _ => rfl) (by simp)⟩

/-! ### The lines after each micro-operation of a channel write (R147) -/

/-- The lines after the first `n` micro-operations of a channel write. -/
def Lines.duringWrite (l : Lines) (j : WriteJob) (n : Nat) : Lines := l.performAll ((Latch.write j).ops.take n)

theorem State.performAll_take_lines (s : State) (j : WriteJob) (n : Nat) :
    (s.performAll ((Latch.write j).ops.take n)).lines = s.lines.duringWrite j n := by
  rw [State.performAll_eq, Lines.duringWrite]

/-- The bits of a frame, begun with the clock low, end with the clock low; they leave the chip-selects alone (R126). -/
theorem Lines.performAll_bits_eq {l : Lines} (h : l.clock = false) (bits : List Level) :
    ∃ d, l.performAll (bits.flatMap bitOps) = { clock := false, data := d, cs1 := l.cs1, cs2 := l.cs2 } := by
  induction bits generalizing l with
  | nil => exact ⟨l.data, by rw [← h]; rfl⟩
  | cons b bits ih =>
    rw [List.flatMap_cons, Lines.performAll_append]
    exact ih rfl

/-- The start condition's block: the lines move by the chip-selects' writes and `startOps`. -/
theorem Lines.duringWrite_start (l : Lines) (j : WriteJob) {n : Nat} (hn : n ≤ 5) :
    l.duringWrite j n = l.performAll (([MicroOp.set .cs1 j.cs1, .set .cs2 j.cs2] ++ startOps).take n) := by
  rw [Lines.duringWrite, Latch.ops, writeOps, List.append_assoc, List.append_assoc, List.take_append_of_le_length hn]

/-- The block of bit `k`: it begins with the clock low and the chip-selects at their levels, and the lines move by `bitOps`. -/
theorem Lines.duringWrite_bit (l : Lines) (j : WriteJob) {k : Nat} (hk : k < 27) :
    ∃ d, ∀ m ≤ 5, l.duringWrite j (5 + 5 * k + m) =
      Lines.performAll { clock := false, data := d, cs1 := j.cs1, cs2 := j.cs2 } ((bitOps (j.frame.getLsbD (26 - k))).take m) := by
  obtain ⟨d, hbits⟩ := Lines.performAll_bits_eq (l := l.performAll ([.set .cs1 j.cs1, .set .cs2 j.cs2] ++ startOps)) rfl
    ((frameBits j.frame).take k)
  refine ⟨d, fun m hm => ?_⟩
  rw [Lines.duringWrite, take_write j k m hk hm, Lines.performAll_append, Lines.performAll_append, hbits]
  rfl

/-- The stop condition's block: it begins with the clock low and data at the last bit, and the lines move by `stopOps`. -/
theorem Lines.duringWrite_stop (l : Lines) (j : WriteJob) (m : Nat) :
    l.duringWrite j (140 + m) =
      Lines.performAll { clock := false, data := j.frame.getLsbD 0, cs1 := j.cs1, cs2 := j.cs2 }
        ((stopOps ++ [MicroOp.cache j.slot j.value]).take m) := by
  have hdrop : (Latch.write j).ops.drop 140 = stopOps ++ [.cache j.slot j.value] := by
    rw [Latch.ops, writeOps, List.append_assoc]
    exact List.drop_left' (by simp only [List.length_append, flatMap_bitOps_length, frameBits_length]; rfl)
  obtain ⟨d, hbit⟩ := l.duringWrite_bit j (k := 26) (by decide)
  rw [Lines.duringWrite, List.take_add, hdrop, Lines.performAll_append]
  exact congrArg (Lines.performAll · _) (hbit 5 le_rfl)

/-- Each micro-operation of a channel write stands in one of the three kinds of block. -/
theorem write_position {n : Nat} (hn : n < 145) :
    n < 5 ∨ (∃ k < 27, ∃ m < 5, n = 5 + 5 * k + m) ∨ ∃ m < 5, n = 140 + m := by
  by_cases hstart : n < 5
  · exact .inl hstart
  by_cases hbits : n < 140
  · exact .inr (.inl ⟨(n - 5) / 5, by omega, (n - 5) % 5, by omega, by omega⟩)
  · exact .inr (.inr ⟨n - 140, by omega, by omega⟩)

/-! ### Data and clock in the course of a channel write (R126, R215) -/

/-- Bit `k` is put on data with the clock low, and data holds it until the clock has been high and is low again. -/
theorem Lines.duringWrite_bit_levels (l : Lines) (j : WriteJob) {k : Nat} (hk : k < 27) :
    (l.duringWrite j (5 + 5 * k)).clock = false ∧
    (l.duringWrite j (6 + 5 * k)).clock = false ∧ (l.duringWrite j (6 + 5 * k)).data = j.frame.getLsbD (26 - k) ∧
    (l.duringWrite j (7 + 5 * k)).clock = false ∧ (l.duringWrite j (7 + 5 * k)).data = j.frame.getLsbD (26 - k) ∧
    (l.duringWrite j (8 + 5 * k)).clock = true ∧ (l.duringWrite j (8 + 5 * k)).data = j.frame.getLsbD (26 - k) ∧
    (l.duringWrite j (9 + 5 * k)).clock = true ∧ (l.duringWrite j (9 + 5 * k)).data = j.frame.getLsbD (26 - k) ∧
    (l.duringWrite j (10 + 5 * k)).clock = false ∧ (l.duringWrite j (10 + 5 * k)).data = j.frame.getLsbD (26 - k) := by
  obtain ⟨d, h⟩ := l.duringWrite_bit j hk
  have hat (m : Nat) (hm : m ≤ 5) := (congrArg (l.duringWrite j) (Nat.add_right_comm 5 m (5 * k))).trans (h m hm)
  rw [hat 0 (by decide), hat 1 (by decide), hat 2 (by decide), hat 3 (by decide), hat 4 (by decide), hat 5 (by decide)]
  exact ⟨rfl, rfl, rfl, rfl, rfl, rfl, rfl, rfl, rfl, rfl, rfl⟩

/-- Data changes with the clock low, or as the start or the stop condition: each block's list has one write of data, and elsewhere
data stands still. -/
theorem Lines.duringWrite_data_changes (l : Lines) (j : WriteJob) {n : Nat} (hn : n < 145)
    (hchange : (l.duringWrite j (n + 1)).data ≠ (l.duringWrite j n).data) :
    (l.duringWrite j n).clock = false ∨ n = 2 ∨ n = 142 := by
  rcases write_position hn with hstart | ⟨k, hk, m, hm, rfl⟩ | ⟨m, hm, rfl⟩
  · rw [l.duringWrite_start j (by omega), l.duringWrite_start j (by omega)] at hchange
    interval_cases n
    exacts [absurd rfl hchange, absurd rfl hchange, .inr (.inl rfl), absurd rfl hchange, absurd rfl hchange]
  · obtain ⟨d, h⟩ := l.duringWrite_bit j hk
    rw [Nat.add_assoc, h _ (by omega), h _ (by omega)] at hchange
    rw [h _ (by omega)]
    interval_cases m
    exacts [.inl rfl, absurd rfl hchange, absurd rfl hchange, absurd rfl hchange, absurd rfl hchange]
  · rw [Nat.add_assoc, l.duringWrite_stop, l.duringWrite_stop] at hchange
    interval_cases m
    exacts [absurd rfl hchange, absurd rfl hchange, .inr (.inr rfl), absurd rfl hchange, absurd rfl hchange]

/-- A line that no micro-operation of the list writes keeps its level. -/
theorem Lines.get_performAll_of_no_set {n : Line} {ops : List MicroOp} (h : ∀ v, MicroOp.set n v ∉ ops) (l : Lines) :
    (l.performAll ops).get n = l.get n := by
  induction ops generalizing l with
  | nil => rfl
  | cons op ops ih =>
    simp only [List.mem_cons, not_or] at h
    rw [Lines.performAll_cons, ih fun v => (h v).2]
    cases op with
    | set m v => exact l.get_set_other v fun hnm => (h v).1 (by rw [hnm])
    | wait us => rfl
    | cache c q => rfl

/-- After its two chip-select writes a channel write writes clock and data only. -/
theorem not_mem_drop_write {n : Line} (hn : isChipSelect n = true) (j : WriteJob) (v : Level) :
    MicroOp.set n v ∉ (Latch.write j).ops.drop 2 := by
  have hdrop : (Latch.write j).ops.drop 2 =
      startOps ++ (frameBits j.frame).flatMap bitOps ++ stopOps ++ [.cache j.slot j.value] := rfl
  cases n with
  | clock | data => cases hn
  | cs1 | cs2 => simp [hdrop, startOps, bitOps, stopOps]

/-- Once its first two micro-operations are performed, a channel write leaves the chip-selects at their levels. -/
theorem Lines.duringWrite_chipSelects (l : Lines) (j : WriteJob) {n : Nat} (hn : 2 ≤ n) :
    (l.duringWrite j n).cs1 = j.cs1 ∧ (l.duringWrite j n).cs2 = j.cs2 := by
  obtain ⟨m, rfl⟩ := Nat.exists_eq_add_of_le hn
  have hkept {n : Line} (hsel : isChipSelect n = true) : (l.duringWrite j (2 + m)).get n = (l.duringWrite j 2).get n := by
    rw [Lines.duringWrite, List.take_add, Lines.performAll_append]
    exact Lines.get_performAll_of_no_set (fun v hv => not_mem_drop_write hsel j v (List.mem_of_mem_take hv)) _
  exact ⟨hkept (n := .cs1) rfl, hkept (n := .cs2) rfl⟩

/-- Settles O29, block by block: the start condition and the stop condition by their own lists, the bits by `duringWrite_bit_levels`. -/
theorem dataIsStableWhileTheClockIsHigh : Obligations.DataIsStableWhileTheClockIsHigh := by
  intro s j at'
  have hat (n : Nat) : at' n = s.lines.duringWrite j n := s.performAll_take_lines j n
  have hstart {n : Nat} (hn : n ≤ 5) := (hat n).trans (s.lines.duringWrite_start j hn)
  have hstop (m : Nat) := (hat (140 + m)).trans (s.lines.duringWrite_stop j m)
  refine ⟨?_, fun k hk => ?_, ?_, fun n hn hchange => ?_, fun n hn _ => ?_⟩
  · rw [hstart (n := 2) (by decide), hstart (n := 3) (by decide), hstart (n := 4) (by decide), hstart (n := 5) (by decide)]
    exact ⟨rfl, rfl, rfl, rfl, rfl, rfl, rfl, rfl⟩
  · simp only [hat]
    exact s.lines.duringWrite_bit_levels j hk
  · rw [hstop 0, hstop 1, hstop 2, hstop 3, hstop 4]
    exact ⟨rfl, rfl, rfl, rfl, rfl, rfl, rfl, rfl, rfl, rfl⟩
  · rw [hat, hat] at hchange
    rw [hat]
    exact s.lines.duringWrite_data_changes j hn hchange
  · rw [hat]
    exact s.lines.duringWrite_chipSelects j hn

end Sys2Proof.Machine
end

section
/-! PROOFS of the family `42_dac_channel_encoder.md`: clamp and code, the list of a channel write, and the three commands that run one
(R140 to R152).

The idea for the code: it reaches `k` exactly where the value has passed `k` of 4095 equal steps of the Range (`le_codeOf_iff`), which
gives the intervals, the bounds and monotonicity. The integer scale of R143 is the same code with value and Range scaled by 65536
(`codeOf_mul`). The commands are `runCommand` of one latched job. -/

namespace Sys2Proof.Machine

open Sys2Proof (Instr Level Value NumWord Code Frame Line Channel Range)

/-! ### The clamp (R141) -/

theorem clamp_of_lt {v : Value} {r : Range} (h : v < r.minVal) : clamp v r = r.minVal := if_pos h

theorem clamp_of_gt {v : Value} {r : Range} (hr : r.Ok) (h : r.maxVal < v) : clamp v r = r.maxVal := by
  rw [clamp, if_neg (hr.trans h).le.not_gt, if_pos h]

theorem clamp_of_mem {v : Value} {r : Range} (hlo : r.minVal ≤ v) (hhi : v ≤ r.maxVal) : clamp v r = v := by
  rw [clamp, if_neg hlo.not_gt, if_neg hhi.not_gt]

/-- Settles O16, case by case along the definition of the clamp. -/
theorem clampIntoTheRange : Obligations.ClampIntoTheRange := fun v r hr =>
  ⟨clamp_of_lt, clamp_of_gt hr, clamp_of_mem, clamp_mem v r hr⟩

/-- In a good Range the clamp is the nearest value of the Range: a bound above `minVal` and up to `maxVal` holds of the clamped value
exactly when it holds of the value. -/
theorem le_clamp_iff {x v : Value} {r : Range} (hlo : r.minVal < x) (hhi : x ≤ r.maxVal) : x ≤ clamp v r ↔ x ≤ v := by
  unfold clamp
  split_ifs with h h'
  · exact iff_of_false hlo.not_ge (h.trans hlo).not_ge
  · exact iff_of_true hhi (hhi.trans h'.le)
  · exact Iff.rfl

theorem clamp_mono {v w : Value} {r : Range} (hr : r.Ok) (h : v ≤ w) : clamp v r ≤ clamp w r := by
  rcases (clamp_mem v r hr).1.eq_or_lt with heq | hlt
  · exact heq ▸ (clamp_mem w r hr).1
  · have hhi := (clamp_mem v r hr).2
    exact (le_clamp_iff hlt hhi).2 (((le_clamp_iff hlt hhi).1 le_rfl).trans h)

theorem clamp_add (v d : Value) (r : Range) :
    clamp (v + d) { minVal := r.minVal + d, maxVal := r.maxVal + d } = clamp v r + d := by
  simp only [clamp, add_lt_add_iff_right]
  split_ifs <;> rfl

theorem clamp_mul (v : Value) {a : Value} (r : Range) (ha : 0 < a) :
    clamp (a * v) { minVal := a * r.minVal, maxVal := a * r.maxVal } = a * clamp v r := by
  simp only [clamp, mul_lt_mul_iff_right₀ ha]
  split_ifs <;> rfl

/-! ### The code (R142, R152) -/

theorem codeOf_eq_floor (v : Value) (r : Range) :
    codeOf v r = ⌊4095 * (clamp v r - r.minVal) / (r.maxVal - r.minVal)⌋ := scale_floor _ _

/-- Where the code reaches `k`: from the `k`-th of 4095 equal steps on, measured on the clamped value. -/
theorem le_codeOf_iff_clamp {k : Int} {v : Value} {r : Range} (hr : r.Ok) :
    k ≤ codeOf v r ↔ r.minVal + k * (r.maxVal - r.minVal) / 4095 ≤ clamp v r := by
  have hspan : 0 < r.maxVal - r.minVal := sub_pos.2 hr
  rw [codeOf_eq_floor, Int.le_floor, le_div_iff₀ hspan, ← le_sub_iff_add_le', div_le_iff₀' (by norm_num)]

theorem codeOf_nonneg {v : Value} {r : Range} (hr : r.Ok) : 0 ≤ codeOf v r :=
  (le_codeOf_iff_clamp hr).2 (by simpa using (clamp_mem v r hr).1)

theorem codeOf_le {v : Value} {r : Range} (hr : r.Ok) : codeOf v r ≤ 4095 := by
  have hr' : r.minVal < r.maxVal := hr
  by_contra! hlt
  have hstep := (le_codeOf_iff_clamp (k := 4096) hr).1 hlt
  push_cast at hstep
  linarith [(clamp_mem v r hr).2]

/-- The `k`-th step of a good Range, `k` in `1 .. 4095`, is reached by the code exactly where it is reached by the value itself. -/
theorem le_codeOf_iff {k : Int} {v : Value} {r : Range} (hr : r.Ok) (hk : 1 ≤ k) (hk' : k ≤ 4095) :
    k ≤ codeOf v r ↔ r.minVal + k * (r.maxVal - r.minVal) / 4095 ≤ v := by
  have hspan : 0 < r.maxVal - r.minVal := sub_pos.2 hr
  have hkpos : (1 : Rat) ≤ k := by exact_mod_cast hk
  have hkmax : (k : Rat) ≤ 4095 := by exact_mod_cast hk'
  rw [le_codeOf_iff_clamp hr, le_clamp_iff]
  · have : 0 < k * (r.maxVal - r.minVal) / 4095 := by positivity
    linarith
  · have : k * (r.maxVal - r.minVal) / 4095 ≤ r.maxVal - r.minVal := by
      rw [div_le_iff₀ (by norm_num), mul_comm]
      exact mul_le_mul_of_nonneg_left hkmax hspan.le
    linarith

theorem codeOf_eq_max_iff {v : Value} {r : Range} (hr : r.Ok) : codeOf v r = 4095 ↔ r.maxVal ≤ v := by
  have hlast : r.minVal + ((4095 : Int) : Rat) * (r.maxVal - r.minVal) / 4095 = r.maxVal := by push_cast; ring
  have htop := le_codeOf_iff (v := v) hr (by norm_num) (le_refl 4095)
  rw [hlast] at htop
  rw [← htop]
  exact ⟨ge_of_eq, (codeOf_le hr).antisymm⟩

theorem codeOf_eq_iff {k : Nat} {v : Value} {r : Range} (hr : r.Ok) (hk : 1 ≤ k) (hk' : k ≤ 4094) :
    codeOf v r = k ↔ r.minVal + (k : Rat) * (r.maxVal - r.minVal) / 4095 ≤ v ∧
      v < r.minVal + ((k : Rat) + 1) * (r.maxVal - r.minVal) / 4095 := by
  have hthis := le_codeOf_iff (k := k) (v := v) hr (by omega) (by omega)
  have hnext := le_codeOf_iff (k := k + 1) (v := v) hr (by omega) (by omega)
  push_cast at hthis hnext
  rw [← hthis, ← not_le, ← hnext]
  omega

theorem codeOf_eq_zero {v : Value} {r : Range} (hr : r.Ok) (h : v < r.minVal + (r.maxVal - r.minVal) / 4095) : codeOf v r = 0 := by
  have hfirst := le_codeOf_iff (k := 1) (v := v) hr le_rfl (by norm_num)
  rw [Int.cast_one, one_mul] at hfirst
  have hlt := mt hfirst.1 h.not_ge
  have hnonneg := codeOf_nonneg (v := v) hr
  omega

/-- Settles O19: each code's interval lies between the step it reaches and the next (`le_codeOf_iff`). -/
theorem codeIntervals : Obligations.CodeIntervals := fun _ _ hr =>
  ⟨codeOf_eq_zero hr, codeOf_eq_max_iff hr, fun _ hk hk' => codeOf_eq_iff hr hk hk'⟩

theorem codeOf_mono {v w : Value} {r : Range} (hr : r.Ok) (h : v ≤ w) : codeOf v r ≤ codeOf w r :=
  (le_codeOf_iff_clamp hr).2 (((le_codeOf_iff_clamp hr).1 le_rfl).trans (clamp_mono hr h))

theorem codeOf_add (v d : Value) (r : Range) :
    codeOf (v + d) { minVal := r.minVal + d, maxVal := r.maxVal + d } = codeOf v r := by
  rw [codeOf_eq_floor, codeOf_eq_floor, clamp_add, add_sub_add_right_eq_sub, add_sub_add_right_eq_sub]

theorem codeOf_mul (v : Value) {a : Value} (r : Range) (ha : 0 < a) :
    codeOf (a * v) { minVal := a * r.minVal, maxVal := a * r.maxVal } = codeOf v r := by
  rw [codeOf_eq_floor, codeOf_eq_floor, clamp_mul v r ha, ← mul_sub, ← mul_sub, mul_left_comm, mul_div_mul_left _ _ ha.ne']

/-- Settles O20: the clamp is monotone and moves with the Range, and the quotient is that of two differences. -/
theorem codeIsMonotoneAndInvariant : Obligations.CodeIsMonotoneAndInvariant := fun r hr =>
  ⟨fun _ _ => codeOf_mono hr, fun v d => codeOf_add v d r, fun v _ => codeOf_mul v r⟩

/-- The twelve bits hold the code (R75, R142). -/
theorem codeBitsOf_toNat {v : Value} {r : Range} (hr : r.Ok) : ((codeBitsOf v r).toNat : Int) = codeOf v r := by
  have hlo := codeOf_nonneg (v := v) hr
  have hhi := codeOf_le (v := v) hr
  rw [codeBitsOf, BitVec.toNat_ofInt, constants_codeBits]
  omega

/-- Settles O17: the code is a floor (`codeOf_eq_floor`) and stays in `[0, 4095]`; the worked value lies in its code's interval. -/
theorem codeIsTheFloorAndFits : Obligations.CodeIsTheFloorAndFits := by
  refine ⟨(codeOf_eq_iff (k := 2047) (by norm_num) (by norm_num) (by norm_num)).2 (by norm_num), fun v r hr => ?_⟩
  have hfloor := codeOf_eq_floor v r
  exact ⟨hfloor ▸ Int.floor_le _, hfloor ▸ Int.lt_floor_add_one _, codeOf_nonneg hr, codeOf_le hr, codeBitsOf_toNat hr⟩

/-! ### The scale in integers (R143) -/

/-- A Range whose ends are the integers `lo` and `hi`. -/
def intRange (lo hi : Int) : Range := { minVal := lo, maxVal := hi }

/-- The clamp among integers. -/
theorem clamp_intCast (v lo hi : Int) : clamp v (intRange lo hi) = ((if v < lo then lo else if hi < v then hi else v : Int) : Rat) := by
  simp only [clamp, intRange, Int.cast_lt]
  split_ifs <;> rfl

/-- The floor of a quotient of integers is the quotient rounded down. -/
theorem floor_intCast_div {d : Int} (n : Int) (hd : 0 < d) : ⌊(n : Rat) / d⌋ = n.fdiv d := by
  obtain ⟨m, rfl⟩ := Int.eq_ofNat_of_zero_le hd.le
  rw [Int.cast_natCast, Rat.floor_intCast_div_natCast, Int.fdiv_eq_ediv_of_nonneg _ hd.le]

/-- The integer scale is the code of the words' signed integers. -/
theorem codeOfWords_eq (v lo hi : NumWord) (h : lo.toInt < hi.toInt) :
    codeOfWords v lo hi = codeOf v.toInt (intRange lo.toInt hi.toInt) := by
  rw [codeOf_eq_floor, clamp_intCast, codeOfWords, ← floor_intCast_div _ (sub_pos.2 h)]
  push_cast [intRange]
  rfl

/-- A Q16.16 word is its signed integer in units of 1/65536. -/
theorem mul_q16 (w : NumWord) : 65536 * q16 w = w.toInt := by
  rw [q16_eq_div]; ring

/-- The common factor 65536 cancels in the quotient (`codeOf_mul`). -/
theorem codeOf_q16 (v lo hi : NumWord) : codeOf (q16 v) (q16Range lo hi) = codeOf v.toInt (intRange lo.toInt hi.toInt) := by
  rw [← codeOf_mul (q16 v) (q16Range lo hi) (a := 65536) (by norm_num)]
  simp only [q16Range, mul_q16, intRange]

/-- Settles O18: both sides are the code of the words' signed integers; the bounds are those of 32-bit words. -/
theorem integerScaleIsExact : Obligations.IntegerScaleIsExact := by
  intro v lo hi h
  obtain ⟨hlo, -⟩ := intFits_toInt lo
  obtain ⟨-, hhi⟩ := intFits_toInt hi
  refine ⟨(codeOfWords_eq v lo hi h).trans (codeOf_q16 v lo hi).symm, by omega, fun c hc hc' => ⟨by omega, by omega⟩⟩

/-! ### The list of a channel write (R147) -/

/-- A channel write up to its first bit: the chip-selects and the start condition (R147). -/
def writeHead (j : WriteJob) : List MicroOp := [.set .cs1 j.cs1, .set .cs2 j.cs2] ++ startOps

/-- A channel write after its last bit: the stop condition and the cache write (R147). -/
def writeTail (j : WriteJob) : List MicroOp := stopOps ++ [.cache j.slot j.value]

theorem ops_write (j : WriteJob) : (Latch.write j).ops = writeHead j ++ ((frameBits j.frame).flatMap bitOps ++ writeTail j) := by
  rw [Latch.ops, writeOps, List.append_assoc, List.append_assoc]; rfl

/-- Micro-operation `m` of bit `k`. -/
theorem ops_write_bit (j : WriteJob) {k m : Nat} (hk : k < 27) (hm : m < 5) :
    (Latch.write j).ops[5 + 5 * k + m]? = (bitOps (j.frame.getLsbD (26 - k)))[m]? := by
  have hlength : (writeHead j ++ ((frameBits j.frame).take k).flatMap bitOps).length = 5 + 5 * k := by
    rw [List.length_append, flatMap_bitOps_length, List.length_take_of_le (by rw [frameBits_length]; omega)]; rfl
  rw [← List.getElem?_take_of_lt (show 5 + 5 * k + m < 5 + 5 * k + 5 by omega), take_write j k 5 hk le_rfl, ← List.append_assoc,
    ← writeHead, List.getElem?_append_right (by omega), hlength, Nat.add_sub_cancel_left]
  rfl

/-- Micro-operation `m` after the bits. -/
theorem ops_write_tail (j : WriteJob) (m : Nat) : (Latch.write j).ops[140 + m]? = (writeTail j)[m]? := by
  have hlength : (writeHead j ++ (frameBits j.frame).flatMap bitOps).length = 140 := by
    rw [List.length_append, flatMap_bitOps_length, frameBits_length]; rfl
  rw [ops_write, ← List.append_assoc, List.getElem?_append_right (by omega), hlength, Nat.add_sub_cancel_left]

/-- Counting events of a channel write, of a kind that stands equally often in every bit. -/
theorem countP_write {p : Event → Bool} {c : Nat} (hbit : ∀ b, ((bitOps b).map MicroOp.event).countP p = c) (j : WriteJob) :
    (Latch.write j).events.countP p =
      ((writeHead j).map MicroOp.event).countP p + (c * 27 + ((writeTail j).map MicroOp.event).countP p) := by
  rw [Latch.events, ops_write, List.map_append, List.map_append, List.countP_append, List.countP_append, countP_bits p _ c hbit,
    frameBits_length]

/-- Settles O28: the start of the list computes; the bits and the end stand at the places `ops_write_bit` and `ops_write_tail` say. -/
theorem writeChannelMicroOperations : Obligations.WriteChannelMicroOperations := by
  intro j ops
  obtain ⟨hsets, hwaits⟩ := write_counts j
  refine ⟨writeOps_length j, rfl, rfl, rfl, rfl, rfl, fun k hk => ?_, ops_write_tail j 0, ops_write_tail j 1, ops_write_tail j 2,
    ops_write_tail j 3, ops_write_tail j 4, hsets, hwaits, countP_write (c := 0) (fun _ => rfl) j,
    countP_write (c := 0) (fun _ => rfl) j, countP_write (c := 1) (fun _ => rfl) j, countP_write (c := 2) (fun _ => rfl) j,
    traceMicros_write j⟩
  have hbit (m : Nat) (hm : m < 5) : ops[5 + m + 5 * k]? = (bitOps (j.frame.getLsbD (26 - k)))[m]? := by
    rw [Nat.add_right_comm]; exact ops_write_bit j hk hm
  exact ⟨hbit 0 (by decide), hbit 1 (by decide), hbit 2 (by decide), hbit 3 (by decide), hbit 4 (by decide)⟩

/-! ### A channel write as a command (R146) -/

/-- The events of a channel write, in order (R145 to R148). -/
theorem events_write (j : WriteJob) :
    (Latch.write j).events =
      [Event.set .cs1 j.cs1, Event.set .cs2 j.cs2, Event.set .data false, Event.wait 5, Event.set .clock false]
        ++ (List.range 27).flatMap (fun i =>
            [Event.set .data (j.frame.getLsbD (26 - i)), Event.wait 5, Event.set .clock true, Event.wait 5, Event.set .clock false])
        ++ [Event.set .clock true, Event.wait 5, Event.set .data true, Event.wait 5, Event.cache j.slot j.value] := by
  rw [Latch.events, ops_write, List.map_append, List.map_append, List.map_flatMap, frameBits_eq, List.flatMap_map, List.append_assoc]
  rfl

theorem State.runCommand_write_lines (s : State) (j : WriteJob) :
    (s.runCommand (.write j)).lines = { clock := true, data := true, cs1 := j.cs1, cs2 := j.cs2 } :=
  (s.runCommand_lines _).trans (s.lines.performAll_write j)

theorem State.runCommand_write_outCache (s : State) (j : WriteJob) :
    (s.runCommand (.write j)).outCache = s.outCache.set j.slot j.value :=
  (s.runCommand_outCache _).trans (s.outCache.performAll_write j)

/-- A channel write caches its value in its slot. -/
theorem State.runCommand_write_cached (s : State) (j : WriteJob) : (s.runCommand (.write j)).outCache.get j.slot = some j.value := by
  rw [State.runCommand_write_outCache, OutCache.get_set_same]

/-- A channel write keeps every slot but its own. -/
theorem State.runCommand_write_otherSlots (s : State) (j : WriteJob) {k : Channel} (h : k ≠ j.slot) :
    (s.runCommand (.write j)).outCache.get k = s.outCache.get k := by
  rw [State.runCommand_write_outCache, OutCache.get_set, if_neg h.symm]

theorem State.runCommand_write_dacLog (s : State) (j : WriteJob) :
    (s.runCommand (.write j)).hist.dacLog = s.hist.dacLog ++ [j.record] := by
  rw [State.runCommand_hist, History.complete_write]; rfl

theorem exec_wrch_ok {s : State} (ch : Int) (v : Value) (hr : s.config.range.Ok) :
    exec (.wrch ch v) s = .next (s.runCommand (.write (writeJob ch v s.config.range))) := State.runWrite_ok ch v hr

theorem exec_awr_eq_wrch (ch : Int) (v : Value) (s : State) : exec (.awr ch v) s = exec (.wrch ch v) s := rfl

theorem exec_dwr_eq_awr (ch d : Int) (s : State) : exec (.dwr ch d) s = exec (.awr ch (digitalValue d s.config.range)) s := rfl

/-- Settles O26: `AWR` means `WRCH` (`exec_awr_eq_wrch`), and what a channel write caches is the clamped value. -/
theorem analogWriteDelegates : Obligations.AnalogWriteDelegates :=
  ⟨by decide +kernel, fun s ch v => ⟨exec_awr_eq_wrch ch v s, fun hr =>
    ⟨_, _, exec_wrch_ok ch v hr, s.runCommand_write_cached _, clamp_mem v _ hr⟩⟩⟩

/-! ### Digital writes (R151) -/

theorem codeBitsOf_eq {v : Value} {r : Range} (hr : r.Ok) {code : Code} (h : codeOf v r = code.toNat) : codeBitsOf v r = code :=
  BitVec.eq_of_toNat_eq (by exact_mod_cast (codeBitsOf_toNat hr).trans h)

theorem codeBitsOf_max {r : Range} (hr : r.Ok) : codeBitsOf r.maxVal r = 4095#12 :=
  codeBitsOf_eq hr ((codeOf_eq_max_iff hr).2 le_rfl)

theorem codeBitsOf_min {r : Range} (hr : r.Ok) : codeBitsOf r.minVal r = 0#12 :=
  codeBitsOf_eq hr (codeOf_eq_zero hr (lt_add_of_pos_right _ (div_pos (sub_pos.2 hr) (by norm_num))))

/-- What `AWR` of a value that clamps to itself does: it caches the value and logs a frame with its code. -/
theorem exec_awr_of_clamped {s : State} (ch : Int) {v : Value} (hr : s.config.range.Ok) (hv : clamp v s.config.range = v) :
    ∃ t, exec (.awr ch v) s = .next t ∧ t.outCache.get (resolve ch) = some v ∧
      ∃ rec, t.hist.dacLog = s.hist.dacLog ++ [rec] ∧ frameCode rec.frame = codeBitsOf v s.config.range :=
  ⟨_, exec_wrch_ok ch v hr, (s.runCommand_write_cached _).trans (congrArg some hv), _, s.runCommand_write_dacLog _, frameCode_frame _ _⟩

/-- Settles O27: `DWR` is `AWR` of an end of the Range (`exec_dwr_eq_awr`), which clamps to itself and has the code 4095 or 0. -/
theorem digitalWriteDelegates : Obligations.DigitalWriteDelegates := by
  refine ⟨decode_dwr rfl, fun s ch d hr => ?_⟩
  rw [exec_dwr_eq_awr]
  by_cases hd : d = 0
  · obtain ⟨t, ht, hcache, hlog⟩ := exec_awr_of_clamped ch hr (clamp_min _ hr)
    rw [codeBitsOf_min hr] at hlog
    rw [digitalValue, if_neg (not_not.2 hd)]
    exact ⟨t, ht, fun h => absurd hd h, fun _ => ⟨ht, hcache, hlog⟩⟩
  · obtain ⟨t, ht, hcache, hlog⟩ := exec_awr_of_clamped ch hr (clamp_max _ hr)
    rw [codeBitsOf_max hr] at hlog
    rw [digitalValue, if_pos hd]
    exact ⟨t, ht, fun _ => ⟨ht, hcache, hlog⟩, fun h => absurd h hd⟩

/-! ### The whole channel write (R141 to R148) -/

/-- The sub-address bit of a channel number: 0 for channel 3 and else 1 (R57, R144). -/
theorem addr_resolve (ch : Int) : Config.constants.addr (resolve ch) = if ch = 3 then false else true := by
  rw [resolve_eq]; split_ifs <;> rfl

/-- The frame of a channel write as a number (R76). -/
theorem writeJob_frame_toNat (ch : Int) (v : Value) (r : Range) :
    (writeJob ch v r).frame.toNat =
      0x6040201 + (if ch = 3 then 0 else 0x100000) + (codeBitsOf v r).toNat / 256 * 0x400 + (codeBitsOf v r).toNat % 256 * 2 := by
  have hweight : (Config.constants.addr (resolve ch)).toNat * 0x100000 = if ch = 3 then 0 else 0x100000 := by
    rw [addr_resolve, apply_ite Bool.toNat, ite_mul]; rfl
  rw [← hweight]; exact frameAsNumber _ _

/-- Settles O25: the job by the spec's formulas, the command by `runCommand` of its latch, acceptance by `accept_of_latch`. -/
theorem writeChannelRuns : Obligations.WriteChannelRuns := by
  refine ⟨by decide +kernel, fun s ch v hr => ?_⟩
  have hlatch : latchOf (.wrch ch v) s.config.range = .ok (.write (writeJob ch v s.config.range)) := if_pos hr
  have hcode := codeBitsOf_toNat (v := v) hr
  have hmax := codeOf_le (v := v) hr
  refine ⟨_, _, (writeJob ch v s.config.range).value, (codeBitsOf v s.config.range).toNat, _, _, _, _, rfl,
    hcode.trans (codeOf_eq_floor v _), by omega, writeJob_fields ch v _, writeJob_frame_toNat ch v _, exec_wrch_ok ch v hr,
    s.runCommand_write_lines _, s.runCommand_write_cached _, fun k hk => s.runCommand_write_otherSlots _ hk, ?_, ?_,
    s.runCommand_write_dacLog _, by simp, by simp, by simp, by simp, by simp, by simp, accept_of_latch hlatch (by simp),
    rfl, rfl, rfl, rfl⟩
  · rw [State.runCommand_trace, events_write, ← List.append_assoc, ← List.append_assoc]
  · rw [State.runCommand_now, traceMicros_write]

end Sys2Proof.Machine
end

section
/-! PROOFS of the family `60_exceptions.md`: the one refusal, a Range without meaning, and where a step can answer it (R170, R176); and
the ready block that is offered nothing (R186, R221). -/

namespace Sys2Proof.Machine

/-! ### The idle block (R186, R221) -/

/-- A ready block that is offered nothing only sees the ports move on. -/
theorem step_idle {s : State} (hready : s.ready = true) (hv : s.host.input.cmdValid = false) : step s = .next s.advanceHost := by
  obtain ⟨hb, hr, hp⟩ := s.ready_iff.1 hready
  simp [step, stepOut, hr, hp, hb, State.accepted_of_invalid hv, advanceHostAfter]

/-- Settles O35: with no command offered none is accepted (`step_idle`). -/
theorem idleBlockHoldsItsState : Obligations.IdleBlockHoldsItsState := fun _ => step_idle

/-! ### The refusals of a step (R176) -/

/-- A step with `rst` asserted ends at power-on, from every state (R206). -/
theorem step_reset {s : State} (hr : s.host.input.rst = true) : step s = .next s.advanceHost.holdReset := if_pos hr

/-- Moving the ports on keeps a refusal and brings none in. -/
theorem advanceHostAfter_eq_refused_iff {o : Host.Outcome State Fault Refusal} {r : Refusal} :
    advanceHostAfter o = .refused r ↔ o = .refused r := by
  cases o <;> simp [advanceHostAfter]

/-- Construction at the command level refuses only a Range without meaning on the ports. -/
theorem construct_refused {order : List Int} {s : State} {r : Refusal} (h : construct order s = .refused r) :
    r = .badRange ∧ ¬ s.cfgRange.Ok := by
  by_cases hok : s.cfgRange.Ok
  · rw [construct_eq order hok] at h; cases h
  · rw [construct, beginConstruction_bad hok] at h; cases h
    exact ⟨rfl, hok⟩

/-- The first micro-step of construction refuses only a Range without meaning on the ports. -/
theorem constructMicro_refused {order : List Int} {s : State} {r : Refusal} (h : constructMicro order s = .refused r) :
    r = .badRange ∧ ¬ s.cfgRange.Ok := by
  by_cases hok : s.cfgRange.Ok
  · rw [constructMicro_eq order hok] at h; cases h
  · rw [constructMicro, beginConstruction_bad hok] at h; cases h
    exact ⟨rfl, hok⟩

/-- At power-on, `rst` released, a step refuses only a Range without meaning on the ports, at either level (R202 step 1). -/
theorem step_powerOn_refused {s : State} {r : Refusal} (hp : s.seq.phase = .powerOn) (hr : s.host.input.rst = false)
    (h : step s = .refused r) : r = .badRange ∧ ¬ s.cfgRange.Ok := by
  cases hg : s.host.grain with
  | command =>
    rw [step_construct hp hr hg] at h
    exact construct_refused (advanceHostAfter_eq_refused_iff.1 h)
  | micro =>
    rw [step_constructMicro hp hr hg] at h
    exact constructMicro_refused (advanceHostAfter_eq_refused_iff.1 h)

/-- A ready block refuses only to run a command under a held Range without meaning, at either level (R27, R176). -/
theorem step_ready_refused {s : State} {r : Refusal} (hready : s.ready = true) (h : step s = .refused r) :
    r = .badRange ∧ ¬ s.config.range.Ok := by
  cases hv : s.host.input.cmdValid with
  | false => rw [step_idle hready hv] at h; cases h
  | true =>
    cases hg : s.host.grain with
    | command =>
      rw [step_exec hready hv hg] at h
      exact exec_refused (advanceHostAfter_eq_refused_iff.1 h)
    | micro =>
      rw [step_accept hready hv hg] at h
      exact accept_refused (advanceHostAfter_eq_refused_iff.1 h)

/-- All that a step can do when it refuses: neither reset nor a command in flight does, and the rest refuses a Range. -/
theorem step_refused_cases {s : State} {r : Refusal} (h : step s = .refused r) :
    r = .badRange ∧ ((s.seq.phase = .powerOn ∧ ¬ s.cfgRange.Ok) ∨ (s.seq.phase = .constructed ∧ ¬ s.config.range.Ok)) := by
  cases hr : s.host.input.rst with
  | true => rw [step_reset hr] at h; cases h
  | false =>
    by_cases hf : s.InFlight
    · rw [step_inFlight hr hf.1 hf.2] at h; cases h
    by_cases hp : s.seq.phase = .powerOn
    · obtain ⟨hbad, hrange⟩ := step_powerOn_refused hp hr h
      exact ⟨hbad, .inl ⟨hp, hrange⟩⟩
    · obtain ⟨hc, hb⟩ : s.seq.phase = .constructed ∧ s.seq.busy = false := by simpa [State.InFlight, hp] using hf
      obtain ⟨hbad, hrange⟩ := step_ready_refused (s.ready_iff.2 ⟨hb, hr, hc⟩) h
      exact ⟨hbad, .inr ⟨hc, hrange⟩⟩

/-- Settles O34: commands complete with a good Range (`exec_total`), a step has no fault to end in (R170), and its refusals are those of
`step_refused_cases`. -/
theorem onlyABadRangeIsRefused : Obligations.OnlyABadRangeIsRefused := by
  refine ⟨fun s w hr => exec_total (decode w) hr, fun s => ?_, fun s r h => step_refused_cases h⟩
  cases hs : step s with
  | next t => exact .inl ⟨t, rfl⟩
  | fault f => cases f
  | refused r => exact .inr (congrArg _ (step_refused_cases hs).1)

end Sys2Proof.Machine
end

section
/-! PROOFS of the family `70_reset_and_hazards.md`: reset and construction (R39, R202 to R206), hazards of the ports and of the command in
flight (R213, R216, R218, R219), and the protocol monitor (R212).

The idea for the monitor: it reads a command word by word (`FrameMonitor.read`). Whole frames bring it from closed to closed, so what is
whole frames so far does not break it; and wherever it stands unbroken, the word it has read is explained by R212's language
(`FrameMonitor.Explains`). -/

namespace Sys2Proof.Machine

open Sys2Proof (Instr Level Value CmdWord Range)

/-! ### What a command costs (R218) -/

/-- Where every wait is five microseconds, the time is five for each wait (R36, R211). -/
theorem traceMicros_eq_five_mul {es : List Event} (h : ∀ us, .wait us ∈ es → us = 5) : traceMicros es = 5 * es.countP Event.isWait := by
  induction es with
  | nil => rfl
  | cons e es ih =>
    have hes := ih fun us hus => h us (List.mem_cons_of_mem e hus)
    rw [traceMicros_cons, List.countP_cons, hes]
    cases e with
    | wait us =>
      have hfive := h us List.mem_cons_self
      simp only [Event.micros, Event.isWait, if_true]
      omega
    | set n v => simp [Event.micros, Event.isWait]
    | cache k q => simp [Event.micros, Event.isWait]

/-- A command lasts five microseconds for each of its waits. -/
theorem Latch.traceMicros_events (l : Latch) : traceMicros l.events = 5 * l.events.countP Event.isWait := by
  refine traceMicros_eq_five_mul fun us h => ?_
  obtain ⟨op, hop, hevent⟩ := List.mem_map.1 h
  cases op with
  | wait us' => cases hevent; exact l.waits_are_five us hop
  | set n v => cases hevent
  | cache k q => cases hevent

/-- A latched command has as many line writes and waits as R218 counts. -/
theorem latchOf_counts {i : Instr} {r : Range} {l : Latch} (h : latchOf i r = .ok l) :
    l.events.countP Event.isSet = lineWriteCount i ∧ l.events.countP Event.isWait = waitCount i := by
  have hwrite (ch : Int) (v : Value) (hl : latchOf (.wrch ch v) r = .ok l) :
      l.events.countP Event.isSet = writeLineWriteCount ∧ l.events.countP Event.isWait = writeWaitCount := by
    by_cases hr : r.Ok
    · rw [latchOf, if_pos hr] at hl; cases hl; exact write_counts _
    · rw [latchOf, if_neg hr] at hl; cases hl
  cases i with
  | wrch ch v => exact hwrite ch v h
  | awr ch v => exact hwrite ch v h
  | dwr ch d => exact hwrite ch _ h
  | _ => cases h; exact ⟨rfl, rfl⟩

/-- A command appends the events of what it latched, and `now` grows by their time. -/
theorem exec_appends {i : Instr} {s t : State} (h : exec i s = .next t) :
    ∃ l, latchOf i s.config.range = .ok l ∧ t.hist.trace = s.hist.trace ++ l.events ∧ t.hist.now = s.hist.now + traceMicros l.events := by
  rcases exec_next_cases h with ⟨rfl, rfl⟩ | ⟨l, -, hl, rfl⟩
  · exact ⟨.idle, rfl, by simp [Latch.events, Latch.ops], rfl⟩
  · exact ⟨l, hl, s.runCommand_trace l, s.runCommand_now l⟩

/-- Settles O33: the events are those of the latched list, which R218 counts (`latchOf_counts`), and each wait lasts five
microseconds. -/
theorem commandCosts : Obligations.CommandCosts := by
  refine ⟨⟨rfl, rfl, rfl⟩, fun i s t h => ?_⟩
  obtain ⟨l, hl, htrace, hnow⟩ := exec_appends h
  obtain ⟨hsets, hwaits⟩ := latchOf_counts hl
  have hlength := latchOf_ops_length hl
  refine ⟨⟨l.events, htrace, hsets, hwaits, by rw [Latch.events, List.length_map, hlength]⟩, ?_, l, hl, hlength⟩
  rw [hnow, l.traceMicros_events, hwaits]

/-! ### What the sequencer sees of the host (R31, R213) -/

theorem State.goOn_withHost (s : State) (h : HostSide) : (s.withHost h).goOn = s.goOn.withHost h := by
  unfold State.goOn
  rw [State.withHost_seq]
  split
  · exact s.nextChannel_withHost h _
  · rfl
  · rfl

theorem State.finishMicro_withHost (s : State) (h : HostSide) : (s.withHost h).finishMicro = s.finishMicro.withHost h := by
  rw [State.finishMicro_eq_goOn, State.finishMicro_eq_goOn]
  exact s.finish.goOn_withHost h

theorem State.perform_withHost (s : State) (h : HostSide) (op : MicroOp) : (s.withHost h).perform op = (s.perform op).withHost h :=
  s.performAll_withHost h [op]

theorem State.advanceUpc_withHost (s : State) (h : HostSide) : (s.withHost h).advanceUpc = s.advanceUpc.withHost h := by
  unfold State.advanceUpc
  rw [State.withHost_seq, State.finishMicro_withHost, apply_ite (State.withHost · h)]
  rfl

/-- A step of the sequencer sees of the host only how long it lasts (R31, R213). -/
theorem State.stepMicro_withHost (s : State) (h : HostSide) (elapsed : Nat) :
    (s.withHost h).stepMicro elapsed = (s.stepMicro elapsed).withHost h := by
  unfold State.stepMicro
  rw [State.withHost_seq]
  split
  · rw [apply_ite (State.withHost · h), ← State.advanceUpc_withHost]; rfl
  · rw [State.perform_withHost, State.advanceUpc_withHost]
  · rw [State.perform_withHost, State.advanceUpc_withHost]
  · exact s.finishMicro_withHost h

theorem State.stepMicro_host (s : State) (elapsed : Nat) : (s.stepMicro elapsed).host = s.host := by
  have h := s.stepMicro_withHost s.host elapsed
  rw [State.withHost_self] at h
  exact (congrArg State.host h).trans rfl

/-! ### A command in flight ends (R219) -/

/-- A wait whose microseconds have passed is performed, whatever the timer held. -/
theorem State.stepMicro_wait_passed {s : State} {us elapsed : Nat} (hop : s.seq.cur.ops[s.seq.upc.toNat]? = some (.wait us))
    (hle : s.seq.waitLeft us ≤ elapsed) :
    s.stepMicro elapsed = ((s.withSeq (s.seq.moved s.seq.upc 0)).perform (.wait us)).advanceUpc := by
  rcases s.stepMicro_cases elapsed with ⟨us', hop', hlt, -⟩ | ⟨us', hop', -, h⟩ | ⟨op, hop', hne, -⟩ | ⟨hop', -⟩ <;>
    rw [hop] at hop' <;> cases hop'
  · omega
  · exact h
  · exact absurd rfl (hne us)

/-- With a quiet host a wait ends in the coming step, however much of it has passed before: the timer has no part in the step. -/
theorem step_quiet_timer {s : State} (hs : s.SequencerOk) (hf : s.InFlight) (hq : s.host.Quiet) :
    step s = step (s.withSeq (s.seq.moved s.seq.upc 0)) := by
  by_cases hw : s.seq.waitCnt = 0
  · rw [show s.seq.moved s.seq.upc 0 = s.seq by rw [← hw]; rfl]; rfl
  · obtain ⟨-, hop⟩ := hs.waiting hw
    have hle : s.seq.waitLeft 5 ≤ s.host.input.elapsed := by rw [hq.elapsed]; exact hs.waitLeft_le hop
    have hmicro : (s.withSeq (s.seq.moved s.seq.upc 0)).stepMicro s.host.input.elapsed = s.stepMicro s.host.input.elapsed := by
      rw [State.stepMicro_wait_passed hop hle]
      exact State.stepMicro_wait_passed (s := s.withSeq (s.seq.moved s.seq.upc 0)) hop hq.elapsed.ge
    have hstep := step_inFlight (s := s.withSeq (s.seq.moved s.seq.upc 0)) hq.noReset hf.1 hf.2
    rw [step_inFlight hq.noReset hf.1 hf.2, hstep, ← hmicro]
    rfl

/-- States with the same step run alike from the first step on. -/
theorem run_succ_congr {s t : State} (h : step s = step t) (n : Nat) :
    Host.Core.run Sys2Proof.core (n + 1) s = Host.Core.run Sys2Proof.core (n + 1) t := by
  have h' : Sys2Proof.core.step s = Sys2Proof.core.step t := h
  simp only [Host.Core.run, h']

/-- R219: with a quiet host, a command of the host in flight completes in at most 145 steps, also from the middle of a wait. -/
theorem run_inFlight {s : State} (hs : s.SequencerOk) (hp : s.seq.phase = .constructed) (hb : s.seq.busy = true) (hq : s.host.Quiet) :
    ∃ n ≤ 145, Host.Core.run Sys2Proof.core n s = .next s.completed := by
  have hf : s.InFlight := ⟨by simp [hp], fun _ => hb⟩
  have hlt := hs.inFlight hb
  have hlength := s.seq.cur.ops_length_le
  obtain ⟨n, hn⟩ : ∃ n, s.seq.upc.toNat + (n + 1) = s.seq.cur.ops.length := ⟨s.seq.cur.ops.length - s.seq.upc.toNat - 1, by omega⟩
  have hlast : (s.performAll s.remaining).finishMicro = s.completed :=
    State.finishMicro_of_constructed (by rw [State.performAll_eq]; exact hp)
  refine ⟨n + 1, by omega, (run_succ_congr (step_quiet_timer hs hf hq) n).trans ?_⟩
  rw [← hlast, ← State.finishMicro_congr (State.finish_performAll_moved s s.seq.upc 0 s.remaining)]
  exact run_remaining (s := s.withSeq (s.seq.moved s.seq.upc 0)) hf hq rfl hn

/-- Settles O39: the first step lasts as long as the host makes it, and leaves the state of completion as it was (O38); the host is
quiet from then on, and every further step performs a micro-operation (`run_inFlight`). -/
theorem commandInFlightEnds : Obligations.CommandInFlightEnds := by
  intro s hs hp hb hr hscript
  have hstep := step_inFlight hr (by simp [hp]) fun _ => hb
  have hkept := commandInFlightIsNotDisturbed s _ hp hb hr hstep
  obtain ⟨hp', hb' | hrest⟩ := State.stepMicro_busy_or_rest hp hb s.host.input.elapsed
  · have hq : ((s.stepMicro s.host.input.elapsed).advanceHost).host.Quiet := by
      rw [State.advanceHost_host, State.stepMicro_host]; exact HostSide.quiet_advance hscript
    obtain ⟨n, hn, hrun⟩ := run_inFlight (stepKeepsTheSequencerConsistent s _ hs hstep) hp' hb' hq
    exact ⟨n + 1, _, by omega, (run_succ n hstep).trans hrun, rfl, hkept⟩
  · have hdone : ((s.stepMicro s.host.input.elapsed).advanceHost).completed = (s.stepMicro s.host.input.elapsed).advanceHost :=
      State.completed_of_rest hrest
    rw [hdone] at hkept
    exact ⟨1, _, by omega, (run_succ 0 hstep).trans (run_zero _), congrArg Sequencer.busy hrest, hkept⟩

/-! ### The command port (R213) -/

/-- The host's side with another offer on the command port. -/
def HostSide.offer (h : HostSide) (valid : Bool) (w : CmdWord) : HostSide :=
  { h with input := { h.input with cmdValid := valid, cmd := w } }

/-- What the ports show in the next step, but for a word that is not offered, does not depend on the offer of this one. -/
theorem HostSide.advance_offer (h : HostSide) (valid : Bool) (w : CmdWord) :
    (h.offer valid w).advance = h.advance ∨ (h.offer valid w).advance = h.advance.offer false w := by
  unfold HostSide.advance HostSide.offer
  cases h.script with
  | nil => exact .inr rfl
  | cons p ps => exact .inl rfl

/-- The offer has no part in the Range that the ports show in the next step. -/
theorem State.cfgRange_advance_offer (s : State) (valid : Bool) (w : CmdWord) :
    (s.withHost (s.host.offer valid w).advance).cfgRange = s.advanceHost.cfgRange := by
  rcases s.host.advance_offer valid w with h | h <;> rw [h] <;> rfl

/-- The power-on a block goes to depends on the host by the draw it takes and the Range on the ports only (R39, R206). -/
theorem State.holdReset_withHost {s : State} {h : HostSide} (hdraws : h.draws = s.host.draws) (hcfg : (s.withHost h).cfgRange = s.cfgRange) :
    SameBlock (s.withHost h).holdReset s.holdReset := by
  have hconfig : (s.withHost h).holdReset.config.range = s.holdReset.config.range := by
    rw [State.holdReset_config, State.holdReset_config, hcfg]
  by_cases hp : s.seq.phase = .powerOn
  · have hs : s.holdReset = { s.enterPowerOn with lines := s.lines, dir := s.dir, host := s.host } := if_pos hp
    have ht : (s.withHost h).holdReset = { (s.withHost h).enterPowerOn with lines := s.lines, dir := s.dir, host := h } := if_pos hp
    rw [hs, ht] at hconfig ⊢
    exact ⟨rfl, rfl, hconfig, rfl, rfl, rfl⟩
  · have hs : s.holdReset = s.enterPowerOn := if_neg hp
    have ht : (s.withHost h).holdReset = (s.withHost h).enterPowerOn := if_neg hp
    rw [hs, ht] at hconfig ⊢
    exact ⟨congrArg (fun n => Lines.ofOut (Config.powerOnLines n)) hdraws, congrArg Config.powerOnDir hdraws, hconfig, rfl, rfl, rfl⟩

/-- Steps 1 and 2 of construction see of the host only the Range on the ports (R202). -/
theorem State.begun_withHost {s : State} {h : HostSide} (hcfg : (s.withHost h).cfgRange = s.cfgRange) :
    (s.withHost h).begun = s.begun.withHost h := by
  rw [State.begun, hcfg]; rfl

theorem construct_withHost {order : List Int} {s u : State} {h : HostSide} (hcfg : (s.withHost h).cfgRange = s.cfgRange)
    (hu : construct order s = .next u) : construct order (s.withHost h) = .next (u.withHost h) := by
  obtain ⟨hok, rfl⟩ := construct_next_iff.1 hu
  rw [construct_next_iff, hcfg, State.begun_withHost hcfg, State.writeMinVal_withHost]
  exact ⟨hok, rfl⟩

theorem constructMicro_withHost {order : List Int} {s u : State} {h : HostSide} (hcfg : (s.withHost h).cfgRange = s.cfgRange)
    (hu : constructMicro order s = .next u) : constructMicro order (s.withHost h) = .next (u.withHost h) := by
  obtain ⟨hok, rfl⟩ := constructMicro_next_iff.1 hu
  rw [constructMicro_next_iff, hcfg, State.begun_withHost hcfg, State.nextChannel_withHost]
  exact ⟨hok, rfl⟩

theorem advanceHostAfter_eq_next_iff {o : Host.Outcome State Fault Refusal} {t : State} :
    advanceHostAfter o = .next t ↔ ∃ u, o = .next u ∧ t = u.advanceHost := by
  cases o <;> simp [advanceHostAfter, eq_comm]

/-- A block that is not ready, `rst` released, constructs or goes on with the command in flight, whatever is offered (R202, R213). -/
theorem step_offer {s t : State} (hready : s.ready = false) (hr : s.host.input.rst = false) (valid : Bool) (w : CmdWord)
    (h : step s = .next t) : ∃ u : State, t = u.advanceHost ∧
      step (s.withHost (s.host.offer valid w)) = .next (u.withHost (s.host.offer valid w)).advanceHost := by
  by_cases hp : s.seq.phase = .powerOn
  · cases hg : s.host.grain with
    | command =>
      rw [step_construct hp hr hg] at h
      obtain ⟨u, hu, ht⟩ := advanceHostAfter_eq_next_iff.1 h
      refine ⟨u, ht, ?_⟩
      rw [step_construct (s := s.withHost (s.host.offer valid w)) hp hr hg, construct_withHost (h := s.host.offer valid w) rfl hu]
      rfl
    | micro =>
      rw [step_constructMicro hp hr hg] at h
      obtain ⟨u, hu, ht⟩ := advanceHostAfter_eq_next_iff.1 h
      refine ⟨u, ht, ?_⟩
      rw [step_constructMicro (s := s.withHost (s.host.offer valid w)) hp hr hg, constructMicro_withHost (h := s.host.offer valid w) rfl hu]
      rfl
  · have hb (hc : s.seq.phase = .constructed) : s.seq.busy = true := by
      by_contra hb
      simp [s.ready_iff.2 ⟨by simpa using hb, hr, hc⟩] at hready
    rw [step_inFlight hr hp hb] at h
    cases h
    refine ⟨_, rfl, ?_⟩
    rw [step_inFlight (s := s.withHost (s.host.offer valid w)) hr hp hb, State.stepMicro_withHost]
    rfl

/-- Settles O41: reset reads the Range ports only (`State.holdReset_withHost`), and every other step of a block that is not ready sees
nothing of the command port (`step_offer`). -/
theorem commandPortIsIgnoredWhileNotReady : Obligations.CommandPortIsIgnoredWhileNotReady := by
  intro s t valid w hready h
  change ∃ t', step (s.withHost (s.host.offer valid w)) = .next t' ∧ SameBlock t' t
  cases hr : s.host.input.rst with
  | true =>
    rw [step_reset hr] at h
    cases h
    have hdraws : (s.host.offer valid w).advance.draws = s.advanceHost.host.draws := by
      rw [State.advanceHost_host, HostSide.advance_draws, HostSide.advance_draws]; rfl
    exact ⟨_, step_reset (s := s.withHost _) hr,
      State.holdReset_withHost (s := s.advanceHost) hdraws (s.cfgRange_advance_offer valid w)⟩
  | false =>
    obtain ⟨u, rfl, hu⟩ := step_offer hready hr valid w h
    exact ⟨_, hu, u.sameBlock_withHost _⟩

/-! ### Reset (R79, R175, R206) -/

/-- A block held in reset is at power-on (R39). -/
theorem State.holdReset_atPowerOn (s : State) : s.holdReset.AtPowerOn := by
  constructor <;> simp

/-- Settles O47: a step with `rst` asserted answers `State.holdReset` (`step_reset`), which is at power-on and moves the mark by `BUSY`. -/
theorem resetAbandonsTheCommand : Obligations.ResetAbandonsTheCommand := by
  intro s hr
  refine ⟨_, step_reset hr, State.holdReset_atPowerOn _, fun hb => ?_, fun hb => ?_⟩ <;>
    rw [State.holdReset_hist, State.advanceHost_hist, State.advanceHost_seq, hb]
  · exact Bool.or_true _
  · exact Bool.or_false _

/-! ### The Range after construction (R216) -/

/-- Settles O52: of all operations only the beginning of construction writes the Range. -/
theorem rangeIsFixed : Obligations.RangeIsFixed := by
  intro s t hp hr h
  rcases step_operations h with ⟨hr', -⟩ | ⟨-, u, rfl, hu⟩
  · rw [hr] at hr'; cases hr'
  change u.config.range = s.config.range
  rcases hu with ⟨hp', -⟩ | ⟨-, rfl⟩ | ⟨-, -, rfl | ⟨i, l, -, -, rfl | rfl⟩⟩
  · exact absurd hp' hp
  · exact (stepMicro_frame s _).2
  · rfl
  · exact congrArg Configuration.range (s.runCommand_config l)
  · rfl

/-! ### Construction (R202 to R204) -/

/-- Construction writes code 0 to every channel, whatever the Range (R203). -/
theorem constructionRecords_initOrder {r : Range} (hr : r.Ok) :
    constructionRecords Config.constants.initOrder r =
      [{ cs1 := true, cs2 := false, frame := 0x6140201#27 }, { cs1 := false, cs2 := true, frame := 0x6140201#27 },
       { cs1 := true, cs2 := true, frame := 0x6040201#27 }] := by
  simp only [constructionRecords, constructionJobs, List.map_cons, List.map_nil, WriteJob.record, writeJob, codeBitsOf_min hr]
  rfl

/-- What construction from the power-on state `s` leaves (R203). -/
structure State.ConstructionOf (s t : State) : Prop where
  lines : t.lines = .written .ch3
  dir : t.dir = 0b1111#4
  range : t.config.range = s.cfgRange
  outCache : t.outCache = { slot1 := some s.cfgRange.minVal, slot2 := some s.cfgRange.minVal, slot3 := some s.cfgRange.minVal }
  seq : t.seq = { phase := .constructed, busy := false, upc := 0#8, cur := .idle, waitCnt := 0 }
  trace : t.hist.trace = constructionEvents Config.constants.initOrder s.cfgRange
  now : t.hist.now = traceMicros (constructionEvents Config.constants.initOrder s.cfgRange)
  dacLog : t.hist.dacLog = constructionRecords Config.constants.initOrder s.cfgRange
  mark : t.hist.protoViolation = s.hist.protoViolation
  monitor : t.hist.monitor = .closed

/-- From power-on, a step at the command level with a good Range on the ports is the whole construction (R202, R203). -/
theorem State.AtPowerOn.step_constructs {s : State} (hs : s.AtPowerOn) (hr : s.host.input.rst = false) (hg : s.host.grain = .command)
    (hok : s.cfgRange.Ok) : ∃ t, step s = .next t ∧ s.ConstructionOf t := by
  have hw := writeMinVal_written Config.constants.initOrder s.begun
  have hlines : (s.begun.writeMinVal Config.constants.initOrder).lines = .written .ch3 := s.begun.writeMinVal_lines [1, 2] 3
  have hrange : s.begun.config.range = s.cfgRange := rfl
  rw [step_construct hs.phase hr hg, construct_eq _ hok]
  refine ⟨_, rfl, ?_⟩
  generalize s.begun.writeMinVal Config.constants.initOrder = u at hw hlines
  constructor
  case lines => exact hlines
  case dir => exact hw.dir
  case range => exact congrArg Configuration.range hw.config
  case outCache => exact hw.cache.trans (by rw [hrange, clamp_min _ hok]; rfl)
  case seq => rfl
  case trace => exact hw.trace.trans (by rw [hrange, show s.begun.hist.trace = [] from hs.noEvent, List.nil_append])
  case now => exact hw.now.trans (by rw [hrange, show s.begun.hist.now = 0 from hs.noTime, Nat.zero_add])
  case dacLog => exact hw.log.trans (by rw [hrange, show s.begun.hist.dacLog = [] from hs.noRecord, List.nil_append])
  case mark => exact hw.mark
  case monitor => exact hw.mon.trans hs.noFrame

theorem State.ConstructionOf.cache {s t : State} (h : s.ConstructionOf t) (k : Channel) : t.outCache.get k = some t.config.range.minVal := by
  rw [h.outCache, h.range]; cases k <;> rfl

/-- Without a mark, what construction leaves is a constructed block (R203, R222). -/
theorem State.ConstructionOf.constructed {s t : State} (h : s.ConstructionOf t) (hok : s.cfgRange.Ok) (hm : s.NoFaultRecorded) :
    t.Constructed where
  phase := by rw [h.seq]
  notBusy := by rw [h.seq]
  atStart := by rw [h.seq]
  rangeOk := by rwa [h.range]
  lines := h.lines
  dir := h.dir
  cache := h.cache
  trace := by rw [h.range, h.trace]
  time := by rw [h.range, h.now]
  dacLog := by rw [h.range, h.dacLog]
  noMark := h.mark.trans hm
  noFrame := h.monitor

/-- Settles O42: the registers and the history by `State.AtPowerOn.step_constructs`, the counts by those of three channel writes
(`events_counts`). -/
theorem constructionReachesTheConstructedState : Obligations.ConstructionReachesTheConstructedState := by
  intro s hs hr hg hlt
  have hok : s.cfgRange.Ok := (q16Range_ok_iff _ _).2 hlt
  obtain ⟨t, ht, h⟩ := hs.step_constructs hr hg hok
  obtain ⟨hlength, hwaits, hmicros, hboth⟩ := events_counts Config.constants.initOrder s.cfgRange
  refine ⟨t, ht, h.lines, h.dir, ?_, ?_, h.cache, ?_, ?_, ?_, ?_, ?_, ?_, ?_, ?_, h.mark, h.range.trans hs.range.symm,
    h.constructed hok⟩
  · rw [h.range]; exact q16_eq_div _
  · rw [h.range]; exact q16_eq_div _
  · rw [h.dacLog, constructionRecords_initOrder hok]
  · rw [h.trace, hboth]; rfl
  · rw [h.trace, hlength]; rfl
  · rw [h.trace, hwaits]; rfl
  · rw [h.now, hmicros]; rfl
  · rw [h.seq]
  · rw [h.seq]
  · rw [h.seq]

theorem History.eq_of_fields {h h' : History} (htrace : h.trace = h'.trace) (hnow : h.now = h'.now) (hlog : h.dacLog = h'.dacLog)
    (hmark : h.protoViolation = h'.protoViolation) (hmonitor : h.monitor = h'.monitor) : h = h' := by
  cases h; cases h'; simp_all

/-- What construction leaves is computed from the Range on the ports and the mark. -/
theorem State.ConstructionOf.sameBlock {s s' t t' : State} (h : s.ConstructionOf t) (h' : s'.ConstructionOf t')
    (hcfg : s.cfgRange = s'.cfgRange) (hm : s.hist.protoViolation = s'.hist.protoViolation) : SameBlock t t' := by
  refine ⟨h.lines.trans h'.lines.symm, h.dir.trans h'.dir.symm, ?_, ?_, h.seq.trans h'.seq.symm, History.eq_of_fields ?_ ?_ ?_ ?_ ?_⟩
  · rw [h.range, h'.range, hcfg]
  · rw [h.outCache, h'.outCache, hcfg]
  · rw [h.trace, h'.trace, hcfg]
  · rw [h.now, h'.now, hcfg]
  · rw [h.dacLog, h'.dacLog, hcfg]
  · rw [h.mark, h'.mark, hm]
  · rw [h.monitor, h'.monitor]

/-- A step at power-on that answers a next state has found a good Range on the ports (R202 step 1). -/
theorem step_powerOn_ok {s t : State} (hp : s.seq.phase = .powerOn) (hr : s.host.input.rst = false) (h : step s = .next t) :
    s.cfgRange.Ok := (construct_next_iff.1 (step_powerOn_settled hp hr h)).1

/-- Settles O44: both constructions leave what the Range on the ports and the mark determine (`State.ConstructionOf.sameBlock`). -/
theorem constructionIsIdempotent : Obligations.ConstructionIsIdempotent := by
  intro s s' t hs hs' hr hr' hg hg' hmin hmax hm h
  have hok := step_powerOn_ok hs.phase hr h
  have hcfg : s.cfgRange = s'.cfgRange := by rw [State.cfgRange, State.cfgRange, hmin, hmax]
  obtain ⟨u, hu, hut⟩ := hs.step_constructs hr hg hok
  obtain ⟨t', ht', ht⟩ := hs'.step_constructs hr' hg' (hcfg ▸ hok)
  obtain rfl : u = t := Host.Outcome.next.inj (hu.symm.trans h)
  exact ⟨t', ht', hut.sameBlock ht hcfg hm⟩

/-! ### Frame commands (R154, R212) -/

/-- A frame command latches a channel write, or is refused a bad Range (R146, R150, R151, R176). -/
theorem latchOf_frameCmd {i : Instr} (hi : isFrameCmd i = true) (r : Range) :
    ∃ j, latchOf i r = if r.Ok then .ok (.write j) else .error .badRange := by
  cases i with
  | wrch ch v => exact ⟨_, rfl⟩
  | awr ch v => exact ⟨_, rfl⟩
  | dwr ch d => exact ⟨_, rfl⟩
  | _ => cases hi

theorem exec_frameCmd {i : Instr} {s : State} (hi : isFrameCmd i = true) (hr : s.config.range.Ok) :
    ∃ j, exec i s = .next (s.runCommand (.write j)) := by
  obtain ⟨j, hj⟩ := latchOf_frameCmd hi s.config.range
  exact ⟨j, exec_of_latch (hj.trans (if_pos hr)) (by simp)⟩

/-- Settles O51, by induction on the commands: each is a channel write, which leaves a closed monitor closed and one record. -/
theorem frameCommandsNeverSetTheMark : Obligations.FrameCommandsNeverSetTheMark := by
  intro is
  induction is with
  | nil => exact fun s _ _ _ => ⟨s, rfl, rfl, rfl⟩
  | cons i is ih =>
    intro s his hr hm
    obtain ⟨j, hj⟩ := exec_frameCmd (his i List.mem_cons_self) hr
    have hclosed : s.hist.monitor.pass (.write j) = .closed := by rw [hm]; rfl
    obtain ⟨t, ht, hmark, hlog⟩ := ih (s.runCommand (.write j)) (fun k hk => his k (List.mem_cons_of_mem i hk))
      (by rwa [State.runCommand_config]) (by rw [State.runCommand_monitor, hclosed])
    refine ⟨t, (execAll_append [i] is s _ (execAll_one.2 hj)).trans ht, ?_, ?_⟩
    · rw [hmark, State.runCommand_protoViolation (by simp [hclosed])]
    · rw [hlog, State.runCommand_write_dacLog, List.length_append, List.length_singleton, List.length_cons]
      omega

/-! ### How the monitor reads a list of commands (R212) -/

/-- How the monitor reads an accepted command: it moves by what the command latches, whatever the Range (`read_of_latch`). -/
def FrameMonitor.read (m : FrameMonitor) (i : Instr) : FrameMonitor :=
  match latchOf i Config.constants.rangeDefault with
  | .ok l => m.pass l
  | .error _ => m

/-- The monitor sees that a channel write was latched, not which. -/
theorem FrameMonitor.pass_write (m : FrameMonitor) (j j' : WriteJob) : m.pass (.write j) = m.pass (.write j') := by
  cases m <;> rfl

theorem FrameMonitor.read_of_latch {i : Instr} {r : Range} {l : Latch} (h : latchOf i r = .ok l) (m : FrameMonitor) :
    m.read i = m.pass l := by
  by_cases hi : isFrameCmd i = true
  · obtain ⟨j, hj⟩ := latchOf_frameCmd hi r
    obtain ⟨j', hj'⟩ := latchOf_frameCmd hi Config.constants.rangeDefault
    rw [hj] at h
    split at h <;> cases h
    rw [FrameMonitor.read, hj', if_pos rangeDefault_ok]
    exact m.pass_write j' j
  · cases i with
    | wrch ch v => exact absurd rfl hi
    | awr ch v => exact absurd rfl hi
    | dwr ch d => exact absurd rfl hi
    | _ => cases h; rfl

/-- The reserved command does not affect the word (R85, R212). -/
theorem FrameMonitor.read_reserved (m : FrameMonitor) : m.read .reserved = m := by cases m <;> rfl

theorem FrameMonitor.read_broken (i : Instr) : FrameMonitor.broken.read i = .broken := by
  unfold FrameMonitor.read
  split
  · exact FrameMonitor.pass_broken _
  · rfl

/-- Between frames the monitor lets chip-select primitives and frame commands pass, and a start condition opens a frame (R212). -/
theorem FrameMonitor.read_closed {i : Instr} (hi : i ≠ .reserved) :
    FrameMonitor.closed.read i = if isCsw i ∨ isFrameCmd i then .closed else if i = .start then .opened [] else .broken := by
  cases i with
  | reserved => exact absurd rfl hi
  | _ => rfl

theorem FrameMonitor.read_opened_wbit {bits : List Level} (b : Level) (h : bits.length < 27) :
    (FrameMonitor.opened bits).read (.wbit b) = .opened (bits ++ [b]) :=
  FrameMonitor.foldl_pass_bits (bits := [b]) (by simp; omega)

theorem FrameMonitor.read_opened_stop {bits : List Level} (h : bits.length = 27) :
    (FrameMonitor.opened bits).read .stop = if frameFixedOk (frameOfBits bits) then .closed else .broken :=
  FrameMonitor.pass_stop h

/-- An open frame is broken by any command but its next one (R210, R212). -/
theorem FrameMonitor.read_opened_other {bits : List Level} {i : Instr} (h : ¬ frameGoesOn bits i = true) (hi : i ≠ .reserved) :
    (FrameMonitor.opened bits).read i = .broken := by
  cases i with
  | reserved => exact absurd rfl hi
  | wbit b =>
    have hlen : ¬ bits.length < 27 := fun hlt => h (decide_eq_true hlt)
    change (FrameMonitor.opened bits).pass (.bit b) = .broken
    rw [FrameMonitor.pass_of_ne_stop _ (by simp)]
    exact if_neg hlen
  | stop =>
    have hlen : ¬ bits.length = 27 := fun heq => h (decide_eq_true heq)
    change ((FrameMonitor.opened bits).accept .stop).complete .stop = .broken
    rw [show (FrameMonitor.opened bits).accept .stop = .broken from if_neg hlen]
    rfl
  | _ => rfl

/-- The reserved commands of a list are not read (R212). -/
theorem FrameMonitor.foldl_read_withoutReserved (is : List Instr) (m : FrameMonitor) :
    (withoutReserved is).foldl FrameMonitor.read m = is.foldl FrameMonitor.read m := by
  induction is generalizing m with
  | nil => rfl
  | cons i is ih =>
    by_cases hi : i = .reserved
    · subst hi
      rw [List.foldl_cons, FrameMonitor.read_reserved]
      exact ih m
    · rw [withoutReserved, List.filter_cons_of_pos (by simpa using hi), List.foldl_cons, List.foldl_cons]
      exact ih (m.read i)

/-! ### What is whole frames so far does not break the monitor (R212) -/

/-- A start condition and at most 27 bits, from between frames, stand as an open frame with those bits. -/
theorem FrameMonitor.foldl_read_bits {bits : List Level} (h : bits.length ≤ 27) :
    ([Instr.start] ++ bits.map Instr.wbit).foldl FrameMonitor.read .closed = .opened bits := by
  have hbits := FrameMonitor.foldl_pass_bits (sent := []) (bits := bits) (by simpa using h)
  rw [List.foldl_map] at hbits
  rw [List.foldl_append, List.foldl_map]
  exact hbits

/-- Whole frames bring the monitor from closed to closed. -/
theorem WholeFrames.foldl_read {w : List Instr} (h : WholeFrames w) : w.foldl FrameMonitor.read .closed = .closed := by
  induction h with
  | nil => rfl
  | csw w i _ hi ih =>
    have hne : i ≠ .reserved := by rintro rfl; cases hi
    rw [List.foldl_append, ih, List.foldl_cons, FrameMonitor.read_closed hne, if_pos (.inl hi), List.foldl_nil]
  | frameCmd w i _ hi ih =>
    have hne : i ≠ .reserved := by rintro rfl; cases hi
    rw [List.foldl_append, ih, List.foldl_cons, FrameMonitor.read_closed hne, if_pos (.inr hi), List.foldl_nil]
  | composed w bits _ hlen hframe ih =>
    obtain ⟨a, code, hframe⟩ := hframe
    rw [List.append_assoc w, List.foldl_append, List.foldl_append, ih, FrameMonitor.foldl_read_bits (le_of_eq hlen), List.foldl_cons,
      FrameMonitor.read_opened_stop hlen, hframe, frameFixedOk_frame, if_pos rfl, List.foldl_nil]

theorem WholeFramesSoFar.foldl_read {w : List Instr} (h : WholeFramesSoFar w) : w.foldl FrameMonitor.read .closed ≠ .broken := by
  rcases h with h | ⟨done, bits, hdone, hlen, rfl⟩
  · simp [h.foldl_read]
  · rw [List.append_assoc, List.foldl_append, hdone.foldl_read, FrameMonitor.foldl_read_bits hlen]
    simp

/-! ### Where the monitor is unbroken, it has read whole frames so far (R212) -/

/-- The monitor says of a word where it stands in the language of R212: between frames, or in an open frame with these bits. -/
def FrameMonitor.Explains (m : FrameMonitor) (w : List Instr) : Prop :=
  match m with
  | .closed => WholeFrames w
  | .opened bits => bits.length ≤ 27 ∧ ∃ done, WholeFrames done ∧ w = done ++ [.start] ++ bits.map .wbit
  | .broken => True

theorem FrameMonitor.Explains.wholeFramesSoFar {m : FrameMonitor} {w : List Instr} (h : m.Explains w) (hm : m ≠ .broken) :
    WholeFramesSoFar w := by
  cases m with
  | closed => exact .inl h
  | opened bits =>
    obtain ⟨hlen, done, hdone, hw⟩ := h
    exact .inr ⟨done, bits, hdone, hlen, hw⟩
  | broken => exact absurd rfl hm

/-- A word of whole frames goes on with a chip-select primitive, a frame command or a start condition, or breaks. -/
theorem FrameMonitor.explains_read_closed {w : List Instr} {i : Instr} (h : WholeFrames w) (hi : i ≠ .reserved) :
    (FrameMonitor.closed.read i).Explains (w ++ [i]) := by
  rw [FrameMonitor.read_closed hi]
  split
  case isTrue hpass => exact hpass.elim (.csw w i h) (.frameCmd w i h)
  case isFalse =>
    split
    case isTrue hstart => subst hstart; exact ⟨Nat.zero_le _, w, h, (List.append_nil _).symm⟩
    case isFalse => trivial

/-- A word with an open frame goes on with the frame's next bit or, the fixed bits right, its stop condition, or breaks. -/
theorem FrameMonitor.explains_read_opened {w : List Instr} {bits : List Level} {i : Instr} (h : (FrameMonitor.opened bits).Explains w)
    (hi : i ≠ .reserved) : ((FrameMonitor.opened bits).read i).Explains (w ++ [i]) := by
  obtain ⟨-, done, hdone, rfl⟩ := h
  by_cases hgoes : frameGoesOn bits i = true
  · rcases frameGoesOn_cases hgoes with ⟨b, rfl, hlt⟩ | ⟨rfl, hlen⟩
    · rw [FrameMonitor.read_opened_wbit b hlt]
      exact ⟨by simpa using hlt, done, hdone, by simp⟩
    · rw [FrameMonitor.read_opened_stop hlen]
      split
      case isTrue hfixed => exact .composed done bits hdone hlen ⟨_, _, eq_frame_of_fixedBits (by simpa [frameFixedOk_eq] using hfixed)⟩
      case isFalse => trivial
  · rw [FrameMonitor.read_opened_other hgoes hi]
    trivial

/-- Reading one command more, the monitor goes on explaining what it has read. -/
theorem FrameMonitor.Explains.read {m : FrameMonitor} {w : List Instr} {i : Instr} (h : m.Explains w) (hi : i ≠ .reserved) :
    (m.read i).Explains (w ++ [i]) := by
  cases m with
  | closed => exact FrameMonitor.explains_read_closed h hi
  | opened bits => exact FrameMonitor.explains_read_opened h hi
  | broken => rw [FrameMonitor.read_broken]; trivial

theorem FrameMonitor.foldl_read_explains {w : List Instr} (hw : .reserved ∉ w) : (w.foldl FrameMonitor.read .closed).Explains w := by
  induction w using List.reverseRecOn with
  | nil => exact .nil
  | append_singleton w i ih =>
    simp only [List.mem_append, List.mem_singleton, not_or] at hw
    rw [List.foldl_append]
    exact (ih hw.1).read (Ne.symm hw.2)

theorem reserved_not_mem_withoutReserved (is : List Instr) : .reserved ∉ withoutReserved is := by simp [withoutReserved]

/-- R212: from between frames, a list of commands leaves the monitor unbroken exactly when, without reserved commands, it is whole frames
so far. -/
theorem FrameMonitor.foldl_read_ne_broken_iff (is : List Instr) :
    is.foldl FrameMonitor.read .closed ≠ .broken ↔ WholeFramesSoFar (withoutReserved is) := by
  rw [← FrameMonitor.foldl_read_withoutReserved]
  exact ⟨(FrameMonitor.foldl_read_explains (reserved_not_mem_withoutReserved is)).wholeFramesSoFar, WholeFramesSoFar.foldl_read⟩

/-! ### The mark over a list of commands (R37, R212) -/

/-- A list of commands runs latched commands, which move the monitor as it reads the list. -/
theorem execAll_runs {is : List Instr} {s t : State} (h : execAll is s = .next t) :
    ∃ ls, t = s.runCommands ls ∧ ∀ m, ls.foldl FrameMonitor.pass m = is.foldl FrameMonitor.read m := by
  induction is generalizing s with
  | nil => cases h; exact ⟨[], rfl, fun _ => rfl⟩
  | cons i is ih =>
    obtain ⟨u, hi, his⟩ := execAll_split (is := [i]) h
    obtain ⟨ls, ht, hread⟩ := ih his
    rcases exec_next_cases (execAll_one.1 hi) with ⟨rfl, rfl⟩ | ⟨l, -, hl, rfl⟩
    · exact ⟨ls, ht, fun m => by rw [hread, List.foldl_cons, FrameMonitor.read_reserved]⟩
    · exact ⟨l :: ls, ht, fun m => by rw [List.foldl_cons, List.foldl_cons, hread, FrameMonitor.read_of_latch hl]⟩

/-- A list of commands keeps what the operations on the state keep. -/
theorem KeptByOperations.execAll {P : State → Prop} (hP : KeptByOperations P) {is : List Instr} {s t : State}
    (h : Machine.execAll is s = .next t) (hs : P s) : P t := by
  induction is generalizing s with
  | nil => cases h; exact hs
  | cons i is ih =>
    obtain ⟨u, hi, his⟩ := execAll_split (is := [i]) h
    refine ih his ?_
    rcases exec_next_cases (execAll_one.1 hi) with ⟨-, rfl⟩ | ⟨l, -, hl, rfl⟩
    · exact hs
    · exact hP.runCommand (latchOf_computed hl) hs

/-- From between frames and with no mark, a list of commands sets the mark exactly where it breaks the monitor (R37). -/
theorem execAll_mark_iff {is : List Instr} {s t : State} (hclosed : s.hist.monitor = .closed) (hm : s.hist.protoViolation = false)
    (h : execAll is s = .next t) : t.hist.protoViolation = false ↔ is.foldl FrameMonitor.read .closed ≠ .broken := by
  obtain ⟨ls, rfl, hread⟩ := execAll_runs h
  have hmonitor : (s.runCommands ls).hist.monitor = is.foldl FrameMonitor.read .closed := by
    rw [State.runCommands_monitor, hclosed, hread]
  have hok : (s.runCommands ls).MonitorOk := monitorOk_kept.execAll h ⟨by simp [hclosed], by simp [hclosed]⟩
  rw [← hmonitor]
  refine ⟨fun hnone hb => ?_, fun hb => ?_⟩
  · rw [hok.marked hb] at hnone; cases hnone
  · rw [State.runCommands_protoViolation (by rwa [← State.runCommands_monitor]), hm]

/-- Settles O50: the mark is set where the monitor is broken (`execAll_mark_iff`), and the monitor is broken where the list is no longer
whole frames so far (`FrameMonitor.foldl_read_ne_broken_iff`). -/
theorem monitorRecognisesWholeFrames : Obligations.MonitorRecognisesWholeFrames := by
  intro is s t hclosed hm h
  rw [execAll_mark_iff hclosed hm h, FrameMonitor.foldl_read_ne_broken_iff]

end Sys2Proof.Machine
end
